-- ==== Sys2Proof/Word.lean ====
section
/-! DEFINITION. The word types of JEL-BSF and its plainest arithmetic (spec 00_scope.md R8, R10). -/

namespace Sys2Proof

/-- One byte of a byte store (20_memory.md R74, R75). -/
abbrev Byte := BitVec 8

/-- A 32-bit register (10_state.md R54). -/
abbrev Word := BitVec 32

/-- A frequency index, position 0..63 in a coefficient block (00_scope.md R17, `NSLOT = 64`). -/
abbrev Slot := Fin 64

/-- A coefficient block: "a fixed 64-slot array of signed integer DCT coefficients" (10_state.md R53). -/
abbrev CoefBlock := Vector Int 64

/-- `LEN_MAX`, the largest legal byte count (00_scope.md R8). -/
def lenMax : Nat := 2 ^ 31 - 1

/-- `ceil(a / b)` of 00_scope.md R10, for `b > 0`. -/
def ceilDiv (a b : Nat) : Nat := (a + b - 1) / b

/-- `zeros(n)` of 00_scope.md R11. -/
def zeros (n : Nat) : List Byte := List.replicate n 0

end Sys2Proof
end

