-- ==== Sys2Proof/ReedSolomon.lean ====
section
/-! DEFINITION. What a Reed-Solomon port is (42_ecc_framer.md R161 to R163): its type, and one port that shows the
type to be inhabited. The model calls no port but the open one of `Config`. -/

namespace Sys2Proof

/-- How many bytes of two ECC blocks differ. -/
def changedBytes {b : Nat} (c d : Fin b → Byte) : Nat := (Finset.univ.filter fun i => c i ≠ d i).card

/-! ### A code with P1 to P3

The bytes of a message are the coefficients of a polynomial over the field of 256 elements, and its code block holds
the values of that polynomial at different points, the powers of one element of order 255. -/

/-- Multiplication by an element of order 255 of the field of 256 elements. -/
def gfShift (x : Byte) : Byte := (x <<< 1) ^^^ (if x.msb then 0x1D#8 else 0#8)

/-- The value of the polynomial with these coefficients at the `i`-th point. -/
def gfEval (i : Nat) : List Byte → Byte
  | [] => 0#8
  | m :: rest => m ^^^ gfShift^[i] (gfEval i rest)

/-- The quotient by the linear polynomial that vanishes at the `a`-th point. -/
def gfQuotient (a : Nat) : List Byte → List Byte
  | [] => []
  | [_] => []
  | _ :: x :: rest => gfEval a (x :: rest) :: gfQuotient a (x :: rest)

theorem gfShift_xor (x y : Byte) : gfShift (x ^^^ y) = gfShift x ^^^ gfShift y := by
  simp only [gfShift, BitVec.shiftLeft_xor_distrib, BitVec.msb_xor]
  generalize x <<< 1 = u
  generalize y <<< 1 = v
  cases x.msb <;> cases y.msb <;> simp <;> ac_nf <;> simp

theorem gfPower_xor (i : Nat) (x y : Byte) : gfShift^[i] (x ^^^ y) = gfShift^[i] x ^^^ gfShift^[i] y := by
  induction i generalizing x y with
  | zero => rfl
  | succ i ih => simp only [Function.iterate_succ_apply, gfShift_xor, ih]

theorem gfPower_zero (i : Nat) : gfShift^[i] 0#8 = 0#8 := Function.iterate_fixed (by decide) i

/-- The bits of a byte, least significant first, each as a byte. -/
def gfBits (x : Byte) : List Byte := (List.range 8).map fun i => if x.getLsbD i then 1#8 else 0#8

set_option maxRecDepth 4000 in
theorem gfEval_bits (x : Byte) : gfEval 1 (gfBits x) = x := by
  have : ∀ n < 256, gfEval 1 (gfBits (BitVec.ofNat 8 n)) = BitVec.ofNat 8 n := by decide
  simpa using this x.toNat x.isLt

/-- An additive map that commutes with the shift is known from its value at 1. -/
theorem gf_ext {f g : Byte → Byte} (hf : ∀ x y, f (x ^^^ y) = f x ^^^ f y) (hg : ∀ x y, g (x ^^^ y) = g x ^^^ g y)
    (cf : ∀ x, f (gfShift x) = gfShift (f x)) (cg : ∀ x, g (gfShift x) = gfShift (g x)) (h : f 1#8 = g 1#8)
    (x : Byte) : f x = g x := by
  have z : ∀ k : Byte → Byte, (∀ x y, k (x ^^^ y) = k x ^^^ k y) → k 0#8 = 0#8 := fun k hk => by
    have := hk 0#8 0#8
    simpa using this
  have key : ∀ l : List Byte, (∀ y ∈ l, y = 1#8 ∨ y = 0#8) → f (gfEval 1 l) = g (gfEval 1 l) := by
    intro l hl
    induction l with
    | nil => simp only [gfEval, z f hf, z g hg]
    | cons y l ih =>
      have hy : f y = g y := by
        rcases hl y (by simp) with rfl | rfl
        · exact h
        · rw [z f hf, z g hg]
      have := ih fun y hy => hl y (by simp [hy])
      simp only [gfEval, Function.iterate_one, hf, hg, cf, cg, this, hy]
  rw [← gfEval_bits x]
  refine key _ fun y hy => ?_
  simp only [gfBits, List.mem_map] at hy
  obtain ⟨i, _, rfl⟩ := hy
  split <;> simp

set_option maxRecDepth 8000 in
/-- The shift has a period of 255. -/
theorem gfPeriod (x : Byte) : gfShift^[255] x = x :=
  gf_ext (f := gfShift^[255]) (g := id) (gfPower_xor 255) (fun _ _ => rfl)
    (fun x => (Function.Commute.refl gfShift).iterate_left 255 x) (fun _ => rfl) (by decide) x

theorem gfPower_eq_zero {i : Nat} {x : Byte} (h : gfShift^[i] x = 0#8) : x = 0#8 := by
  have hp : gfShift^[255 * i] x = x := Function.IsPeriodicPt.mul_const (gfPeriod x) i
  rw [show 255 * i = 254 * i + i by omega, Function.iterate_add_apply, h, gfPower_zero] at hp
  exact hp.symm

/-- If a power of the shift, moved by the identity, is another power, it moves every byte but 0. -/
theorem gf_moves {d e : Nat} (h : gfShift^[d] 1#8 ^^^ 1#8 = gfShift^[e] 1#8) {x : Byte} (hx : gfShift^[d] x = x) :
    x = 0#8 := by
  apply gfPower_eq_zero (i := e)
  rw [← gf_ext (f := fun x => gfShift^[d] x ^^^ x) (g := gfShift^[e]) (fun x y => ?_) (gfPower_xor e) (fun x => ?_)
    (fun x => (Function.Commute.refl gfShift).iterate_left e x) h x]
  · simp only [hx, BitVec.xor_self]
  · simp only [gfPower_xor]; ac_rfl
  · rw [gfShift_xor, (Function.Commute.refl gfShift).iterate_left d x]

set_option maxRecDepth 8000 in
/-- No shorter power of the shift fixes a byte other than 0. -/
theorem gf_noFixpoint {d : Nat} (h0 : 0 < d) (hd : d < 255) {x : Byte} (hx : gfShift^[d] x = x) : x = 0#8 := by
  have hg : gfShift^[Nat.gcd 255 d] x = x := Function.IsPeriodicPt.gcd (gfPeriod x) hx
  have hdiv : ∀ d ∈ List.range 255, 0 < d → Nat.gcd 255 d ∣ 85 ∨ Nat.gcd 255 d ∣ 51 ∨ Nat.gcd 255 d ∣ 15 := by decide
  have per : ∀ n, Nat.gcd 255 d ∣ n → gfShift^[n] x = x := fun n hn => Function.IsPeriodicPt.trans_dvd hg hn
  rcases hdiv d (List.mem_range.2 hd) h0 with h | h | h
  · exact gf_moves (d := 85) (e := 170) (by decide) (per _ h)
  · exact gf_moves (d := 51) (e := 238) (by decide) (per _ h)
  · exact gf_moves (d := 15) (e := 33) (by decide) (per _ h)

theorem gf_injective {i j : Nat} (hi : i < 255) (hj : j < 255) (h : i ≠ j) {x : Byte}
    (hx : gfShift^[i] x = gfShift^[j] x) : x = 0#8 := by
  wlog hl : i < j generalizing i j
  · exact this hj hi (Ne.symm h) hx.symm (by omega)
  have hinj : Function.Injective gfShift := fun a b hab => by
    have := gfPower_eq_zero (i := 1) (x := a ^^^ b) (by simp [gfShift_xor, hab])
    simpa using this
  rw [show j = i + (j - i) by omega, Function.iterate_add_apply] at hx
  exact gf_noFixpoint (d := j - i) (by omega) (by omega) (hinj.iterate i hx).symm

theorem gfQuotient_length (a : Nat) (m : List Byte) : (gfQuotient a m).length = m.length - 1 := by
  induction m with
  | nil => rfl
  | cons x m ih =>
    cases m with
    | nil => rfl
    | cons y m => simpa [gfQuotient] using ih

/-- Division by a linear polynomial. -/
theorem gfEval_quotient (y a : Nat) (m : List Byte) :
    gfEval y m ^^^ gfEval a m =
      gfShift^[y] (gfEval y (gfQuotient a m)) ^^^ gfShift^[a] (gfEval y (gfQuotient a m)) := by
  induction m with
  | nil => simp [gfQuotient, gfEval, gfPower_zero]
  | cons x m ih =>
    cases m with
    | nil => simp [gfQuotient, gfEval, gfPower_zero]
    | cons z m =>
      have hy : gfEval y (z :: m) = gfEval a (z :: m) ^^^ (gfShift^[y] (gfEval y (gfQuotient a (z :: m))) ^^^
          gfShift^[a] (gfEval y (gfQuotient a (z :: m)))) := by
        rw [← ih]
        generalize gfEval y (z :: m) = u
        generalize gfEval a (z :: m) = v
        rw [BitVec.xor_comm u v, ← BitVec.xor_assoc, BitVec.xor_self, BitVec.zero_xor]
      show (x ^^^ gfShift^[y] (gfEval y (z :: m))) ^^^ (x ^^^ gfShift^[a] (gfEval a (z :: m))) = _
      rw [hy]
      have hc : ∀ w, gfShift^[y] (gfShift^[a] w) = gfShift^[a] (gfShift^[y] w) := fun w => by
        rw [← Function.iterate_add_apply, ← Function.iterate_add_apply, Nat.add_comm]
      show _ = gfShift^[y] (gfEval a (z :: m) ^^^ gfShift^[y] _) ^^^ gfShift^[a] (gfEval a (z :: m) ^^^ gfShift^[y] _)
      simp only [gfPower_xor, hc]
      generalize gfShift^[y] (gfEval a (z :: m)) = u
      generalize gfShift^[a] (gfEval a (z :: m)) = v
      ac_nf
      simp [← BitVec.xor_assoc]

theorem gf_zero_of_quotient {a : Nat} {m : List Byte} (h : gfEval a m = 0#8) (hq : ∀ x ∈ gfQuotient a m, x = 0#8) :
    ∀ x ∈ m, x = 0#8 := by
  induction m with
  | nil => simp
  | cons x m ih =>
    cases m with
    | nil =>
      have : x = 0#8 := by simpa [gfEval, gfPower_zero] using h
      simpa using this
    | cons z m =>
      have hz : gfEval a (z :: m) = 0#8 := hq _ (by simp [gfQuotient])
      have hx : x = 0#8 := by
        have : x ^^^ gfShift^[a] (gfEval a (z :: m)) = 0#8 := h
        simpa [hz, gfPower_zero] using this
      intro w hw
      rcases List.mem_cons.1 hw with rfl | hw
      · exact hx
      · exact ih hz (fun w hw => hq w (by simp [gfQuotient, hw])) w hw

/-- A polynomial that vanishes at as many points as it has coefficients is zero. -/
theorem gf_zero_of_points (m : List Byte) (points : Finset Nat) (hp : ∀ i ∈ points, i < 255)
    (hc : m.length ≤ points.card) (h : ∀ i ∈ points, gfEval i m = 0#8) : ∀ x ∈ m, x = 0#8 := by
  induction hn : m.length generalizing m points with
  | zero => simp [List.length_eq_zero_iff.1 hn]
  | succ n ih =>
    obtain ⟨a, ha⟩ : points.Nonempty := Finset.card_pos.1 (by omega)
    refine gf_zero_of_quotient (h a ha) (ih (gfQuotient a m) (points.erase a) ?_ ?_ ?_ ?_)
    · exact fun i hi => hp i (Finset.mem_of_mem_erase hi)
    · rw [gfQuotient_length, Finset.card_erase_of_mem ha]; omega
    · intro i hi
      obtain ⟨hne, hi⟩ := Finset.mem_erase.1 hi
      refine gf_injective (hp i hi) (hp a ha) hne ?_
      have := gfEval_quotient i a m
      rw [h i hi, h a ha, BitVec.xor_self] at this
      exact (BitVec.xor_eq_zero_iff).1 this.symm
    · rw [gfQuotient_length]; omega

theorem gfEval_xor (i : Nat) (m d : List Byte) (h : m.length = d.length) :
    gfEval i (List.zipWith (· ^^^ ·) m d) = gfEval i m ^^^ gfEval i d := by
  induction m generalizing d with
  | nil => cases d <;> simp_all [gfEval]
  | cons x m ih =>
    cases d with
    | nil => cases h
    | cons y d =>
      simp only [List.zipWith_cons_cons, gfEval, ih d (by simpa using h), gfPower_xor]
      ac_rfl

/-- The code block of a message. -/
def gfEncode {k b : Nat} (m : Fin k → Byte) : Fin b → Byte := fun i => gfEval i (List.ofFn m)

/-- Two messages whose code blocks agree in as many places as a message has bytes are the same. -/
theorem gfEncode_agree {k b : Nat} (hb : b ≤ 255) (m d : Fin k → Byte) (agree : Finset (Fin b)) (hc : k ≤ agree.card)
    (h : ∀ i ∈ agree, gfEncode m i = (gfEncode d i : Byte)) : m = d := by
  have hz := gf_zero_of_points (List.zipWith (· ^^^ ·) (List.ofFn m) (List.ofFn d)) (agree.map Fin.valEmbedding)
    (fun i hi => by
      obtain ⟨j, _, rfl⟩ := Finset.mem_map.1 hi
      have := j.isLt
      simp only [Fin.valEmbedding_apply]; omega)
    (by simpa using hc)
    (fun i hi => by
      obtain ⟨j, hj, rfl⟩ := Finset.mem_map.1 hi
      rw [gfEval_xor _ _ _ (by simp)]
      exact BitVec.xor_eq_zero_iff.2 (h j hj))
  funext i
  refine BitVec.xor_eq_zero_iff.1 (hz _ (List.mem_iff_getElem.2 ⟨i, by simp, by simp⟩))

/-- All messages of `k` bytes. -/
def allMessages : (k : Nat) → List (List Byte)
  | 0 => [[]]
  | k + 1 => (allMessages k).flatMap fun rest => (List.range 256).map fun n => BitVec.ofNat 8 n :: rest

theorem mem_allMessages (m : List Byte) : m ∈ allMessages m.length := by
  induction m with
  | nil => simp [allMessages]
  | cons x m ih =>
    simp only [List.length_cons, allMessages, List.mem_flatMap, List.mem_map, List.mem_range]
    exact ⟨m, ih, x.toNat, x.isLt, by simp⟩

/-- The message whose code block differs from `c` in at most `t` bytes, where there is one. -/
def gfDecode {k b : Nat} (t : Nat) (c : Fin b → Byte) : Fin k → Byte :=
  let messages : List (Fin k → Byte) := (allMessages k).map fun m i => m.getD i 0#8
  (messages.find? fun m => changedBytes c (gfEncode m) ≤ t).getD fun _ => 0#8

/-- The code corrects half as many bytes as its blocks are longer than its messages. -/
theorem gfDecode_corrects {k b t : Nat} (hb : b ≤ 255) (hk : k + 2 * t ≤ b ∨ k = 0) (m : Fin k → Byte) (c : Fin b → Byte)
    (hc : changedBytes c (gfEncode m) ≤ t) : gfDecode t c = m := by
  have hm : m ∈ (allMessages k).map fun (l : List Byte) (i : Fin k) => l.getD i 0#8 :=
    List.mem_map.2 ⟨List.ofFn m, by simpa using mem_allMessages (List.ofFn m), by funext i; simp⟩
  unfold gfDecode
  simp only
  cases hf : ((allMessages k).map fun (l : List Byte) (i : Fin k) => l.getD i 0#8).find?
      fun m => changedBytes c (gfEncode m) ≤ t with
  | none =>
    have := List.find?_eq_none.1 hf m hm
    simp [hc] at this
  | some d =>
    have hd : changedBytes c (gfEncode d) ≤ t := by simpa using List.find?_some hf
    simp only [Option.getD_some]
    rcases hk with hk | rfl
    · refine gfEncode_agree hb d m (Finset.univ.filter fun i => c i = gfEncode d i ∧ c i = gfEncode m i) ?_ ?_
      · have hsplit := Finset.card_filter_add_card_filter_not (s := (Finset.univ : Finset (Fin b)))
          (fun i => c i = gfEncode d i ∧ c i = gfEncode m i)
        have hsub : (Finset.univ.filter fun i => ¬ (c i = gfEncode d i ∧ c i = gfEncode m i)).card ≤
            changedBytes c (gfEncode d) + changedBytes c (gfEncode m) := by
          refine le_trans (Finset.card_le_card fun i hi => ?_) (Finset.card_union_le _ _)
          simp only [Finset.mem_filter, Finset.mem_univ, true_and, Finset.mem_union] at hi ⊢
          tauto
        simp only [Finset.card_univ, Fintype.card_fin] at hsplit
        omega
      · intro i hi
        obtain ⟨_, h1, h2⟩ := Finset.mem_filter.1 hi
        rw [← h1, h2]
    · funext i; exact i.elim0

/-! ### The port -/

/-- A Reed-Solomon port for block length `b` and `npar` parity bytes (42_ecc_framer.md R161, R162), with the named
properties of R163: P1 is in the types, and P3, which has P2 as its case of no changed byte, is `corrects`. Block
lengths above 255 are not legal (10_state.md R33), and nothing is asked there. The default values only show that
such a port exists. -/
structure RsPort (b npar : Nat) where
  /-- `RS_ENC(B, NPAR, m)`. -/
  encode : (Fin (b - npar) → Byte) → (Fin b → Byte) := gfEncode
  /-- `RS_DEC(B, NPAR, c)`. -/
  decode : (Fin b → Byte) → (Fin (b - npar) → Byte) := gfDecode (npar / 2)
  /-- P3, and P2. -/
  corrects : b ≤ 255 → ∀ m c, changedBytes c (encode m) ≤ npar / 2 → decode c = m := by
    exact fun hb m c => gfDecode_corrects hb (by omega) m c
  deriving Inhabited

end Sys2Proof
end

