-- ==== Sys2Proof/Config.lean ====
section
/-! DEFINITION. What an implementation of JEL-BSF fixes: the open parameters of 00_scope.md R8, and the
values the spec leaves open, each an opaque constant that nothing in Lean can evaluate. -/

namespace Sys2Proof

/-- `ECC_METHOD`: "None | ReedSolomon" (10_state.md R32). -/
inductive EccMethod where
  | none
  | reedSolomon
  deriving DecidableEq, Repr, Inhabited

/-- `FRAMING`: "a tagged variant" (10_state.md R34). -/
inductive Framing where
  | lengthCarrying
  | lengthOmitting
  deriving DecidableEq, Repr, Inhabited

/-- `IDX_ORDER` (00_scope.md R8): no rule depends on it. -/
inductive IdxOrder where
  | zigzag
  | raster
  deriving DecidableEq, Repr, Inhabited

/-- The open parameters of one instance of the block that are plain values (00_scope.md R8), each of a
type that admits exactly the values R8 and 93_implementation_defined.md U7, U13 admit. -/
structure Params where
  /-- `NPAR`, parity bytes per ECC block, below 20. -/
  npar : Fin 20
  /-- `QW`, width of a quantization-table entry. -/
  qw : Nat
  /-- `CW - 3`: a coefficient has at least 3 bits. -/
  cwAboveThree : Nat
  /-- `PBUF_SIZE`, at most `LEN_MAX`. -/
  pbufSize : Fin (2 ^ 31)
  /-- `EBUF_SIZE`, at most `LEN_MAX`. -/
  ebufSize : Fin (2 ^ 31)
  idxOrder : IdxOrder
  embedLengthReset : Bool
  eccMethodReset : EccMethod
  framingReset : Framing
  /-- `POOL_RESET`, a legal value of `POOL`, 0..64. -/
  poolReset : Fin 65
  nlevelsReset : BitVec 16
  deriving DecidableEq, Repr, Inhabited

/-- `CW`, the width of a coefficient (00_scope.md R8). -/
def Params.cw (p : Params) : Nat := p.cwAboveThree + 3

/-- The parameters of the instance that `State.reset` is a state of. OPEN (00_scope.md R8). -/
opaque Config.params : Params

/-- The Reed-Solomon port for block length `b` and `npar` parity bytes, any one with P1 to P3. OPEN
(42_ecc_framer.md R161 to R163, 93_implementation_defined.md U12): which code it is, and what its decoder
answers beyond the errors it corrects ("whatever the primitive gives"). -/
opaque Config.rsPort : (b npar : Nat) → RsPort b npar

/-- The number behind `eccTruncCount(L, K, B, M)` before it is brought into its range. OPEN
(44_embed_extract.md R228). -/
opaque Config.eccTruncRaw : (l k b m : Nat) → Nat

/-- The content of a `PBUF` byte never written since the given reset. OPEN (10_state.md R51). -/
opaque Config.pbufUnwritten : (resets addr : Nat) → Byte

/-- The content of an `EBUF` byte never written since the given reset. OPEN (10_state.md R52). -/
opaque Config.ebufUnwritten : (resets addr : Nat) → Byte

/-- The value the host gets from its n-th read of an element whose value the spec leaves unspecified
(93_implementation_defined.md U6). OPEN. -/
opaque Config.anyValue : (n : Nat) → Nat

end Sys2Proof
end

