-- ==== Sys2Proof/Syntax.lean ====
section
/-! DEFINITION. What the host can say to JEL-BSF: the commands of the opcode map (30_encoding.md R102),
the address spaces and registers (20_memory.md R70, 10_state.md R54), the inputs of the block, and the
lines of the host script (30_encoding.md R113, R114). -/

namespace Sys2Proof

/-- The commands, one constructor per row of the opcode map (30_encoding.md R102). No command has an
operand field (R100). -/
inductive Instr where
  | init
  | qual
  | selfreq
  | pack
  | unpack
  | fenc
  | fdec
  | fencnl
  | fdecnl
  | ecclen
  | eccceil
  | capecc
  | rawcap
  | cap
  | lenwr
  | lenrd
  | embed
  | extract
  deriving DecidableEq, Repr

/-- The five inner address spaces (20_memory.md R70 to R75). -/
inductive Space where
  | reg
  | freq
  | qt
  | pbuf
  | ebuf
  deriving DecidableEq, Repr

/-- The registers of the register map (10_state.md R54). -/
inductive RegName where
  | cmd | arg0 | arg1 | result | err | errinfo | esticky | phase | blk | k
  | embedLength | eccMethod | eccBlockLength | framing | bitsPerFreq | bytesPerMcu
  | pool | nlevels | seed | nfreqs | quality | ethresh | comp
  | len | maxlen | elen | wb | hb | vsamp | npar
  deriving DecidableEq, Repr

/-- What reaches the block from outside: a host transaction (45_config_access.md R260, R261), the reset
(70_reset_and_hazards.md R320), or the collaborator giving the coefficient store new contents between
commands (10_state.md R53). -/
inductive Input where
  /-- `HostRead(space, addr)`. -/
  | read (space : Space) (addr : Nat)
  /-- `HostWrite(space, addr, v)`. -/
  | write (space : Space) (addr : Nat) (value : Nat)
  /-- The one reset, applied from outside. -/
  | reset
  /-- The collaborator attaches an image, or changes the attached one: the blocks now in the store. -/
  | image (blocks : List CoefBlock)
  deriving DecidableEq, Repr

/-- One line of the host script: the four base forms (30_encoding.md R113) and the pseudo-instructions
(R114). -/
inductive ScriptLine where
  /-- `wr REG.<NAME>, v` -/
  | wrReg (r : RegName) (v : Nat)
  /-- `wr QT[p], v`, also `FREQ[i]`, `PBUF[i]`, `EBUF[i]` -/
  | wr (space : Space) (addr v : Nat)
  /-- `rd REG.<NAME>` -/
  | rdReg (r : RegName)
  /-- `rd QT[p]`, also `FREQ[i]`, `PBUF[i]`, `EBUF[i]` -/
  | rd (space : Space) (addr : Nat)
  /-- `cmd <MNEMONIC>` -/
  | cmd (i : Instr)
  /-- `qt <v0> … <v63>` -/
  | qt (vs : List Nat)
  /-- `freqs <f0> … <fk-1>` -/
  | freqs (fs : List Nat)
  /-- `payload <b0> … <bn-1>` -/
  | payload (bs : List Nat)
  /-- `ebuf <b0> … <bn-1>` -/
  | ebuf (bs : List Nat)
  /-- `geom <wb>, <hb>, <vs>` -/
  | geom (wb hb vs : Nat)
  /-- `pack <v>, <n>` -/
  | pack (v n : Nat)
  /-- `unpack <n>` -/
  | unpack (n : Nat)
  /-- `call <MNEMONIC>, <a>` -/
  | call (i : Instr) (a : Nat)
  deriving DecidableEq, Repr

end Sys2Proof
end

