-- ==== Sys2Proof/Machine/State.lean ====
section
/-! DEFINITION. The state of one JEL-BSF instance (10_state.md), the reasons it stops, and its reset
(10_state.md R55, 70_reset_and_hazards.md R320). -/

namespace Sys2Proof.Machine

/-- Why the machine stops. The errors of 60_exceptions.md are results of commands, never faults. -/
inductive Fault where
  /-- Raised by `PACK`, `UNPACK`, `LENWR`, `LENRD`, `EMBED`, `EXTRACT` when they reach block `n`, which the
  geometry registers name and the attached coefficient store does not have: `CoefRead` and `CoefWrite`
  are defined only for blocks the store has (93_implementation_defined.md U4, 70_reset_and_hazards.md
  R328). Safe: the model stops where the spec says nothing. -/
  | noSuchCoefBlock (n : Nat)
  deriving DecidableEq, Repr

/-- Why an instruction has no meaning. -/
inductive Refusal where
  /-- An instruction rejected by name in `exec`; no arm answers it. Safe. -/
  | notModelled (mnemonic : String)
  deriving DecidableEq, Repr

/-- The states of the two scan machines (10_state.md R28). -/
inductive Phase where
  | idle
  | selectFrequencies
  | eccEncode
  | scanWriteLength
  | scanWritePayload
  | determineTargetLength
  | scanReadPayload
  | eccDecode
  | done
  deriving DecidableEq, Repr

/-- What the last host transaction answered (45_config_access.md R260 to R262). The model's own. -/
inductive Reply where
  /-- No transaction since reset. -/
  | none
  /-- A read returned this value. -/
  | value (v : Int)
  /-- A write completed. -/
  | written
  /-- The access was refused; "a read returns no value". -/
  | rejected
  deriving DecidableEq, Repr

/-- A byte store: the written bytes by strictly rising address. A byte not listed was never written; what
it reads as is `Config.pbufUnwritten` or `Config.ebufUnwritten`. -/
abbrev Memory := List Host.Cell

/-- The state. Each field up to `coef` is a register, table or store of 10_state.md under its own name;
the last four are the model's own. -/
structure State where
  /-- The constants of the instance (00_scope.md R8), `NPAR` among them (10_state.md R48). -/
  params : Params
  cmd : BitVec 8
  arg0 : Word
  arg1 : Word
  result : Word
  err : BitVec 8
  errinfo : BitVec 8
  esticky : BitVec 8
  phase : Phase
  blk : Word
  k : Word
  embedLength : Bool
  eccMethod : EccMethod
  eccBlockLength : BitVec 8
  framing : Framing
  bitsPerFreq : BitVec 8
  bytesPerMcu : BitVec 8
  pool : BitVec 7
  nlevels : BitVec 16
  seed : Word
  nfreqs : BitVec 7
  quality : Word
  ethresh : Word
  comp : BitVec 8
  len : Word
  maxlen : Word
  elen : Word
  wb : Word
  hb : Word
  vsamp : Word
  freqs : Vector Slot 64
  /-- Each entry: never written, or the value written (10_state.md R49). -/
  qt : Vector (Option Nat) 64
  pbuf : Memory
  ebuf : Memory
  /-- The attached coefficient store: its blocks in linear order (20_memory.md R79). -/
  coef : List CoefBlock
  /-- The outside inputs still to come, oldest first. -/
  pending : List Input
  reply : Reply
  /-- Resets applied so far; which unspecified contents `PBUF` and `EBUF` hold depends on it. -/
  resets : Nat
  /-- Unspecified elements the host has read so far; the argument of `Config.anyValue`. -/
  draws : Nat
  deriving DecidableEq, Repr

/-- The block with constants `p` right after reset (10_state.md R55): no image attached, no host
transaction waiting. `SEED`, `QUALITY`, `ETHRESH` and the entries of `FREQS` have no reset value in the
spec; DESIGN CHOICE: 0. -/
def State.powerOn (p : Params) : State where
  params := p
  cmd := 0
  arg0 := 0
  arg1 := 0
  result := 0
  err := 0
  errinfo := 0
  esticky := 0
  phase := .idle
  blk := 0
  k := 0
  embedLength := p.embedLengthReset
  eccMethod := p.eccMethodReset
  eccBlockLength := 20
  framing := p.framingReset
  bitsPerFreq := 2
  bytesPerMcu := 1
  pool := BitVec.ofNat 7 p.poolReset
  nlevels := p.nlevelsReset
  seed := 0
  nfreqs := 0
  quality := 0
  ethresh := 0
  comp := 0
  len := 0
  maxlen := 0
  elen := 0
  wb := 0
  hb := 0
  vsamp := 1
  freqs := Vector.replicate 64 0
  qt := Vector.replicate 64 Option.none
  pbuf := []
  ebuf := []
  coef := []
  pending := []
  reply := .none
  resets := 0
  draws := 0

/-- The machine right after reset (70_reset_and_hazards.md R320). -/
def State.reset : State := State.powerOn Config.params

end Sys2Proof.Machine
end

