-- ==== Sys2Proof/Machine/Flags.lean ====
section
/-! DEFINITION. The status a command leaves: the error classes, causes and codes (60_exceptions.md R281,
R282), how they stand in `RESULT` and `ESTICKY` (R283, R284), and the codes of the named register values.
The block has no arithmetic flags (10_state.md R59). -/

namespace Sys2Proof.Machine

/-- The five error classes (60_exceptions.md R281). -/
inductive ErrClass where
  | config
  | capacity
  | format
  | buffer
  | resource
  deriving DecidableEq, Repr

/-- The class numbers (60_exceptions.md R281). -/
def ErrClass.code : ErrClass → Nat
  | .config => 1
  | .capacity => 2
  | .format => 3
  | .buffer => 4
  | .resource => 5

/-- The causes of an error, one per row of 60_exceptions.md R282. -/
inductive Cause where
  | unmappedRegister
  | illegalBlockLength
  | illegalValue
  | zeroTableEntry
  | readOnlyRegister
  | illegalOpcode
  | tableNotLoaded
  | messageTooShort
  | positionOutOfRange
  | addressOutOfRange
  | tooFewFrequencies
  | nonPositiveCapacity
  | nothingEmbedded
  | noSuchBlock
  | lengthNotMultiple
  | chunkLengthTooLarge
  | bufferTooSmall
  | ebufTooSmall
  | overflow
  deriving DecidableEq, Repr

/-- The class of a cause (60_exceptions.md R282). -/
def Cause.errClass : Cause → ErrClass
  | .unmappedRegister | .illegalBlockLength | .illegalValue | .zeroTableEntry | .readOnlyRegister
  | .illegalOpcode | .tableNotLoaded | .messageTooShort | .positionOutOfRange | .addressOutOfRange => .config
  | .tooFewFrequencies | .nonPositiveCapacity | .nothingEmbedded | .noSuchBlock => .capacity
  | .lengthNotMultiple | .chunkLengthTooLarge => .format
  | .bufferTooSmall => .buffer
  | .ebufTooSmall | .overflow => .resource

/-- The detail code of a cause (60_exceptions.md R282). -/
def Cause.detail : Cause → BitVec 8
  | .unmappedRegister => 0x11
  | .illegalBlockLength => 0x12
  | .illegalValue => 0x13
  | .zeroTableEntry => 0x14
  | .readOnlyRegister => 0x15
  | .illegalOpcode => 0x16
  | .tableNotLoaded => 0x17
  | .messageTooShort => 0x18
  | .positionOutOfRange => 0x19
  | .addressOutOfRange => 0x1A
  | .tooFewFrequencies => 0x21
  | .nonPositiveCapacity => 0x22
  | .nothingEmbedded => 0x23
  | .noSuchBlock => 0x24
  | .lengthNotMultiple => 0x31
  | .chunkLengthTooLarge => 0x32
  | .bufferTooSmall => 0x41
  | .ebufTooSmall => 0x51
  | .overflow => 0x52

/-- `ERR` for an error of class `c` (10_state.md R25). -/
def ErrClass.err (c : ErrClass) : BitVec 8 := BitVec.ofNat 8 c.code

/-- `RESULT` for an error of class `c`: `-class` as a 32-bit two's-complement number
(60_exceptions.md R283). -/
def ErrClass.result (c : ErrClass) : Word := BitVec.ofInt 32 (-(c.code : Int))

/-- `ESTICKY | (1 << class)` (60_exceptions.md R284). -/
def stickyAfter (esticky : BitVec 8) (c : ErrClass) : BitVec 8 := esticky ||| (1#8 <<< c.code)

/-- The codes of `PHASE` (10_state.md R28). -/
def Phase.code : Phase → Nat
  | .idle => 0
  | .selectFrequencies => 1
  | .eccEncode => 2
  | .scanWriteLength => 3
  | .scanWritePayload => 4
  | .determineTargetLength => 5
  | .scanReadPayload => 6
  | .eccDecode => 7
  | .done => 8

/-- The codes of `ECC_METHOD` (10_state.md R32). -/
def eccMethodCode : EccMethod → Nat
  | .none => 0
  | .reedSolomon => 1

/-- `ECC_METHOD` for a legal code (10_state.md R32). -/
def eccMethodOfCode (v : Nat) : EccMethod := if v = 0 then .none else .reedSolomon

/-- The codes of `FRAMING` (10_state.md R34). -/
def framingCode : Framing → Nat
  | .lengthCarrying => 0
  | .lengthOmitting => 1

/-- `FRAMING` for a legal code (10_state.md R34). -/
def framingOfCode (v : Nat) : Framing := if v = 0 then .lengthCarrying else .lengthOmitting

end Sys2Proof.Machine
end

