-- ==== Sys2Proof/Machine/Operands.lean ====
section
/-! DEFINITION. The operand forms of the commands (30_encoding.md R103), the quantities they are computed
with, and the 2-bit groups of a byte (30_encoding.md R104, R105). -/

namespace Sys2Proof.Machine

/-- `B = REG.ECC_BLOCK_LENGTH` (42_ecc_framer.md R160). -/
def blockLen (s : State) : Nat := s.eccBlockLength.toNat

/-- `M = B - NPAR` (00_scope.md R9, 42_ecc_framer.md R160). -/
def msgCap (s : State) : Nat := blockLen s - s.params.npar

/-- `ARG0[7:0]`, the byte operand of `PACK` (41_bit_packer.md R142). -/
def byteOperand (s : State) : Byte := s.arg0.extractLsb' 0 8

/-- `WB * HB`, exactly (10_state.md R50). -/
def blockProduct (s : State) : Nat := s.wb.toNat * s.hb.toNat

/-- Is a selection resolved, `NFREQS ≠ 0` (10_state.md R40, R59)? -/
def selectionResolved (s : State) : Bool := s.nfreqs != 0

/-- The four slots `FREQS[0..3]` (41_bit_packer.md R140). -/
def slots (s : State) : Vector Slot 4 := #v[s.freqs[0], s.freqs[1], s.freqs[2], s.freqs[3]]

/-- Group `g_i = v[2i+1 : 2i]` of a byte, as the number stored in a coefficient
(30_encoding.md R104, R105). -/
def group (v : Byte) (i : Nat) : Int := (v.extractLsb' (2 * i) 2).toNat

/-- `lo2(c) = c mod 4` with the floor modulus (00_scope.md R10). -/
def lo2 (c : Int) : Nat := (c % 4).toNat

/-- `pack_byte` on one block: the four groups into the four slots, lane 0 first
(41_bit_packer.md R142, R146). -/
def packBlock (sl : Vector Slot 4) (v : Byte) (blk : CoefBlock) : CoefBlock :=
  (((blk.set sl[0] (group v 0)).set sl[1] (group v 1)).set sl[2] (group v 2)).set sl[3] (group v 3)

/-- `unpack_byte` on one block: `g0 | (g1 << 2) | (g2 << 4) | (g3 << 6)` (41_bit_packer.md R144). -/
def unpackBlock (sl : Vector Slot 4) (blk : CoefBlock) : Byte :=
  BitVec.ofNat 8 (lo2 (blk.get sl[0]) ||| (lo2 (blk.get sl[1]) <<< 2) |||
    (lo2 (blk.get sl[2]) <<< 4) ||| (lo2 (blk.get sl[3]) <<< 6))

/-- Byte `i` of a length, `T[8i+7 : 8i]` (20_memory.md R80, 30_encoding.md R106). -/
def lengthByte (t i : Nat) : Byte := BitVec.ofNat 8 (t >>> (8 * i))

/-- The four bytes of a length, least significant first (20_memory.md R80). -/
def lengthBytes (t : Nat) : List Byte := [lengthByte t 0, lengthByte t 1, lengthByte t 2, lengthByte t 3]

/-- The length of its bytes: byte `i` shifted left by `8 * i`, ORed together (20_memory.md R80). -/
def lengthOfBytes : (i : Nat) → List Byte → Nat
  | _, [] => 0
  | i, v :: rest => (v.toNat <<< (8 * i)) ||| lengthOfBytes (i + 1) rest

/-- The bytes `[start, start + n)` of a byte sequence, `x[a..b)` of 00_scope.md R11. -/
def slice (bytes : List Byte) (start n : Nat) : List Byte := (bytes.drop start).take n

end Sys2Proof.Machine
end

