-- ==== Sys2Proof/Machine/Ops.lean ====
section
/-! DEFINITION. The named operations over the stores, the coefficient accessor and the registers that the
commands share; how a command ends (`done`, `raise`) and how a host access is refused (`reject`). -/

namespace Sys2Proof.Machine

/-! ### The byte stores (20_memory.md R74, R75) -/

/-- The byte written at an address, none where no byte was written. -/
def Memory.read : Memory → Nat → Option Byte
  | [], _ => none
  | (x, v) :: rest, a => if a = x then some v else Memory.read rest a

/-- Write one byte; the addresses stay strictly rising. -/
def Memory.write : Memory → Nat → Byte → Memory
  | [], a, v => [(a, v)]
  | (x, w) :: rest, a, v =>
    if a < x then (a, v) :: (x, w) :: rest
    else if a = x then (a, v) :: rest
    else (x, w) :: Memory.write rest a v

/-- Write consecutive bytes from an address up, `MemWrite` of 00_scope.md R11. -/
def Memory.writeBytes : Memory → Nat → List Byte → Memory
  | m, _, [] => m
  | m, a, v :: rest => Memory.writeBytes (Memory.write m a v) (a + 1) rest

/-- The canonical form: the addresses rise strictly. -/
def Memory.wf : Memory → Bool
  | [] => true
  | [_] => true
  | (a, _) :: (b, w) :: rest => decide (a < b) && Memory.wf ((b, w) :: rest)

/-- `PBUF[a]`: the byte written there, else the unspecified content it has had since reset
(10_state.md R51, 93_implementation_defined.md U6). -/
def pbufByte (s : State) (a : Nat) : Byte := (Memory.read s.pbuf a).getD (Config.pbufUnwritten s.resets a)

/-- `EBUF[a]` (10_state.md R52). -/
def ebufByte (s : State) (a : Nat) : Byte := (Memory.read s.ebuf a).getD (Config.ebufUnwritten s.resets a)

/-- `PBUF[0..n)` (00_scope.md R11). -/
def pbufBytes (s : State) (n : Nat) : List Byte := (List.range n).map (pbufByte s)

/-- `EBUF[0..n)` (00_scope.md R11). -/
def ebufBytes (s : State) (n : Nat) : List Byte := (List.range n).map (ebufByte s)

/-- `EBUF[0..len(D)) <- D; REG.ELEN <- len(D)` (42_ecc_framer.md R170). -/
def storeEbuf (bytes : List Byte) (s : State) : State :=
  { s with ebuf := Memory.writeBytes s.ebuf 0 bytes, elen := BitVec.ofNat 32 bytes.length }

/-- `PBUF[0..len(D)) <- D; REG.LEN <- len(D)` (42_ecc_framer.md R176). -/
def storePbuf (bytes : List Byte) (s : State) : State :=
  { s with pbuf := Memory.writeBytes s.pbuf 0 bytes, len := BitVec.ofNat 32 bytes.length }

/-! ### The coefficient accessor (20_memory.md R76 to R78) -/

/-- The block the accessor returns for block number `n`. -/
def coefBlock (n : Nat) (s : State) : Except Fault CoefBlock :=
  match s.coef[n]? with
  | some blk => .ok blk
  | none => .error (.noSuchCoefBlock n)

/-- `CoefRead(n, p)` (20_memory.md R77). -/
def coefRead (n : Nat) (p : Slot) (s : State) : Except Fault Int :=
  match coefBlock n s with
  | .ok blk => .ok (blk.get p)
  | .error f => .error f

/-- Replace block `n` of the store. -/
def storeBlock (n : Nat) (blk : CoefBlock) (s : State) : State := { s with coef := s.coef.set n blk }

/-- `pack_byte(v, n)`: four `CoefWrite`s to the slots of block `n` (41_bit_packer.md R142). -/
def packByte (v : Byte) (n : Nat) (s : State) : Except Fault State :=
  match coefBlock n s with
  | .ok blk => .ok (storeBlock n (packBlock (slots s) v blk) s)
  | .error f => .error f

/-- `unpack_byte(n)`: four `CoefRead`s of the slots of block `n` (41_bit_packer.md R144). -/
def unpackByte (n : Nat) (s : State) : Except Fault Byte :=
  match coefBlock n s with
  | .ok blk => .ok (unpackBlock (slots s) blk)
  | .error f => .error f

/-- `pack_byte` of each byte into the blocks from `n` up. -/
def packBytes : List Byte → (n : Nat) → State → Except Fault State
  | [], _, s => .ok s
  | v :: rest, n, s =>
    match packByte v n s with
    | .ok t => packBytes rest (n + 1) t
    | .error f => .error f

/-- `unpack_byte` of `count` blocks from `n` up. -/
def unpackBytes : (count n : Nat) → State → Except Fault (List Byte)
  | 0, _, _ => .ok []
  | count + 1, n, s =>
    match unpackByte n s with
    | .error f => .error f
    | .ok v =>
      match unpackBytes count (n + 1) s with
      | .ok rest => .ok (v :: rest)
      | .error f => .error f

/-! ### How a command ends, and how an access is refused (60_exceptions.md R284, R285, R262) -/

/-- `PHASE <- p` (00_scope.md R12). -/
def setPhase (p : Phase) (s : State) : State := { s with phase := p }

/-- The commands whose errors set `PHASE` to `Done` (60_exceptions.md R284). -/
def isScan (running : Option Instr) : Bool := running == some .embed || running == some .extract

/-- `raise E_X(d)` by the running command, none for a value that is no opcode (60_exceptions.md R284). It is
the whole of exception entry (R289). -/
def raise (running : Option Instr) (c : Cause) (s : State) : State :=
  { s with
    result := c.errClass.result
    err := c.errClass.err
    errinfo := c.detail
    esticky := stickyAfter s.esticky c.errClass
    phase := if isScan running then .done else s.phase }

/-- `done(v)` (60_exceptions.md R285). There is no return operation beside it (R290). -/
def finish (v : Nat) (s : State) : State :=
  { s with result := BitVec.ofNat 32 v, err := 0, errinfo := 0 }

/-- `reject(d)` (45_config_access.md R262). -/
def reject (c : Cause) (s : State) : State :=
  { s with
    err := 1
    errinfo := c.detail
    esticky := s.esticky ||| 0x02
    reply := .rejected }

/-- Go on unless a check gave a cause; then `raise` it. -/
def guarded (i : Instr) (check : Option Cause) (s : State) (go : Host.Outcome State Fault Refusal) :
    Host.Outcome State Fault Refusal :=
  match check with
  | some c => .next (raise (some i) c s)
  | none => go

/-- The outcome of a computation that can only stop at a missing coefficient block. -/
def settle (r : Except Fault State) : Host.Outcome State Fault Refusal :=
  match r with
  | .ok s => .next s
  | .error f => .fault f

/-- `if v > LEN_MAX: raise E_RESOURCE(0x52)`, else `done(v)` (60_exceptions.md R293). -/
def finishBounded (i : Instr) (v : Nat) (s : State) : Host.Outcome State Fault Refusal :=
  guarded i (if v > lenMax then some .overflow else none) s (.next (finish v s))

/-! ### Checks that several commands share -/

/-- The check of `nblk()`: `WB * HB` above `LEN_MAX` (43_capacity.md R200). -/
def nblkCheck (s : State) : Option Cause :=
  if blockProduct s > lenMax then some .overflow else none

/-- `pack_ready(n)` (41_bit_packer.md R141). -/
def packReady (n : Nat) (s : State) : Option Cause :=
  if s.nfreqs.toNat < 4 then some .tooFewFrequencies
  else if blockProduct s > lenMax then some .overflow
  else if n ≥ blockProduct s then some .noSuchBlock
  else none

/-- `frame_ready(variant)` (42_ecc_framer.md R164). -/
def frameReady (variant : Framing) (s : State) : Option Cause :=
  match variant with
  | .lengthCarrying => if msgCap s < 2 then some .messageTooShort else none
  | .lengthOmitting => none

/-- `fits_ebuf(n)` (42_ecc_framer.md R165). -/
def fitsEbuf (n : Nat) (s : State) : Option Cause :=
  if n > lenMax then some .overflow
  else if n > s.params.ebufSize.val then some .ebufTooSmall
  else none

/-- `deliver(D)`: the bytes to the caller's buffer (42_ecc_framer.md R176). -/
def deliver (i : Instr) (d : List Byte) (s : State) : State :=
  let n := min d.length s.maxlen.toNat
  let t := storePbuf (d.take n) s
  if d.length > s.maxlen.toNat then raise (some i) .bufferTooSmall t else finish d.length t

end Sys2Proof.Machine
end

