-- ==== Sys2Proof/Machine/Port.lean ====
section
/-! DEFINITION. The Reed-Solomon port and the other open functions, from the opaque constants of
`Config` (42_ecc_framer.md R161 to R163, 44_embed_extract.md R228). -/

namespace Sys2Proof.Machine

/-- `RS_ENC(B, NPAR, m)`: `B` bytes for a message region of `B - NPAR` bytes (42_ecc_framer.md R161). -/
def rsEnc (b npar : Nat) (m : List Byte) : List Byte :=
  List.ofFn ((Config.rsPort b npar).encode fun i => m.getD i 0)

/-- `RS_DEC(B, NPAR, c)`: `B - NPAR` bytes for any `B` bytes (42_ecc_framer.md R162). -/
def rsDec (b npar : Nat) (c : List Byte) : List Byte :=
  List.ofFn ((Config.rsPort b npar).decode fun i => c.getD i 0)

/-- `eccTruncCount(L, K, B, M)`, a value in `0..max(L - 1, 0)` (44_embed_extract.md R228). -/
def eccTruncCount (l k b m : Nat) : Nat := Config.eccTruncRaw l k b m % max l 1

end Sys2Proof.Machine
end

