-- ==== Sys2Proof/Machine/Framer.lean ====
section
/-! DEFINITION. EccFramer: `FENC`, `FDEC`, `FENCNL`, `FDECNL` and the capacity arithmetic `ECCLEN`,
`ECCCEIL`, `CAPECC` (42_ecc_framer.md). -/

namespace Sys2Proof.Machine

/-! ### Capacity arithmetic (42_ecc_framer.md R185 to R187) -/

/-- `ecc_length_for_message(msglen)` (42_ecc_framer.md R185). -/
def eccLengthForMessage (b m msglen : Nat) : Nat := (msglen / (m - 1) + 1) * b

/-- `ecc_block_ceiling(nbytes)` (42_ecc_framer.md R186). -/
def eccBlockCeiling (b nbytes : Nat) : Nat := ceilDiv nbytes b * b

/-- `capacity_after_ecc(raw)` (42_ecc_framer.md R187). -/
def capacityAfterEcc (b m raw : Nat) : Nat := raw / b * (m - 1)

/-- The length of the length-omitting encoding, `ceil(L / M) * B` (42_ecc_framer.md R178). -/
def nlEncodedLength (b m l : Nat) : Nat := ceilDiv l m * b

/-! ### The four framing functions, over any Reed-Solomon port (42_ecc_framer.md R183) -/

/-- `lc_encode(P)` (42_ecc_framer.md R170). -/
def lcEncode (enc : List Byte → List Byte) (m : Nat) (p : List Byte) : List Byte :=
  let c := m - 1
  let nb := p.length / c + 1
  (List.range nb).flatMap fun i =>
    let n := if i < nb - 1 then c else p.length - (nb - 1) * c
    enc (BitVec.ofNat 8 n :: (slice p (i * c) n ++ zeros (c - n)))

/-- `nl_encode(P)` (42_ecc_framer.md R178). -/
def nlEncode (enc : List Byte → List Byte) (m : Nat) (p : List Byte) : List Byte :=
  (List.range (ceilDiv p.length m)).flatMap fun i =>
    let chunk := slice p (i * m) m
    enc (chunk ++ zeros (m - chunk.length))

/-- The ECC blocks `E[j*B .. (j+1)*B)` of an encoded buffer, in order (30_encoding.md R109). -/
def eccBlocks (b : Nat) (e : List Byte) : List (List Byte) :=
  (List.range (e.length / b)).map fun j => slice e (j * b) b

/-- `lc_decode` over the blocks of its input; none is the format error 0x32
(42_ecc_framer.md R172, R174, R175). -/
def lcDecode (dec : List Byte → List Byte) (m : Nat) : List (List Byte) → Option (List Byte)
  | [] => some []
  | block :: rest =>
    let region := dec block
    let c := (region.headD 0).toNat
    let data := slice region 1 c
    if c > m - 1 then none
    else if c < m - 1 then some data
    else (lcDecode dec m rest).map (data ++ ·)

/-- `nl_decode` over the blocks of its input, to the target `t`, with the bytes gathered so far
(42_ecc_framer.md R180). -/
def nlDecode (dec : List Byte → List Byte) (t : Nat) : List (List Byte) → List Byte → List Byte
  | [], out => out
  | block :: rest, out => if out.length < t then nlDecode dec t rest (out ++ dec block) else out

/-! ### The framing functions of the block -/

/-- `RS_ENC` with the block length and parity of the state (42_ecc_framer.md R160, R161). -/
def encoder (s : State) : List Byte → List Byte := rsEnc (blockLen s) s.params.npar

/-- `RS_DEC` with the block length and parity of the state (42_ecc_framer.md R160, R162). -/
def decoder (s : State) : List Byte → List Byte := rsDec (blockLen s) s.params.npar

/-- The encoded form of `PBUF[0..LEN)` in a framing variant. -/
def encodedPayload (variant : Framing) (s : State) : List Byte :=
  match variant with
  | .lengthCarrying => lcEncode (encoder s) (msgCap s) (pbufBytes s s.len.toNat)
  | .lengthOmitting => nlEncode (encoder s) (msgCap s) (pbufBytes s s.len.toNat)

/-- The length of that encoded form, as its check computes it (42_ecc_framer.md R170, R178). -/
def encodedLength (variant : Framing) (s : State) : Nat :=
  match variant with
  | .lengthCarrying => eccLengthForMessage (blockLen s) (msgCap s) s.len.toNat
  | .lengthOmitting => nlEncodedLength (blockLen s) (msgCap s) s.len.toNat

/-- The checks before an encode: `frame_ready`, then `fits_ebuf` (42_ecc_framer.md R170, R178). -/
def encodeCheck (variant : Framing) (s : State) : Option Cause :=
  match frameReady variant s with
  | some c => some c
  | none => fitsEbuf (encodedLength variant s) s

/-- `LEN <- 0; raise`, the format errors of a decode (42_ecc_framer.md R173). -/
def formatError (i : Instr) (c : Cause) (s : State) : State := raise (some i) c { s with len := 0 }

/-- `FENC` (42_ecc_framer.md R170). -/
def execFenc (s : State) : Host.Outcome State Fault Refusal :=
  guarded .fenc (encodeCheck .lengthCarrying s) s
    (let e := encodedPayload .lengthCarrying s
     .next (finish e.length (storeEbuf e s)))

/-- `FENCNL` (42_ecc_framer.md R178). -/
def execFencnl (s : State) : Host.Outcome State Fault Refusal :=
  guarded .fencnl (encodeCheck .lengthOmitting s) s
    (let e := encodedPayload .lengthOmitting s
     .next (finish e.length (storeEbuf e s)))

/-- `FDEC` (42_ecc_framer.md R173). -/
def execFdec (s : State) : Host.Outcome State Fault Refusal :=
  guarded .fdec (frameReady .lengthCarrying s) s
    (.next
      (if s.elen.toNat % blockLen s ≠ 0 then formatError .fdec .lengthNotMultiple s
       else
        match lcDecode (decoder s) (msgCap s) (eccBlocks (blockLen s) (ebufBytes s s.elen.toNat)) with
        | none => formatError .fdec .chunkLengthTooLarge s
        | some d => deliver .fdec d s))

/-- `FDECNL` (42_ecc_framer.md R181). -/
def execFdecnl (s : State) : Host.Outcome State Fault Refusal :=
  guarded .fdecnl (frameReady .lengthOmitting s) s
    (.next
      (if s.elen.toNat % blockLen s ≠ 0 then formatError .fdecnl .lengthNotMultiple s
       else
        deliver .fdecnl
          (nlDecode (decoder s) s.arg0.toNat (eccBlocks (blockLen s) (ebufBytes s s.elen.toNat)) []) s))

/-- `ECCLEN` (42_ecc_framer.md R185). -/
def execEcclen (s : State) : Host.Outcome State Fault Refusal :=
  guarded .ecclen (frameReady .lengthCarrying s) s
    (finishBounded .ecclen (eccLengthForMessage (blockLen s) (msgCap s) s.arg0.toNat) s)

/-- `ECCCEIL` (42_ecc_framer.md R186). -/
def execEccceil (s : State) : Host.Outcome State Fault Refusal :=
  finishBounded .eccceil (eccBlockCeiling (blockLen s) s.arg0.toNat) s

/-- `CAPECC` (42_ecc_framer.md R187). -/
def execCapecc (s : State) : Host.Outcome State Fault Refusal :=
  finishBounded .capecc (capacityAfterEcc (blockLen s) (msgCap s) s.arg0.toNat) s

end Sys2Proof.Machine
end

