-- ==== Sys2Proof/Machine/Capacity.lean ====
section
/-! DEFINITION. CapacityModel: `RAWCAP` and `CAP` (43_capacity.md). -/

namespace Sys2Proof.Machine

/-- `capacity()` over signed integers, once `nblk()` did not raise: ECC overhead first, then the 4 bytes of
the length prefix (43_capacity.md R203). -/
def capacity (s : State) : Int :=
  let raw := blockProduct s
  let c := match s.eccMethod with
    | .reedSolomon => capacityAfterEcc (blockLen s) (msgCap s) raw
    | .none => raw
  if s.embedLength then (c : Int) - 4 else c

/-- `RAWCAP` (43_capacity.md R200). -/
def execRawcap (s : State) : Host.Outcome State Fault Refusal :=
  guarded .rawcap (nblkCheck s) s (.next (finish (blockProduct s) s))

/-- `CAP` (43_capacity.md R202). -/
def execCap (s : State) : Host.Outcome State Fault Refusal :=
  guarded .cap (nblkCheck s) s
    (guarded .cap (if capacity s ≤ 0 then some .nonPositiveCapacity else none) s
      (.next (finish (capacity s).toNat s)))

end Sys2Proof.Machine
end

