-- ==== Sys2Proof/Machine/Selector.lean ====
section
/-! DEFINITION. FrequencySelector: `QUAL`, `SELFREQ` and lazy selection (40_frequency_selector.md). -/

namespace Sys2Proof.Machine

/-- `admissible`: `floor(255 / q) ≥ minLevels` for the table entry `q` of a position
(40_frequency_selector.md R120). -/
def admissible (q minLevels : Nat) : Bool := decide (255 / q ≥ minLevels)

/-- `qt_loaded`: every entry has been written since reset (40_frequency_selector.md R130). -/
def qtLoaded (s : State) : Bool := s.qt.toList.all Option.isSome

/-- The entry `QT[p]` of a loaded table. Every reader tests `qtLoaded` first, so the 0 is never used. -/
def qtEntry (s : State) (p : Slot) : Nat := (s.qt.get p).getD 0

/-- The check that begins every operation of the unit (40_frequency_selector.md R130). -/
def qtCheck (s : State) : Option Cause := if qtLoaded s then none else some .tableNotLoaded

/-- The positions 63, 62, …, 0. -/
def positionsDown : List Slot := (List.finRange 64).reverse

/-- The loop of `select` (40_frequency_selector.md R122) over the positions still to scan. -/
def selectLoop (qt : Slot → Nat) (maxCount minLevels : Nat) : List Slot → List Slot → List Slot
  | [], out => out
  | p :: rest, out =>
    if out.length = maxCount then out
    else if admissible (qt p) minLevels then selectLoop qt maxCount minLevels rest (out ++ [p])
    else selectLoop qt maxCount minLevels rest out

/-- `select(QT, maxCount, minLevels)` (40_frequency_selector.md R122). -/
def select (qt : Slot → Nat) (maxCount minLevels : Nat) : List Slot :=
  selectLoop qt maxCount minLevels positionsDown []

/-- The selection from the present table with `POOL` and `NLEVELS`. -/
def selected (s : State) : List Slot := select (qtEntry s) s.pool.toNat s.nlevels.toNat

/-- `FREQS[i] <- out[i]` for each `i`, and `NFREQS <- len(out)`; the entries above keep their contents
(40_frequency_selector.md R123). -/
def storeSelection (out : List Slot) (s : State) : State :=
  { s with
    freqs := Vector.ofFn fun i => (out[i.val]?).getD (s.freqs.get i)
    nfreqs := BitVec.ofNat 7 out.length }

/-- `ensure_selection`: the state after it, and the cause it raises, if any
(40_frequency_selector.md R124, R125). -/
def ensureSelection (s : State) : State × Option Cause :=
  if selectionResolved s = false ∧ qtLoaded s = false then (s, some .tableNotLoaded)
  else
    let t := if selectionResolved s then s else storeSelection (selected s) s
    (t, if t.nfreqs.toNat < 4 then some .tooFewFrequencies else none)

/-- `QUAL` (40_frequency_selector.md R121). -/
def execQual (s : State) : Host.Outcome State Fault Refusal :=
  if h : s.arg0.toNat < 64 then
    guarded .qual (qtCheck s) s
      (.next (finish (if admissible (qtEntry s ⟨s.arg0.toNat, h⟩) s.nlevels.toNat then 1 else 0) s))
  else .next (raise (some .qual) .positionOutOfRange s)

/-- `SELFREQ` (40_frequency_selector.md R123). -/
def execSelfreq (s : State) : Host.Outcome State Fault Refusal :=
  guarded .selfreq (qtCheck s) s
    (.next (finish (selected s).length (storeSelection (selected s) s)))

end Sys2Proof.Machine
end

