-- ==== Sys2Proof/Machine/Engines.lean ====
section
/-! DEFINITION. EmbedEngine and ExtractEngine: `EMBED` and `EXTRACT` (44_embed_extract.md R224 to R248). -/

namespace Sys2Proof.Machine

/-! ### The scan -/

/-- The start of both scans: `BLK <- 0`, `K <- 0`, `PHASE <- SelectFrequencies`. -/
def scanStart (s : State) : State := { s with blk := 0, k := 0, phase := .selectFrequencies }

/-- `REG.BLK <- REG.BLK + 1`, after a byte of the prefix. -/
def nextBlock (s : State) : State := { s with blk := s.blk + 1 }

/-- `REG.BLK <- REG.BLK + 1; REG.K <- REG.K + 1`, after a byte of the payload. -/
def nextByte (s : State) : State := { s with blk := s.blk + 1, k := s.k + 1 }

/-- The check that ends `SelectFrequencies`: `ensure_selection()`, then `nblk()`. -/
def selectCheck (s : State) : Option Cause :=
  match (ensureSelection s).2 with
  | some c => some c
  | none => nblkCheck (ensureSelection s).1

/-! ### EMBED (44_embed_extract.md R225) -/

/-- The loop of `write_prefix`, for the prefix bytes still to write: it returns when the image has no block
left (44_embed_extract.md R221). -/
def writePrefix (n : Nat) : List Byte → State → Except Fault State
  | [], s => .ok s
  | v :: rest, s =>
    if s.blk.toNat = n then .ok s
    else
      match packByte v s.blk.toNat s with
      | .ok t => writePrefix n rest (nextBlock t)
      | .error f => .error f

/-- The loop of `write_payload`, for the raw bytes still to write (44_embed_extract.md R224). -/
def writePayload (n : Nat) : List Byte → State → Except Fault State
  | [], s => .ok s
  | v :: rest, s =>
    if s.blk.toNat < n then
      match packByte v s.blk.toNat s with
      | .ok t => writePayload n rest (nextByte t)
      | .error f => .error f
    else .ok s

/-- The last lines of `EMBED`: what is reported for `t` raw bytes (44_embed_extract.md R225, R228, R232). -/
def embedResult (t : Nat) (s : State) : State :=
  if 0 < t ∧ s.k.toNat = 0 then raise (some .embed) .nothingEmbedded s
  else
    match s.eccMethod with
    | .none => finish s.k.toNat s
    | .reedSolomon =>
      if s.k.toNat = t then finish s.len.toNat s
      else finish (eccTruncCount s.len.toNat s.k.toNat (blockLen s) (msgCap s)) s

/-- `EMBED` from `ScanWriteLength` on, for the raw bytes `d` and `n` blocks. -/
def embedScan (n : Nat) (d : List Byte) (s : State) : Except Fault State :=
  let s1 := setPhase .scanWriteLength s
  match (if s.embedLength then writePrefix n (lengthBytes d.length) s1 else .ok s1) with
  | .error f => .error f
  | .ok s2 =>
    match writePayload n d (setPhase .scanWritePayload s2) with
    | .error f => .error f
    | .ok s3 => .ok (embedResult d.length (setPhase .done s3))

/-- `EMBED` after its selection: `EccEncode` where ECC is on, then the scan. -/
def embedRaw (s : State) : Host.Outcome State Fault Refusal :=
  match s.eccMethod with
  | .none => settle (embedScan (blockProduct s) (pbufBytes s s.len.toNat) s)
  | .reedSolomon =>
    let s1 := setPhase .eccEncode s
    guarded .embed (encodeCheck s.framing s1) s1
      (let d := encodedPayload s.framing s1
       settle (embedScan (blockProduct s) d (storeEbuf d s1)))

/-- `EMBED` (44_embed_extract.md R225). -/
def execEmbed (s : State) : Host.Outcome State Fault Refusal :=
  let s0 := scanStart s
  let s1 := (ensureSelection s0).1
  guarded .embed (selectCheck s0) s1 (embedRaw s1)

/-! ### EXTRACT (44_embed_extract.md R239) -/

/-- The loop of `read_prefix`: the next `count` bytes, one per block (44_embed_extract.md R222). -/
def readPrefix : (count : Nat) → State → Except Fault (List Byte × State)
  | 0, s => .ok ([], s)
  | count + 1, s =>
    match unpackByte s.blk.toNat s with
    | .error f => .error f
    | .ok v =>
      match readPrefix count (nextBlock s) with
      | .ok (rest, t) => .ok (v :: rest, t)
      | .error f => .error f

/-- The loop of `read_payload`: the next `count` bytes, one per block (44_embed_extract.md R224). -/
def readPayload : (count : Nat) → State → Except Fault (List Byte × State)
  | 0, s => .ok ([], s)
  | count + 1, s =>
    match unpackByte s.blk.toNat s with
    | .error f => .error f
    | .ok v =>
      match readPayload count (nextByte s) with
      | .ok (rest, t) => .ok (v :: rest, t)
      | .error f => .error f

/-- Is `frame_ready(LengthCarrying)` run: `ecc and (lc or EMBED_LENGTH = 0)` (44_embed_extract.md R239)? -/
def extractNeedsLengthByte (s : State) : Bool :=
  s.eccMethod == .reedSolomon && (s.framing == .lengthCarrying || !s.embedLength)

/-- The checks of `EXTRACT` in `SelectFrequencies` after `nblk()`. -/
def extractFrameCheck (s : State) : Option Cause :=
  if extractNeedsLengthByte s then frameReady .lengthCarrying s else none

/-- The raw target the caller's `ARG0` gives when the length is not embedded (44_embed_extract.md R242). -/
def callerTarget (s : State) : Nat :=
  match s.eccMethod with
  | .none => s.arg0.toNat
  | .reedSolomon =>
    eccBlockCeiling (blockLen s) (eccLengthForMessage (blockLen s) (msgCap s) s.arg0.toNat)

/-- The check on that target: only the ECC-aligned one is compared with `LEN_MAX`. -/
def callerTargetCheck (s : State) : Option Cause :=
  match s.eccMethod with
  | .none => none
  | .reedSolomon => if callerTarget s > lenMax then some .overflow else none

/-- The target of the length-omitting decode of `n2` raw bytes (44_embed_extract.md R248). -/
def decodeTarget (n2 : Nat) (s : State) : Nat :=
  if s.embedLength then n2 / blockLen s * msgCap s else s.arg0.toNat

/-- `EBUF[0..n) <- R; EBUF[n..n2) <- zeros(n2 - n); REG.ELEN <- n2` (44_embed_extract.md R247). -/
def storeRaw (r : List Byte) (s : State) : State :=
  storeEbuf (r ++ zeros (eccBlockCeiling (blockLen s) r.length - r.length)) s

/-- `EXTRACT` in `EccDecode`: the decode of the `n2` raw bytes in `EBUF`, and its delivery. -/
def extractDecode (n2 : Nat) (s : State) : State :=
  let blocks := eccBlocks (blockLen s) (ebufBytes s n2)
  match s.framing with
  | .lengthCarrying =>
    match lcDecode (decoder s) (msgCap s) blocks with
    | none => formatError .extract .chunkLengthTooLarge s
    | some d => deliver .extract d (setPhase .done s)
  | .lengthOmitting =>
    deliver .extract (nlDecode (decoder s) (decodeTarget n2 s) blocks []) (setPhase .done s)

/-- `EXTRACT` once the `n` raw bytes `r` are read. -/
def extractEnd (r : List Byte) (s : State) : State :=
  match s.eccMethod with
  | .none => deliver .extract r (setPhase .done s)
  | .reedSolomon =>
    extractDecode (eccBlockCeiling (blockLen s) r.length) (storeRaw r (setPhase .eccDecode s))

/-- The bytes that can be read towards the target `t`: `min(T, N - BLK)` (44_embed_extract.md R243). -/
def readableBytes (t : Nat) (s : State) : Nat := min t (blockProduct s - s.blk.toNat)

/-- The check before `ScanReadPayload`: with ECC, the rounded-up raw bytes must fit `EBUF`. -/
def extractFitCheck (t : Nat) (s : State) : Option Cause :=
  match s.eccMethod with
  | .none => none
  | .reedSolomon => fitsEbuf (eccBlockCeiling (blockLen s) (readableBytes t s)) s

/-- `EXTRACT` once the target `t` is known. -/
def extractScan (t : Nat) (s : State) : Host.Outcome State Fault Refusal :=
  guarded .extract (extractFitCheck t s) s
    (settle
      (match readPayload (readableBytes t s) (setPhase .scanReadPayload s) with
       | .error f => .error f
       | .ok (r, s1) => .ok (extractEnd r s1)))

/-- `EXTRACT` in `DetermineTargetLength`. -/
def extractTarget (s : State) : Host.Outcome State Fault Refusal :=
  if s.embedLength then
    guarded .extract (if blockProduct s < 4 then some .noSuchBlock else none) s
      (match readPrefix 4 s with
       | .error f => .fault f
       | .ok (bytes, s1) => extractScan (min (lengthOfBytes 0 bytes) s.maxlen.toNat) s1)
  else guarded .extract (callerTargetCheck s) s (extractScan (callerTarget s) s)

/-- `EXTRACT` (44_embed_extract.md R239). -/
def execExtract (s : State) : Host.Outcome State Fault Refusal :=
  let s0 := scanStart s
  let s1 := (ensureSelection s0).1
  guarded .extract (selectCheck s0) s1
    (guarded .extract (extractFrameCheck s1) s1
      (extractTarget (setPhase .determineTargetLength s1)))

end Sys2Proof.Machine
end

