-- ==== Sys2Proof/Machine/Lengths.lean ====
section
/-! DEFINITION. The length prefix commands `LENWR` and `LENRD` (44_embed_extract.md R221, R222). -/

namespace Sys2Proof.Machine

/-- `LENWR` (44_embed_extract.md R221). -/
def execLenwr (s : State) : Host.Outcome State Fault Refusal :=
  guarded .lenwr (packReady 3 s) s
    (match packBytes (lengthBytes s.arg0.toNat) 0 s with
     | .ok t => .next (finish 4 t)
     | .error f => .fault f)

/-- `LENRD` (44_embed_extract.md R222). -/
def execLenrd (s : State) : Host.Outcome State Fault Refusal :=
  guarded .lenrd (packReady 3 s) s
    (match unpackBytes 4 0 s with
     | .ok bytes => finishBounded .lenrd (lengthOfBytes 0 bytes) s
     | .error f => .fault f)

end Sys2Proof.Machine
end

