-- ==== Sys2Proof/Machine/Packer.lean ====
section
/-! DEFINITION. BitPacker: `PACK` and `UNPACK` (41_bit_packer.md). -/

namespace Sys2Proof.Machine

/-- `PACK` (41_bit_packer.md R142). -/
def execPack (s : State) : Host.Outcome State Fault Refusal :=
  guarded .pack (packReady s.arg1.toNat s) s
    (match packByte (byteOperand s) s.arg1.toNat s with
     | .ok t => .next (finish 1 t)
     | .error f => .fault f)

/-- `UNPACK` (41_bit_packer.md R144). -/
def execUnpack (s : State) : Host.Outcome State Fault Refusal :=
  guarded .unpack (packReady s.arg1.toNat s) s
    (match unpackByte s.arg1.toNat s with
     | .ok v => .next (finish v.toNat s)
     | .error f => .fault f)

end Sys2Proof.Machine
end

