-- ==== Sys2Proof/Machine/Session.lean ====
section
/-! DEFINITION. `INIT` (45_config_access.md R263) and the outside reset (70_reset_and_hazards.md R320). -/

namespace Sys2Proof.Machine

/-- What `INIT` writes before its `done(0)` (45_config_access.md R263). -/
def initRegisters (s : State) : State :=
  { s with
    arg0 := 0, arg1 := 0
    esticky := 0
    phase := .idle, blk := 0, k := 0
    embedLength := s.params.embedLengthReset, eccMethod := s.params.eccMethodReset
    eccBlockLength := 20, framing := s.params.framingReset
    bitsPerFreq := 2, bytesPerMcu := 1, comp := 0
    pool := BitVec.ofNat 7 s.params.poolReset, nlevels := s.params.nlevelsReset
    nfreqs := 0
    len := 0, maxlen := 0, elen := 0
    wb := 0, hb := 0, vsamp := 1 }

/-- `INIT` (45_config_access.md R263). -/
def execInit (s : State) : Host.Outcome State Fault Refusal := .next (finish 0 (initRegisters s))

/-- The reset applied from outside: every register as 10_state.md R55 says, the coefficient store as it was
(70_reset_and_hazards.md R321), the unspecified contents of the stores anew, the host's coming
transactions as they were. -/
def applyReset (s : State) : State :=
  { State.powerOn s.params with
    coef := s.coef, pending := s.pending, resets := s.resets + 1, draws := s.draws }

end Sys2Proof.Machine
end

