-- ==== Sys2Proof/Machine/Dispatch.lean ====
section
/-! DEFINITION. The command of each row of the opcode map and its meaning (30_encoding.md R102). -/

namespace Sys2Proof.Machine

def exec (i : Instr) (s : State) : Host.Outcome State Fault Refusal :=
  match i with
  | .init => Sys2Proof.Machine.execInit s
  | .qual => Sys2Proof.Machine.execQual s
  | .selfreq => Sys2Proof.Machine.execSelfreq s
  | .pack => Sys2Proof.Machine.execPack s
  | .unpack => Sys2Proof.Machine.execUnpack s
  | .fenc => Sys2Proof.Machine.execFenc s
  | .fdec => Sys2Proof.Machine.execFdec s
  | .fencnl => Sys2Proof.Machine.execFencnl s
  | .fdecnl => Sys2Proof.Machine.execFdecnl s
  | .ecclen => Sys2Proof.Machine.execEcclen s
  | .eccceil => Sys2Proof.Machine.execEccceil s
  | .capecc => Sys2Proof.Machine.execCapecc s
  | .rawcap => Sys2Proof.Machine.execRawcap s
  | .cap => Sys2Proof.Machine.execCap s
  | .lenwr => Sys2Proof.Machine.execLenwr s
  | .lenrd => Sys2Proof.Machine.execLenrd s
  | .embed => Sys2Proof.Machine.execEmbed s
  | .extract => Sys2Proof.Machine.execExtract s

end Sys2Proof.Machine
end

