-- ==== Sys2Proof/WellFormed.lean ====
section
/-! DEFINITION. Which terms of the syntax are well formed (30_encoding.md R100, R113, R114). -/

namespace Sys2Proof

/-- A command word has no operand (30_encoding.md R100), so every command is well formed. -/
def Instr.wellFormed : Instr → Bool := fun _ => true

/-- The commands that `call` may name (30_encoding.md R114). -/
def Instr.callable : Instr → Bool
  | .qual | .ecclen | .eccceil | .capecc | .lenwr | .fdecnl => true
  | .init | .selfreq | .pack | .unpack | .fenc | .fdec | .fencnl | .rawcap | .cap | .lenrd
  | .embed | .extract => false

/-- Is the line one of the script syntax? A register is named by its name, never by a number in a space
(R113); `qt` gives 64 values, `freqs` at most 64, `call` names one of six commands (R114). -/
def ScriptLine.wellFormed : ScriptLine → Bool
  | .wrReg _ _ => true
  | .wr space _ _ => space != .reg
  | .rdReg _ => true
  | .rd space _ => space != .reg
  | .cmd _ => true
  | .qt vs => vs.length == 64
  | .freqs fs => fs.length ≤ 64
  | .payload _ => true
  | .ebuf _ => true
  | .geom _ _ _ => true
  | .pack _ _ => true
  | .unpack _ => true
  | .call i _ => i.callable

end Sys2Proof
end

