-- ==== Sys2Proof/Decode.lean ====
section
/-! DEFINITION. Reading a command from its byte and writing it back, from the opcode map of
30_encoding.md R102; and the register numbers of 10_state.md R54. -/

namespace Sys2Proof

/-- Why bytes are no command. -/
inductive DecodeError where
  /-- There is no byte to read. -/
  | noByte
  /-- One of the 238 values that the opcode map does not list (30_encoding.md R110). -/
  | illegalOpcode (byte : Byte)
  deriving DecidableEq, Repr

/-- The opcode map read from byte to command (30_encoding.md R102). -/
def decodeByte (byte : Byte) : Option Instr :=
  match byte.toNat with
  | 0x01 => some .init
  | 0x10 => some .qual
  | 0x11 => some .selfreq
  | 0x20 => some .pack
  | 0x21 => some .unpack
  | 0x30 => some .fenc
  | 0x31 => some .fdec
  | 0x32 => some .fencnl
  | 0x33 => some .fdecnl
  | 0x38 => some .ecclen
  | 0x39 => some .eccceil
  | 0x3A => some .capecc
  | 0x40 => some .rawcap
  | 0x41 => some .cap
  | 0x50 => some .lenwr
  | 0x51 => some .lenrd
  | 0x60 => some .embed
  | 0x61 => some .extract
  | _ => none

/-- The decoder: the command in the first byte, and the bytes after it. A command is one byte, selected by
the whole byte (30_encoding.md R100). -/
def decode (bytes : List Byte) : Except DecodeError (Instr × List Byte) :=
  match bytes with
  | [] => .error .noByte
  | byte :: rest =>
    match decodeByte byte with
    | some i => .ok (i, rest)
    | none => .error (.illegalOpcode byte)

/-- The opcode map read from command to byte: unit in the high nibble, operation in the low one
(30_encoding.md R102). -/
def opcode : Instr → Byte
  | .init => 0x01
  | .qual => 0x10
  | .selfreq => 0x11
  | .pack => 0x20
  | .unpack => 0x21
  | .fenc => 0x30
  | .fdec => 0x31
  | .fencnl => 0x32
  | .fdecnl => 0x33
  | .ecclen => 0x38
  | .eccceil => 0x39
  | .capecc => 0x3A
  | .rawcap => 0x40
  | .cap => 0x41
  | .lenwr => 0x50
  | .lenrd => 0x51
  | .embed => 0x60
  | .extract => 0x61

/-- The encoder: the bytes of a command (30_encoding.md R100). -/
def encode (i : Instr) : List Byte := [opcode i]

/-- `n` bytes of the number `w`, least significant byte first. -/
def wordBytes : (n w : Nat) → List Byte
  | 0, _ => []
  | n + 1, w => BitVec.ofNat 8 w :: wordBytes n (w / 256)

/-- The instruction the decoder reads from an instruction of `nbits` bits with the value `w`, none where
it refuses or where bytes are left over. -/
def decodeTableWord (nbits w : Nat) : Option Instr :=
  match decode (wordBytes (nbits / 8) w) with
  | .ok (i, []) => some i
  | .ok (_, _ :: _) => none
  | .error _ => none

/-- The register numbers of the register map (10_state.md R54). -/
def RegName.number : RegName → Nat
  | .cmd => 0x00 | .arg0 => 0x01 | .arg1 => 0x02 | .result => 0x03 | .err => 0x04 | .errinfo => 0x05
  | .esticky => 0x06 | .phase => 0x07 | .blk => 0x08 | .k => 0x09
  | .embedLength => 0x10 | .eccMethod => 0x11 | .eccBlockLength => 0x12 | .framing => 0x13
  | .bitsPerFreq => 0x14 | .bytesPerMcu => 0x15 | .pool => 0x16 | .nlevels => 0x17 | .seed => 0x18
  | .nfreqs => 0x19 | .quality => 0x1A | .ethresh => 0x1B | .comp => 0x1C
  | .len => 0x20 | .maxlen => 0x21 | .elen => 0x22
  | .wb => 0x30 | .hb => 0x31 | .vsamp => 0x32 | .npar => 0x3F

/-- The register of a number, none where the map has no row ("unmapped", 10_state.md R54). -/
def RegName.ofNumber (n : Nat) : Option RegName :=
  match n with
  | 0x00 => some .cmd | 0x01 => some .arg0 | 0x02 => some .arg1 | 0x03 => some .result
  | 0x04 => some .err | 0x05 => some .errinfo | 0x06 => some .esticky | 0x07 => some .phase
  | 0x08 => some .blk | 0x09 => some .k
  | 0x10 => some .embedLength | 0x11 => some .eccMethod | 0x12 => some .eccBlockLength
  | 0x13 => some .framing | 0x14 => some .bitsPerFreq | 0x15 => some .bytesPerMcu
  | 0x16 => some .pool | 0x17 => some .nlevels | 0x18 => some .seed | 0x19 => some .nfreqs
  | 0x1A => some .quality | 0x1B => some .ethresh | 0x1C => some .comp
  | 0x20 => some .len | 0x21 => some .maxlen | 0x22 => some .elen
  | 0x30 => some .wb | 0x31 => some .hb | 0x32 => some .vsamp | 0x3F => some .npar
  | _ => none

end Sys2Proof
end

