-- ==== Sys2Proof/Machine/Access.lean ====
section
/-! DEFINITION. The host's reads and writes (45_config_access.md R260 to R262): which addresses exist, which
registers are read-only, which values are legal, and what a read returns. -/

namespace Sys2Proof.Machine

/-! ### The checks, in their order (45_config_access.md R261) -/

/-- The address checks (45_config_access.md R260). -/
def addressCheck (space : Space) (addr : Nat) (s : State) : Option Cause :=
  match space with
  | .reg => if (RegName.ofNumber addr).isSome then none else some .unmappedRegister
  | .freq => if addr > 63 then some .addressOutOfRange else none
  | .qt => if addr > 63 then some .addressOutOfRange else none
  | .pbuf => if addr ≥ s.params.pbufSize.val then some .addressOutOfRange else none
  | .ebuf => if addr ≥ s.params.ebufSize.val then some .addressOutOfRange else none

/-- The read-only registers (10_state.md R54). -/
def regReadOnly : RegName → Bool
  | .result | .err | .errinfo | .esticky | .phase | .blk | .k | .npar => true
  | .cmd | .arg0 | .arg1 | .embedLength | .eccMethod | .eccBlockLength | .framing | .bitsPerFreq
  | .bytesPerMcu | .pool | .nlevels | .seed | .nfreqs | .quality | .ethresh | .comp | .len | .maxlen
  | .elen | .wb | .hb | .vsamp => false

/-- The legal values of a register (45_config_access.md R261); a read-only one has none. -/
def regLegal (r : RegName) (v : Nat) (p : Params) : Bool :=
  match r with
  | .cmd => v ≤ 255
  | .arg0 | .arg1 | .seed | .quality | .ethresh | .wb | .hb => v < 2 ^ 32
  | .embedLength | .eccMethod | .framing => v ≤ 1
  | .eccBlockLength => p.npar < v && v ≤ 255
  | .bitsPerFreq => v == 2
  | .bytesPerMcu => v == 1
  | .pool | .nfreqs => v ≤ 64
  | .nlevels => v ≤ 65535
  | .comp => v == 0
  | .len | .maxlen => v ≤ min lenMax p.pbufSize
  | .elen => v ≤ min lenMax p.ebufSize
  | .vsamp => 1 ≤ v && v < 2 ^ 32
  | .result | .err | .errinfo | .esticky | .phase | .blk | .k | .npar => false

/-- The checks of a write to a register: access right, then value; an illegal ECC block length has a code
of its own (45_config_access.md R261). -/
def regWriteCheck (r : RegName) (v : Nat) (s : State) : Option Cause :=
  if regReadOnly r then some .readOnlyRegister
  else if regLegal r v s.params then none
  else if r = .eccBlockLength then some .illegalBlockLength
  else some .illegalValue

/-- The value checks of a write to an element that is no register (45_config_access.md R261). -/
def elementCheck (space : Space) (v : Nat) (s : State) : Option Cause :=
  match space with
  | .reg => none
  | .freq => if v ≤ 63 then none else some .illegalValue
  | .qt =>
    if v = 0 then some .zeroTableEntry
    else if v < 2 ^ s.params.qw then none
    else some .illegalValue
  | .pbuf => if v ≤ 255 then none else some .illegalValue
  | .ebuf => if v ≤ 255 then none else some .illegalValue

/-- All checks of `HostWrite(space, addr, v)`: address, access right, value (60_exceptions.md R288). -/
def writeCheck (space : Space) (addr v : Nat) (s : State) : Option Cause :=
  match addressCheck space addr s with
  | some c => some c
  | none =>
    match space, RegName.ofNumber addr with
    | .reg, some r => regWriteCheck r v s
    | _, _ => elementCheck space v s

/-! ### The registers -/

/-- What a read of a register returns; `RESULT` as a signed number (45_config_access.md R260). -/
def regValue (r : RegName) (s : State) : Int :=
  match r with
  | .cmd => s.cmd.toNat
  | .arg0 => s.arg0.toNat
  | .arg1 => s.arg1.toNat
  | .result => s.result.toInt
  | .err => s.err.toNat
  | .errinfo => s.errinfo.toNat
  | .esticky => s.esticky.toNat
  | .phase => s.phase.code
  | .blk => s.blk.toNat
  | .k => s.k.toNat
  | .embedLength => s.embedLength.toNat
  | .eccMethod => eccMethodCode s.eccMethod
  | .eccBlockLength => s.eccBlockLength.toNat
  | .framing => framingCode s.framing
  | .bitsPerFreq => s.bitsPerFreq.toNat
  | .bytesPerMcu => s.bytesPerMcu.toNat
  | .pool => s.pool.toNat
  | .nlevels => s.nlevels.toNat
  | .seed => s.seed.toNat
  | .nfreqs => s.nfreqs.toNat
  | .quality => s.quality.toNat
  | .ethresh => s.ethresh.toNat
  | .comp => s.comp.toNat
  | .len => s.len.toNat
  | .maxlen => s.maxlen.toNat
  | .elen => s.elen.toNat
  | .wb => s.wb.toNat
  | .hb => s.hb.toNat
  | .vsamp => s.vsamp.toNat
  | .npar => s.params.npar.val

/-- `element <- v` for a register and a legal value; a read-only register is never written by the host
(10_state.md R54). -/
def setReg (r : RegName) (v : Nat) (s : State) : State :=
  match r with
  | .cmd => { s with cmd := BitVec.ofNat 8 v }
  | .arg0 => { s with arg0 := BitVec.ofNat 32 v }
  | .arg1 => { s with arg1 := BitVec.ofNat 32 v }
  | .embedLength => { s with embedLength := v == 1 }
  | .eccMethod => { s with eccMethod := eccMethodOfCode v }
  | .eccBlockLength => { s with eccBlockLength := BitVec.ofNat 8 v }
  | .framing => { s with framing := framingOfCode v }
  | .bitsPerFreq => { s with bitsPerFreq := BitVec.ofNat 8 v }
  | .bytesPerMcu => { s with bytesPerMcu := BitVec.ofNat 8 v }
  | .pool => { s with pool := BitVec.ofNat 7 v }
  | .nlevels => { s with nlevels := BitVec.ofNat 16 v }
  | .seed => { s with seed := BitVec.ofNat 32 v }
  | .nfreqs => { s with nfreqs := BitVec.ofNat 7 v }
  | .quality => { s with quality := BitVec.ofNat 32 v }
  | .ethresh => { s with ethresh := BitVec.ofNat 32 v }
  | .comp => { s with comp := BitVec.ofNat 8 v }
  | .len => { s with len := BitVec.ofNat 32 v }
  | .maxlen => { s with maxlen := BitVec.ofNat 32 v }
  | .elen => { s with elen := BitVec.ofNat 32 v }
  | .wb => { s with wb := BitVec.ofNat 32 v }
  | .hb => { s with hb := BitVec.ofNat 32 v }
  | .vsamp => { s with vsamp := BitVec.ofNat 32 v }
  | .result | .err | .errinfo | .esticky | .phase | .blk | .k | .npar => s

/-! ### The elements of the other spaces -/

/-- The position an address below 64 names. -/
def slotOfAddr (addr : Nat) : Slot := Fin.ofNat 64 addr

/-- `element <- v` in a space other than `REG`; a write to `QT` also does `NFREQS <- 0`
(10_state.md R57). -/
def setElement (space : Space) (addr v : Nat) (s : State) : State :=
  match space with
  | .reg => s
  | .freq => { s with freqs := s.freqs.set (slotOfAddr addr) (slotOfAddr v) }
  | .qt => { s with qt := s.qt.set (slotOfAddr addr) (some v), nfreqs := 0 }
  | .pbuf => { s with pbuf := Memory.write s.pbuf addr (BitVec.ofNat 8 v) }
  | .ebuf => { s with ebuf := Memory.write s.ebuf addr (BitVec.ofNat 8 v) }

/-- Answer a read with the value of the element. -/
def replyValue (v : Int) (s : State) : State := { s with reply := .value v }

/-- Answer a read of an element whose value the spec leaves unspecified with the next free value, a number
below `bound` (93_implementation_defined.md U6). -/
def replyAnyValue (bound : Nat) (s : State) : State :=
  { s with reply := .value (Config.anyValue s.draws % bound : Nat), draws := s.draws + 1 }

/-- The answer to a read of an address that exists (45_config_access.md R260). `QT[p]` never written and
`FREQS[i]` with `i ≥ NFREQS` return an unspecified value. -/
def readElement (space : Space) (addr : Nat) (s : State) : State :=
  match space with
  | .reg =>
    match RegName.ofNumber addr with
    | some r => replyValue (regValue r s) s
    | none => s
  | .freq =>
    if addr < s.nfreqs.toNat then replyValue (s.freqs.get (slotOfAddr addr)).val s
    else replyAnyValue 64 s
  | .qt =>
    match s.qt.get (slotOfAddr addr) with
    | some v => replyValue v s
    | none => replyAnyValue (2 ^ s.params.qw) s
  | .pbuf => replyValue (pbufByte s addr).toNat s
  | .ebuf => replyValue (ebufByte s addr).toNat s

/-- `HostRead(space, addr)` (45_config_access.md R260). -/
def hostRead (space : Space) (addr : Nat) (s : State) : State :=
  match addressCheck space addr s with
  | some c => reject c s
  | none => readElement space addr s

end Sys2Proof.Machine
end

