-- ==== Sys2Proof/Machine/Transact.lean ====
section
/-! DEFINITION. One input of the block taken to its end: a host transaction with the command it may start
(30_encoding.md R101, 45_config_access.md R261), the reset, and the collaborator's change of the
coefficient store (10_state.md R53). `run` is the meaning of the commands. -/

namespace Sys2Proof.Machine

/-- The state in which the command of a `CMD` write runs: `REG.CMD <- v`, and the host's write completes
with it (30_encoding.md R101). -/
def startCommand (v : Nat) (s : State) : State := { s with cmd := BitVec.ofNat 8 v, reply := .written }

/-- Run the command of a write of `v`, in 0..255, to `CMD` (30_encoding.md R101, R110). -/
def runCommand (run : Instr → State → Host.Outcome State Fault Refusal) (v : Nat) (s : State) :
    Host.Outcome State Fault Refusal :=
  match decode [BitVec.ofNat 8 v] with
  | .ok (i, _) => run i (startCommand v s)
  | .error _ => .next (raise none .illegalOpcode (startCommand v s))

/-- The effect of a write that passed its checks (45_config_access.md R261). -/
def writeEffect (run : Instr → State → Host.Outcome State Fault Refusal)
    (space : Space) (addr v : Nat) (s : State) : Host.Outcome State Fault Refusal :=
  match space, RegName.ofNumber addr with
  | .reg, some .cmd => runCommand run v s
  | .reg, some r => .next { setReg r v s with reply := .written }
  | _, _ => .next { setElement space addr v s with reply := .written }

/-- `HostWrite(space, addr, v)` (45_config_access.md R261). -/
def hostWrite (run : Instr → State → Host.Outcome State Fault Refusal)
    (space : Space) (addr v : Nat) (s : State) : Host.Outcome State Fault Refusal :=
  match writeCheck space addr v s with
  | some c => .next (reject c s)
  | none => writeEffect run space addr v s

/-- A coefficient as a `CW`-bit two's-complement store holds it (10_state.md R53). -/
def wrapCoef (cw : Nat) (c : Int) : Int := c.bmod (2 ^ cw)

/-- The collaborator puts these blocks into the coefficient store. -/
def attachImage (blocks : List CoefBlock) (s : State) : State :=
  { s with coef := blocks.map fun blk => blk.map (wrapCoef s.params.cw) }

/-- One outside input, taken to its end. -/
def takeInput (run : Instr → State → Host.Outcome State Fault Refusal) (x : Input) (s : State) :
    Host.Outcome State Fault Refusal :=
  match x with
  | .read space addr => .next (hostRead space addr s)
  | .write space addr v => hostWrite run space addr v s
  | .reset => .next (applyReset s)
  | .image blocks => .next (attachImage blocks s)

end Sys2Proof.Machine
end

