-- ==== Sys2Proof/Machine/Step.lean ====
section
/-! DEFINITION. One step: the oldest outside input, taken to its end (00_scope.md R14). -/

namespace Sys2Proof.Machine

/-- One step. With no input waiting the block "holds its state and does nothing" (60_exceptions.md R299). -/
def step (s : State) : Host.Outcome State Fault Refusal :=
  match s.pending with
  | [] => .next s
  | x :: rest => takeInput exec x { s with pending := rest }

/-- The state in which the next input is the host's write to `CMD` of the instruction of `nbits` bits with
the value `w`, the bits above `nbits` zero. -/
def State.withFetchWord (s : State) (nbits w : Nat) : State :=
  { s with pending := .write .reg 0x00 (w % 2 ^ nbits) :: s.pending }

end Sys2Proof.Machine
end

