-- ==== Sys2Proof/Machine/ScanMachine.lean ====
section
/-! DEFINITION. The two state machines read transition by transition (44_embed_extract.md R226, R240). `EMBED`
and `EXTRACT` run them to `Done` in one step; here each transition of the tables is one function call. -/

namespace Sys2Proof.Machine

/-- A scan in progress: the state, whose `PHASE`, `BLK` and `K` are the control state (10_state.md R58), and
what the scan holds besides. -/
structure ScanRun where
  st : State
  /-- `EMBED`: the raw bytes `D`. `EXTRACT`: the bytes read so far, of the prefix, then of the payload. -/
  bytes : List Byte
  /-- `EXTRACT`: the number `n` of raw bytes to read. -/
  target : Nat
  deriving DecidableEq, Repr

/-- The host writes `EMBED` or `EXTRACT` to `CMD`. -/
def ScanRun.start (s : State) : ScanRun := { st := scanStart s, bytes := [], target := 0 }

/-- The scan ended in an error. -/
def ScanRun.stop (i : Instr) (c : Cause) (s : State) (r : ScanRun) : ScanRun :=
  { r with st := raise (some i) c s }

/-- The scan goes to a phase. -/
def ScanRun.go (p : Phase) (s : State) (r : ScanRun) : ScanRun := { r with st := setPhase p s }

/-- One transition of the embed machine (44_embed_extract.md R226). -/
def embedTransition (r : ScanRun) : Except Fault ScanRun :=
  let s := r.st
  match s.phase with
  | .selectFrequencies =>
    let t := (ensureSelection s).1
    match selectCheck s with
    | some c => .ok (r.stop .embed c t)
    | none =>
      match t.eccMethod with
      | .reedSolomon => .ok (r.go .eccEncode t)
      | .none => .ok { r.go .scanWriteLength t with bytes := pbufBytes t t.len.toNat }
  | .eccEncode =>
    match encodeCheck s.framing s with
    | some c => .ok (r.stop .embed c s)
    | none =>
      let d := encodedPayload s.framing s
      .ok { r.go .scanWriteLength (storeEbuf d s) with bytes := d }
  | .scanWriteLength =>
    if s.embedLength ∧ s.blk.toNat < 4 ∧ s.blk.toNat < blockProduct s then
      match packByte (lengthByte r.bytes.length s.blk.toNat) s.blk.toNat s with
      | .ok t => .ok { r with st := nextBlock t }
      | .error f => .error f
    else .ok (r.go .scanWritePayload s)
  | .scanWritePayload =>
    if s.k.toNat < r.bytes.length ∧ s.blk.toNat < blockProduct s then
      match packByte (r.bytes.getD s.k.toNat 0) s.blk.toNat s with
      | .ok t => .ok { r with st := nextByte t }
      | .error f => .error f
    else .ok { r with st := embedResult r.bytes.length (setPhase .done s) }
  | .idle | .determineTargetLength | .scanReadPayload | .eccDecode | .done => .ok r

/-- The extract machine leaves `DetermineTargetLength` with the target `t`. -/
def ScanRun.toPayload (t : Nat) (s : State) (r : ScanRun) : ScanRun :=
  match extractFitCheck t s with
  | some c => r.stop .extract c s
  | none => { r.go .scanReadPayload s with bytes := [], target := readableBytes t s }

/-- One transition of the extract machine (44_embed_extract.md R240). -/
def extractTransition (r : ScanRun) : Except Fault ScanRun :=
  let s := r.st
  match s.phase with
  | .selectFrequencies =>
    let t := (ensureSelection s).1
    match selectCheck s with
    | some c => .ok (r.stop .extract c t)
    | none =>
      match extractFrameCheck t with
      | some c => .ok (r.stop .extract c t)
      | none => .ok (r.go .determineTargetLength t)
  | .determineTargetLength =>
    if s.embedLength then
      if blockProduct s < 4 then .ok (r.stop .extract .noSuchBlock s)
      else if r.bytes.length < 4 then
        match unpackByte s.blk.toNat s with
        | .ok v => .ok { r with st := nextBlock s, bytes := r.bytes ++ [v] }
        | .error f => .error f
      else .ok (r.toPayload (min (lengthOfBytes 0 r.bytes) s.maxlen.toNat) s)
    else
      match callerTargetCheck s with
      | some c => .ok (r.stop .extract c s)
      | none => .ok (r.toPayload (callerTarget s) s)
  | .scanReadPayload =>
    if s.k.toNat < r.target then
      match unpackByte s.blk.toNat s with
      | .ok v => .ok { r with st := nextByte s, bytes := r.bytes ++ [v] }
      | .error f => .error f
    else
      match s.eccMethod with
      | .none => .ok { r with st := deliver .extract r.bytes (setPhase .done s) }
      | .reedSolomon => .ok { r with st := storeRaw r.bytes (setPhase .eccDecode s) }
  | .eccDecode => .ok { r with st := extractDecode (eccBlockCeiling (blockLen s) r.bytes.length) s }
  | .idle | .eccEncode | .scanWriteLength | .scanWritePayload | .done => .ok r

/-- `n` transitions, stopping at the first fault. -/
def runTransitions (next : ScanRun → Except Fault ScanRun) : (n : Nat) → ScanRun → Except Fault ScanRun
  | 0, r => .ok r
  | n + 1, r =>
    match next r with
    | .ok r' => runTransitions next n r'
    | .error f => .error f

end Sys2Proof.Machine
end

