-- ==== Sys2Proof/Machine/Script.lean ====
section
/-! DEFINITION. The host script: what each line does as host transactions (30_encoding.md R113, R114). -/

namespace Sys2Proof.Machine

/-- `wr REG.<NAME>, v`. -/
def writeReg (r : RegName) (v : Nat) : Input := .write .reg r.number v

/-- `cmd <MNEMONIC>`: a write of the opcode to `CMD` (30_encoding.md R113). -/
def command (i : Instr) : Input := writeReg .cmd (opcode i).toNat

/-- Writes of consecutive elements of a space, from address `a` up. -/
def writeElements (space : Space) : (a : Nat) → List Nat → List Input
  | _, [] => []
  | a, v :: rest => .write space a v :: writeElements space (a + 1) rest

/-- The transactions of a script line, in order (30_encoding.md R113, R114). -/
def expandLine : ScriptLine → List Input
  | .wrReg r v => [writeReg r v]
  | .wr space addr v => [.write space addr v]
  | .rdReg r => [.read .reg r.number]
  | .rd space addr => [.read space addr]
  | .cmd i => [command i]
  | .qt vs => writeElements .qt 0 vs
  | .freqs fs => writeElements .freq 0 fs ++ [writeReg .nfreqs fs.length]
  | .payload bs => writeElements .pbuf 0 bs ++ [writeReg .len bs.length]
  | .ebuf bs => writeElements .ebuf 0 bs ++ [writeReg .elen bs.length]
  | .geom wb hb vs => [writeReg .wb wb, writeReg .hb hb, writeReg .vsamp vs]
  | .pack v n => [writeReg .arg0 v, writeReg .arg1 n, command .pack]
  | .unpack n => [writeReg .arg1 n, command .unpack]
  | .call i a => [writeReg .arg0 a, command i]

/-- The transactions of a whole script. -/
def expandScript (lines : List ScriptLine) : List Input := lines.flatMap expandLine

end Sys2Proof.Machine
end

