-- ==== Sys2Proof/Safety.lean ====
section
/-! DEFINITION. What counts as a legal state and as a run that cannot stop, in the terms statements use. -/

namespace Sys2Proof.Machine

/-- Is every coefficient of the block a `CW`-bit two's-complement number (10_state.md R53)? -/
def coefInRange (cw : Nat) (blk : CoefBlock) : Prop :=
  ∀ p : Slot, -(2 ^ (cw - 1) : Int) ≤ blk.get p ∧ blk.get p < (2 ^ (cw - 1) : Int)

/-- A legal state: every register holds a legal value, the stores are in canonical form and within their
size, the error registers agree, and no scan is in progress. -/
structure State.Legal (s : State) : Prop where
  /-- `NPAR < B` (10_state.md R33). -/
  blockLength : s.params.npar.val < s.eccBlockLength.toNat
  /-- 10_state.md R35. -/
  bitsPerFreq : s.bitsPerFreq = 2
  /-- 10_state.md R36. -/
  bytesPerMcu : s.bytesPerMcu = 1
  /-- 10_state.md R44. -/
  comp : s.comp = 0
  /-- 10_state.md R37. -/
  pool : s.pool.toNat ≤ 64
  /-- 10_state.md R40. -/
  nfreqs : s.nfreqs.toNat ≤ 64
  /-- 10_state.md R45. -/
  len : s.len.toNat ≤ s.params.pbufSize.val
  /-- 10_state.md R46. -/
  maxlen : s.maxlen.toNat ≤ s.params.pbufSize.val
  /-- 10_state.md R47. -/
  elen : s.elen.toNat ≤ s.params.ebufSize.val
  /-- 10_state.md R50. -/
  vsamp : 1 ≤ s.vsamp.toNat
  /-- A written table entry is positive and fits `QW` bits (10_state.md R49). -/
  qt : ∀ (p : Slot) (v : Nat), s.qt.get p = some v → 0 < v ∧ v < 2 ^ s.params.qw
  /-- The canonical form of `PBUF`. -/
  pbufForm : Memory.wf s.pbuf = true
  /-- No byte of `PBUF` above its size (20_memory.md R74). -/
  pbufRange : ∀ c ∈ s.pbuf, c.1 < s.params.pbufSize.val
  /-- The canonical form of `EBUF`. -/
  ebufForm : Memory.wf s.ebuf = true
  /-- No byte of `EBUF` above its size (20_memory.md R75). -/
  ebufRange : ∀ c ∈ s.ebuf, c.1 < s.params.ebufSize.val
  /-- 10_state.md R53. -/
  coef : ∀ blk ∈ s.coef, coefInRange s.params.cw blk
  /-- `ERR` holds a class number or 0 (10_state.md R25). -/
  err : s.err.toNat ≤ 5
  /-- `ERRINFO` is 0 when `ERR` is 0, and only then (10_state.md R26). -/
  errinfo : s.err = 0 ↔ s.errinfo = 0
  /-- Bits 0, 6 and 7 of `ESTICKY` read 0 (10_state.md R27). -/
  esticky : s.esticky &&& 0xC1 = 0
  /-- `RESULT` is a value in `0..LEN_MAX` or minus a class number (60_exceptions.md R283). -/
  result : -5 ≤ s.result.toInt
  /-- Between commands the host only reads `Idle` or `Done` (10_state.md R28). -/
  phase : s.phase = .idle ∨ s.phase = .done
  /-- The scan counters stay within the number of blocks (10_state.md R58). -/
  counters : s.k.toNat ≤ s.blk.toNat ∧ s.blk.toNat ≤ lenMax

/-- The state after a command ended with the value `v`, as 60_exceptions.md R285 says. -/
def succeeded (v : Nat) (s : State) : State := { s with result := BitVec.ofNat 32 v, err := 0, errinfo := 0 }

/-- The state after a command ended with an error of class number `cls` and detail code `detail`, as
60_exceptions.md R284 says for a command that is no scan. -/
def failed (cls : Nat) (detail : BitVec 8) (s : State) : State :=
  { s with
    result := BitVec.ofInt 32 (-(cls : Int))
    err := BitVec.ofNat 8 cls
    errinfo := detail
    esticky := s.esticky ||| BitVec.ofNat 8 (2 ^ cls) }

/-- The state after `EMBED` or `EXTRACT` ended with an error (60_exceptions.md R284). -/
def scanFailed (cls : Nat) (detail : BitVec 8) (s : State) : State :=
  failed cls detail { s with phase := .done }

/-- Every entry of the table has been written (40_frequency_selector.md R130). -/
def State.tableLoaded (s : State) : Prop := ∀ p : Slot, (s.qt.get p).isSome = true

/-- Four slots are selected and the block count is within `LEN_MAX`. -/
def State.slotsReady (s : State) : Prop := 4 ≤ s.nfreqs.toNat ∧ blockProduct s ≤ lenMax

/-- `FREQS[0..3]` are four different positions (41_bit_packer.md R145). -/
def State.distinctSlots (s : State) : Prop := (slots s).toList.Nodup

/-- The raw bytes that `EMBED` embeds: the payload, or its encoded form (44_embed_extract.md R227). -/
def rawBytes (s : State) : List Byte :=
  match s.eccMethod with
  | .none => pbufBytes s s.len.toNat
  | .reedSolomon => encodedPayload s.framing s

/-- Nothing stops the encode of `EMBED`: ECC is off, or its checks pass. -/
def State.encodable (s : State) : Prop := s.eccMethod = .reedSolomon → encodeCheck s.framing s = none

/-- The prefix blocks that a scan of the present configuration uses when the image has enough
(30_encoding.md R106). -/
def prefixBlocks (s : State) : Nat := if s.embedLength then 4 else 0

/-- The byte that coefficient block `n` carries, 0 where the store has no such block. -/
def carried (s : State) (n : Nat) : Byte :=
  match s.coef[n]? with
  | some blk => unpackBlock (slots s) blk
  | none => 0

/-- The length that blocks 0 to 3 carry (44_embed_extract.md R222). -/
def carriedLength (s : State) : Nat := lengthOfBytes 0 [carried s 0, carried s 1, carried s 2, carried s 3]

/-- Two sessions with the same slots and the same settings (70_reset_and_hazards.md R331). -/
structure State.sameSettings (s t : State) : Prop where
  params : s.params = t.params
  nfreqs : s.nfreqs = t.nfreqs
  freqs : s.freqs = t.freqs
  wb : s.wb = t.wb
  hb : s.hb = t.hb
  embedLength : s.embedLength = t.embedLength
  eccMethod : s.eccMethod = t.eccMethod
  eccBlockLength : s.eccBlockLength = t.eccBlockLength
  framing : s.framing = t.framing

/-- Two such sessions with the same image, as an embedder and an extractor must have it
(70_reset_and_hazards.md R331, R334). -/
structure State.sameChannel (s t : State) : Prop extends s.sameSettings t where
  coef : s.coef = t.coef

/-- How many of `n` bytes differ. -/
def changedCount (n : Nat) (f g : Nat → Byte) : Nat := ((List.range n).filter fun j => f j ≠ g j).length

/-- The geometry registers name no block that the attached store does not have, the host's duty of
70_reset_and_hazards.md R328. -/
def State.geometryFits (s : State) : Prop := blockProduct s ≤ s.coef.length

/-! ### Legal writes and refused accesses -/

/-- The values that a register other than `CMD` takes, register by register as 45_config_access.md R261 lists them. -/
inductive LegalWrite (p : Params) : RegName → Nat → Prop where
  | word (r : RegName) (v : Nat) (hr : r ∈ [RegName.arg0, .arg1, .seed, .quality, .ethresh, .wb, .hb])
      (hv : v < 2 ^ 32) : LegalWrite p r v
  | flag (r : RegName) (v : Nat) (hr : r ∈ [RegName.embedLength, .eccMethod, .framing]) (hv : v ≤ 1) : LegalWrite p r v
  | blockLength (v : Nat) (h1 : p.npar.val < v) (h2 : v ≤ 255) : LegalWrite p .eccBlockLength v
  | bitsPerFreq : LegalWrite p .bitsPerFreq 2
  | bytesPerMcu : LegalWrite p .bytesPerMcu 1
  | comp : LegalWrite p .comp 0
  | count (r : RegName) (v : Nat) (hr : r ∈ [RegName.pool, .nfreqs]) (hv : v ≤ 64) : LegalWrite p r v
  | nlevels (v : Nat) (hv : v ≤ 65535) : LegalWrite p .nlevels v
  | payloadLength (r : RegName) (v : Nat) (hr : r ∈ [RegName.len, .maxlen]) (hv : v ≤ min lenMax p.pbufSize.val) :
      LegalWrite p r v
  | encodedLength (v : Nat) (hv : v ≤ min lenMax p.ebufSize.val) : LegalWrite p .elen v
  | sampling (v : Nat) (h1 : 1 ≤ v) (h2 : v < 2 ^ 32) : LegalWrite p .vsamp v

/-- The read or write of an address of a space. -/
inductive Accesses (sp : Space) (a : Nat) : Input → Prop where
  | read : Accesses sp a (.read sp a)
  | write (v : Nat) : Accesses sp a (.write sp a v)

/-- The host accesses of an instance with constants `p` that are refused, each with its detail code, row by row
as 45_config_access.md R260 to R262 and 20_memory.md R72 to R75 list them. -/
inductive Refused (p : Params) : Input → BitVec 8 → Prop where
  /-- A register number that is not in the map (10_state.md R54). -/
  | unmapped (a : Nat) (x : Input) (ha : RegName.ofNumber a = none) (hx : Accesses .reg a x) :
      Refused p x 0x11
  | freqAddress (a : Nat) (x : Input) (ha : 63 < a) (hx : Accesses .freq a x) : Refused p x 0x1A
  | qtAddress (a : Nat) (x : Input) (ha : 63 < a) (hx : Accesses .qt a x) : Refused p x 0x1A
  | pbufAddress (a : Nat) (x : Input) (ha : p.pbufSize.val ≤ a) (hx : Accesses .pbuf a x) : Refused p x 0x1A
  | ebufAddress (a : Nat) (x : Input) (ha : p.ebufSize.val ≤ a) (hx : Accesses .ebuf a x) : Refused p x 0x1A
  | readOnly (r : RegName) (v : Nat)
      (hr : r ∈ [RegName.result, .err, .errinfo, .esticky, .phase, .blk, .k, .npar]) :
      Refused p (.write .reg r.number v) 0x15
  | zeroEntry (q : Slot) : Refused p (.write .qt q.val 0) 0x14
  | blockLength (v : Nat) (hv : v ≤ p.npar.val ∨ 255 < v) : Refused p (.write .reg 0x12 v) 0x12
  | cmd (v : Nat) (hv : 255 < v) : Refused p (.write .reg 0x00 v) 0x13
  | word (r : RegName) (v : Nat) (hr : r ∈ [RegName.arg0, .arg1, .seed, .quality, .ethresh, .wb, .hb, .vsamp])
      (hv : 2 ^ 32 ≤ v) : Refused p (.write .reg r.number v) 0x13
  | flag (r : RegName) (v : Nat) (hr : r ∈ [RegName.embedLength, .eccMethod, .framing]) (hv : 1 < v) :
      Refused p (.write .reg r.number v) 0x13
  | bitsPerFreq (v : Nat) (hv : v ≠ 2) : Refused p (.write .reg 0x14 v) 0x13
  | bytesPerMcu (v : Nat) (hv : v ≠ 1) : Refused p (.write .reg 0x15 v) 0x13
  | comp (v : Nat) (hv : v ≠ 0) : Refused p (.write .reg 0x1C v) 0x13
  | count (r : RegName) (v : Nat) (hr : r ∈ [RegName.pool, .nfreqs]) (hv : 64 < v) :
      Refused p (.write .reg r.number v) 0x13
  | nlevels (v : Nat) (hv : 65535 < v) : Refused p (.write .reg 0x17 v) 0x13
  | payloadLength (r : RegName) (v : Nat) (hr : r ∈ [RegName.len, .maxlen]) (hv : p.pbufSize.val < v) :
      Refused p (.write .reg r.number v) 0x13
  | encodedLength (v : Nat) (hv : p.ebufSize.val < v) : Refused p (.write .reg 0x22 v) 0x13
  | noSampling : Refused p (.write .reg 0x32 0) 0x13
  | wideEntry (q : Slot) (v : Nat) (hv : 2 ^ p.qw ≤ v) : Refused p (.write .qt q.val v) 0x13
  | slotIndex (j : Slot) (v : Nat) (hv : 63 < v) : Refused p (.write .freq j.val v) 0x13
  | payloadByte (a v : Nat) (ha : a < p.pbufSize.val) (hv : 255 < v) : Refused p (.write .pbuf a v) 0x13
  | encodedByte (a v : Nat) (ha : a < p.ebufSize.val) (hv : 255 < v) : Refused p (.write .ebuf a v) 0x13

end Sys2Proof.Machine
end

