-- ==== Sys2Proof/Certificates/Slice0/Obligations.lean ====
section
/-! DEFINITION. The statements for the provers, from the numbered rules of spec/. -/

open Sys2Proof Sys2Proof.Machine

/-! ### Reset, INIT and the instance -/

/-- The reset table (10_state.md R55, 70_reset_and_hazards.md R320), for every value of the open parameters.
`SEED`, `QUALITY`, `ETHRESH`, `FREQS`, `PBUF` and `EBUF` are unspecified there and not stated here. That the
parameters stand in the state and are opaque is the model's choice (log entry 3). -/
def Obligations.ResetLeavesTheResetTable : Prop :=
  State.reset = State.powerOn Config.params ∧
  ∀ p : Params,
    let s := State.powerOn p
    s.cmd = 0 ∧ s.arg0 = 0 ∧ s.arg1 = 0 ∧ s.result = 0 ∧ s.err = 0 ∧ s.errinfo = 0 ∧ s.esticky = 0 ∧
    s.phase.code = 0 ∧ s.blk = 0 ∧ s.k = 0 ∧
    s.embedLength = p.embedLengthReset ∧ s.eccMethod = p.eccMethodReset ∧ s.eccBlockLength.toNat = 20 ∧
    s.framing = p.framingReset ∧ s.bitsPerFreq.toNat = 2 ∧ s.bytesPerMcu.toNat = 1 ∧
    s.pool.toNat = p.poolReset.val ∧ s.nlevels = p.nlevelsReset ∧ s.nfreqs = 0 ∧ s.comp = 0 ∧
    s.len = 0 ∧ s.maxlen = 0 ∧ s.elen = 0 ∧ s.wb = 0 ∧ s.hb = 0 ∧ s.vsamp.toNat = 1 ∧
    ∀ q : Slot, s.qt.get q = none

/-- The state after reset is legal. -/
def Obligations.ResetStateIsLegal : Prop := State.reset.Legal

/-- Every step keeps the state legal: no register ever holds an illegal value, the stores stay in canonical
form and within their size, the error registers agree, and the host only ever reads `Idle` or `Done`. -/
def Obligations.StepKeepsTheStateLegal : Prop :=
  ∀ s t : State, s.Legal → step s = .next t → t.Legal

/-- `INIT` (45_config_access.md R263): what it writes, and that it keeps everything else. That it writes `ARG0` and
`ARG1` is the model's choice between R263 and 10_state.md R22, R23, which say that no operation writes them (log
entry 18). -/
def Obligations.InitStartsASession : Prop :=
  ∀ s : State, exec .init s = .next
    { s with
      arg0 := 0, arg1 := 0, esticky := 0, phase := .idle, blk := 0, k := 0
      embedLength := s.params.embedLengthReset, eccMethod := s.params.eccMethodReset
      eccBlockLength := 20, framing := s.params.framingReset, bitsPerFreq := 2, bytesPerMcu := 1
      comp := 0, pool := BitVec.ofNat 7 s.params.poolReset.val, nlevels := s.params.nlevelsReset
      nfreqs := 0, len := 0, maxlen := 0, elen := 0, wb := 0, hb := 0, vsamp := 1
      result := 0, err := 0, errinfo := 0 }

/-- `INIT` against reset (70_reset_and_hazards.md R320, R322): the outside reset of the same state has the same
registers but for those `INIT` keeps, of which it clears `CMD` and the table and leaves the coefficient store. The
clauses on the queue, the reply and the counters are the model's choices (log entries 1, 2, 5, 12), and so is the
agreement on `ARG0` and `ARG1`, which 10_state.md R22 and R23 deny (log entry 18). -/
def Obligations.InitDiffersFromResetInWhatItKeeps : Prop :=
  ∀ (s : State) (rest : List Input), s.pending = .reset :: rest →
    ∃ t u, exec .init s = .next t ∧ step s = .next u ∧
      t = { u with
        cmd := s.cmd, qt := s.qt, freqs := s.freqs, seed := s.seed, quality := s.quality
        ethresh := s.ethresh, pbuf := s.pbuf, ebuf := s.ebuf
        pending := s.pending, reply := s.reply, resets := s.resets } ∧
      u.cmd = 0 ∧ (∀ q : Slot, u.qt.get q = none) ∧ u.coef = s.coef ∧ u.params = s.params

/-! ### Decoding, and the step -/

/-- Decode and encode agree (30_encoding.md R100, R102, R110): bytes decode to a command and the bytes after
it exactly when they are the command's one byte followed by those; so no unlisted byte decodes. -/
def Obligations.DecodeAndEncodeAgree : Prop :=
  ∀ (bytes : List Byte) (i : Instr) (rest : List Byte),
    decode bytes = .ok (i, rest) ↔ bytes = encode i ++ rest

/-- Words of the opcode map written out in bits (30_encoding.md R102), one per unit. -/
def Obligations.OpcodeWordsDecode : Prop :=
  decode [0b00000001#8] = .ok (.init, []) ∧ decode [0b00010001#8] = .ok (.selfreq, []) ∧
  decode [0b00100000#8] = .ok (.pack, []) ∧ decode [0b00110011#8] = .ok (.fdecnl, []) ∧
  decode [0b01000001#8] = .ok (.cap, []) ∧ decode [0b01010000#8] = .ok (.lenwr, []) ∧
  decode [0b01100001#8] = .ok (.extract, [])

/-- A step whose input is a write of an opcode to `CMD` runs that command (30_encoding.md R101): it takes
the write off the queue, sets `CMD`, and is `exec` of the decoded command; the host's write completes. The
queue and the reply are the model's choice (log entries 1, 2). -/
def Obligations.StepRunsTheDecodedCommand : Prop :=
  ∀ (s : State) (rest : List Input) (v : Nat) (i : Instr),
    s.pending = .write .reg 0x00 v :: rest → v ≤ 255 →
    decode [BitVec.ofNat 8 v] = .ok (i, []) → i.wellFormed = true →
    step s = exec i { s with pending := rest, cmd := BitVec.ofNat 8 v, reply := .written }

/-- A write to `CMD` of a value that is no opcode (30_encoding.md R110). The queue and the reply are the model's
choice (log entries 1, 2). -/
def Obligations.IllegalOpcodeRaises : Prop :=
  ∀ (s : State) (rest : List Input) (v : Nat),
    s.pending = .write .reg 0x00 v :: rest → v ≤ 255 → decodeByte (BitVec.ofNat 8 v) = none →
    step s = .next (failed 1 0x16 { s with pending := rest, cmd := BitVec.ofNat 8 v, reply := .written })

/-! ### The error mechanism -/

/-- `raise` writes the error registers, `PHASE` for the two scans, and nothing else
(60_exceptions.md R284). -/
def Obligations.RaiseWritesTheErrorRegisters : Prop :=
  ∀ (i : Option Instr) (c : Cause) (s : State),
    raise i c s =
      if i = some .embed ∨ i = some .extract then scanFailed c.errClass.code c.detail s
      else failed c.errClass.code c.detail s

/-- How a command shows its end in `RESULT`, `ERR` and `ERRINFO` (60_exceptions.md R283): `RESULT` is
negative exactly when the command failed, and is then minus the class number; a success leaves a value in
`0..LEN_MAX`. -/
def Obligations.ResultIsNegativeExactlyOnFailure : Prop :=
  ∀ (i : Instr) (s t : State), s.Legal → exec i s = .next t →
    (t.result.toInt < 0 ↔ t.err ≠ 0) ∧
    (t.err ≠ 0 → t.result.toInt = -(t.err.toNat : Int) ∧ 1 ≤ t.err.toNat ∧ t.err.toNat ≤ 5) ∧
    (t.err = 0 → 0 ≤ t.result.toInt ∧ t.result.toInt ≤ lenMax ∧ t.errinfo = 0)

/-- `ESTICKY` gathers the classes of the errors raised and only `INIT`, among the commands, clears it
(10_state.md R27). -/
def Obligations.StickyBitsAccumulate : Prop :=
  (∀ (i : Instr) (s t : State), i ≠ .init → exec i s = .next t →
    t.esticky = if t.err = 0 then s.esticky else s.esticky ||| (1#8 <<< t.err.toNat)) ∧
  (∀ s t : State, exec .init s = .next t → t.esticky = 0)

/-- No command but the two scans and `INIT` touches `PHASE`, `BLK` or `K` (10_state.md R28, R29), and a scan
always ends in `Done`, whether it succeeds or fails. -/
def Obligations.OnlyScansAndInitMoveTheScanState : Prop :=
  (∀ (i : Instr) (s t : State), i ≠ .embed → i ≠ .extract → i ≠ .init → exec i s = .next t →
    t.phase = s.phase ∧ t.blk = s.blk ∧ t.k = s.k) ∧
  (∀ (i : Instr) (s t : State), i = .embed ∨ i = .extract → exec i s = .next t → t.phase.code = 8)

/-! ### Frames of all commands -/

/-- Every command but `INIT` keeps the operands, the configuration, the geometry, the table, the
stored-only registers and the host side: it can change only the fields named here. -/
def Obligations.CommandsKeepOperandsAndConfiguration : Prop :=
  ∀ (i : Instr) (s t : State), i ≠ .init → exec i s = .next t →
    t = { s with
      result := t.result, err := t.err, errinfo := t.errinfo, esticky := t.esticky
      phase := t.phase, blk := t.blk, k := t.k, nfreqs := t.nfreqs, freqs := t.freqs
      len := t.len, elen := t.elen, pbuf := t.pbuf, ebuf := t.ebuf, coef := t.coef }

/-- Which commands write which stores (30_encoding.md R103): all others leave them unchanged. -/
def Obligations.StoresAreWrittenOnlyByTheirCommands : Prop :=
  ∀ (i : Instr) (s t : State), exec i s = .next t →
    (i ∉ [.pack, .lenwr, .embed] → t.coef = s.coef) ∧
    (i ∉ [.fdec, .fdecnl, .extract] → t.pbuf = s.pbuf) ∧
    (i ∉ [.fenc, .fencnl, .embed, .extract] → t.ebuf = s.ebuf) ∧
    (i ∉ [.fdec, .fdecnl, .extract, .init] → t.len = s.len) ∧
    (i ∉ [.fenc, .fencnl, .embed, .extract, .init] → t.elen = s.elen) ∧
    (i ∉ [.selfreq, .embed, .extract] → t.freqs = s.freqs) ∧
    (i ∉ [.selfreq, .embed, .extract, .init] → t.nfreqs = s.nfreqs)

/-- No command changes a coefficient outside the four slots, or the number of blocks
(30_encoding.md R109, 44_embed_extract.md R229). -/
def Obligations.CoefficientsOutsideTheSlotsStay : Prop :=
  ∀ (i : Instr) (s t : State), exec i s = .next t →
    t.coef.length = s.coef.length ∧
    ∀ (n : Nat) (p : Slot), p ∉ (slots t).toList → coefRead n p t = coefRead n p s

/-- `SEED`, `QUALITY` and `ETHRESH` have no effect on any command (10_state.md R39, R42, R43), nor has
`VSAMP`, which only `INIT` writes (20_memory.md R79). -/
def Obligations.StoredOnlyRegistersHaveNoEffect : Prop :=
  (∀ (i : Instr) (s t : State) (a b c : Word), exec i s = .next t →
    exec i { s with seed := a, quality := b, ethresh := c } =
      .next { t with seed := a, quality := b, ethresh := c }) ∧
  (∀ (i : Instr) (s t : State) (a : Word), i ≠ .init → exec i s = .next t →
    exec i { s with vsamp := a } = .next { t with vsamp := a })

/-- A command always completes, with a result or an error, whenever the geometry registers name no block that
the store lacks (70_reset_and_hazards.md R328, R340); nothing is refused; and a stop is always at a block below
`WB * HB` that the store lacks (the stop is the model's choice, log entry 10). -/
def Obligations.CommandsStopOnlyAtMissingBlocks : Prop :=
  ∀ (i : Instr) (s : State),
    (s.geometryFits → ∃ t, exec i s = .next t) ∧
    (∀ r, exec i s ≠ .refused r) ∧
    ∀ f, exec i s = .fault f →
      ∃ n, f = .noSuchCoefBlock n ∧ s.coef.length ≤ n ∧ n < blockProduct s

/-- Where the geometry names a block that the store lacks, a command with four slots selected whose checks pass
and that reaches that block stops there: `PACK` and `UNPACK`, `LENWR` and `LENRD`, `EMBED`, and `EXTRACT` in the
prefix, in the payload after it, and in the payload without a prefix, with ECC and without. A scan that selects its
slots itself stops as `LazySelectionIsSelfreqFirst` says. The stop is the model's choice (log entry 10), and so is
the length that prefix coefficients outside `0..3` give (log entry 11). -/
def Obligations.MissingBlocksStopTheCommand : Prop :=
  ∀ s : State, s.slotsReady →
    let held := s.coef.length
    let stop := Host.Outcome.fault (σ := State) (ρ := Refusal) (.noSuchCoefBlock held)
    let ecc := s.eccMethod = .reedSolomon
    let fromPrefix := min (carriedLength s) s.maxlen.toNat
    let fromCaller := (s.arg0.toNat / (msgCap s - 1) + 1) * blockLen s
    let fits := fun n => (n + blockLen s - 1) / blockLen s * blockLen s ≤ s.params.ebufSize.val
    (s.arg1.toNat < blockProduct s → held ≤ s.arg1.toNat →
      exec .pack s = .fault (.noSuchCoefBlock s.arg1.toNat) ∧
      exec .unpack s = .fault (.noSuchCoefBlock s.arg1.toNat)) ∧
    (4 ≤ blockProduct s → held < 4 → exec .lenwr s = stop ∧ exec .lenrd s = stop) ∧
    (s.encodable → held < blockProduct s → held < prefixBlocks s + (rawBytes s).length →
      exec .embed s = stop) ∧
    (s.embedLength = true → (ecc → s.framing = .lengthCarrying → 2 ≤ msgCap s) →
      4 ≤ blockProduct s → held < 4 → exec .extract s = stop) ∧
    (s.embedLength = true → (ecc → s.framing = .lengthCarrying → 2 ≤ msgCap s) →
      (ecc → fits (min fromPrefix (blockProduct s - 4))) →
      4 ≤ held → held < blockProduct s → held < 4 + fromPrefix → exec .extract s = stop) ∧
    (s.embedLength = false → s.eccMethod = .none →
      held < blockProduct s → held < s.arg0.toNat → exec .extract s = stop) ∧
    (s.embedLength = false → ecc → 2 ≤ msgCap s → fromCaller ≤ lenMax →
      fits (min fromCaller (blockProduct s)) →
      held < blockProduct s → held < fromCaller → exec .extract s = stop)

/-! ### FrequencySelector -/

/-- `QUAL` (40_frequency_selector.md R121): its answer, and its two errors in their order. -/
def Obligations.QualTestsOnePosition : Prop :=
  (∀ (s : State) (p : Slot) (q : Nat), s.arg0.toNat = p.val → s.tableLoaded → s.qt.get p = some q →
    exec .qual s = .next (succeeded (if s.nlevels.toNat ≤ 255 / q then 1 else 0) s)) ∧
  (∀ s : State, 63 < s.arg0.toNat → exec .qual s = .next (failed 1 0x19 s)) ∧
  (∀ s : State, s.arg0.toNat ≤ 63 → ¬ s.tableLoaded → exec .qual s = .next (failed 1 0x17 s))

/-- `SELFREQ` (40_frequency_selector.md R122, R123): it keeps the `POOL` highest admissible positions, highest
first; the entries of `FREQS` above them keep their contents. -/
def Obligations.SelfreqKeepsTheHighestAdmissible : Prop :=
  (∀ s : State, s.tableLoaded →
    let out := ((List.finRange 64).reverse.filter fun p : Slot =>
      s.nlevels.toNat ≤ 255 / (s.qt.get p).getD 0).take s.pool.toNat
    ∃ t, exec .selfreq s = .next t ∧
      t = { succeeded out.length s with freqs := t.freqs, nfreqs := BitVec.ofNat 7 out.length } ∧
      ∀ j : Fin 64, t.freqs.get j = (out[j.val]?).getD (s.freqs.get j)) ∧
  (∀ s : State, ¬ s.tableLoaded → exec .selfreq s = .next (failed 1 0x17 s))

/-- The invariant of the selection (10_state.md R56): after `SELFREQ` the valid entries are admissible for the
present table, and strictly decreasing. -/
def Obligations.SelectionIsAdmissibleAndDecreasing : Prop :=
  ∀ s t : State, s.tableLoaded → exec .selfreq s = .next t →
    (∀ j : Fin 64, j.val < t.nfreqs.toNat →
      ∃ q, t.qt.get (t.freqs.get j) = some q ∧ t.nlevels.toNat ≤ 255 / q) ∧
    (∀ j l : Fin 64, j < l → l.val < t.nfreqs.toNat → t.freqs.get l < t.freqs.get j)

/-- Lazy selection is `SELFREQ` run first (40_frequency_selector.md R124): where no selection is resolved and
the table is loaded, a scan started after `SELFREQ` ends exactly as one started without it. -/
def Obligations.LazySelectionIsSelfreqFirst : Prop :=
  ∀ (i : Instr) (s u : State), i = .embed ∨ i = .extract → s.nfreqs = 0 → s.tableLoaded →
    exec .selfreq s = .next u → exec i u = exec i s

/-- A resolved selection is used as it stands: the table is not read (40_frequency_selector.md R124). -/
def Obligations.ResolvedSelectionNeedsNoTable : Prop :=
  ∀ (i : Instr) (s t : State) (q : Vector (Option Nat) 64), i = .embed ∨ i = .extract → s.nfreqs ≠ 0 →
    exec i s = .next t → exec i { s with qt := q } = .next { t with qt := q }

/-- The errors of both scans before the first coefficient (40_frequency_selector.md R124, R125,
43_capacity.md R200): no table, fewer than four slots with and without a selection of its own, more than
`LEN_MAX` blocks. -/
def Obligations.ScansStopWithoutFourSlots : Prop :=
  ∀ (i : Instr) (s : State), i = .embed ∨ i = .extract →
    let z := { s with blk := 0, k := 0 }
    (s.nfreqs = 0 → ¬ s.tableLoaded → exec i s = .next (scanFailed 1 0x17 z)) ∧
    (s.nfreqs ≠ 0 → s.nfreqs.toNat < 4 → exec i s = .next (scanFailed 2 0x21 z)) ∧
    (∀ u, s.nfreqs = 0 → s.tableLoaded → exec .selfreq s = .next u → u.nfreqs.toNat < 4 →
      exec i s = .next (scanFailed 2 0x21 { z with freqs := u.freqs, nfreqs := u.nfreqs })) ∧
    (4 ≤ s.nfreqs.toNat → lenMax < blockProduct s → exec i s = .next (scanFailed 5 0x52 z))

/-! ### BitPacker -/

/-- `PACK` (41_bit_packer.md R142, R146): the groups of `ARG0[7:0]` in the four slots of block `ARG1`, the
last write to a slot winning; every other coefficient and everything else unchanged. -/
def Obligations.PackStoresTheFourGroups : Prop :=
  ∀ s : State, s.slotsReady → s.arg1.toNat < blockProduct s → s.arg1.toNat < s.coef.length →
    let v := s.arg0.toNat % 256
    ∃ t, exec .pack s = .next t ∧ t = { succeeded 1 s with coef := t.coef } ∧
      t.coef.length = s.coef.length ∧
      ∀ (n : Nat) (p : Slot), coefRead n p t =
        if n ≠ s.arg1.toNat then coefRead n p s
        else if p = s.freqs[3] then .ok ((v / 64 : Nat) : Int)
        else if p = s.freqs[2] then .ok ((v / 16 % 4 : Nat) : Int)
        else if p = s.freqs[1] then .ok ((v / 4 % 4 : Nat) : Int)
        else if p = s.freqs[0] then .ok ((v % 4 : Nat) : Int)
        else coefRead n p s

/-- `UNPACK` (41_bit_packer.md R144): `lo2` of the four coefficients, put together; nothing else changes. For a
coefficient outside `0..3` the model follows R144 (log entry 11). -/
def Obligations.UnpackReadsTheFourGroups : Prop :=
  ∀ (s : State) (c0 c1 c2 c3 : Int), s.slotsReady → s.arg1.toNat < blockProduct s →
    coefRead s.arg1.toNat s.freqs[0] s = .ok c0 → coefRead s.arg1.toNat s.freqs[1] s = .ok c1 →
    coefRead s.arg1.toNat s.freqs[2] s = .ok c2 → coefRead s.arg1.toNat s.freqs[3] s = .ok c3 →
    exec .unpack s =
      .next (succeeded (c0 % 4 + 4 * (c1 % 4) + 16 * (c2 % 4) + 64 * (c3 % 4)).toNat s)

/-- The inverse law (41_bit_packer.md R145): with four different slots, `UNPACK` after `PACK` gives the byte
back, in any later state with the same block number, slots and geometry whose four coefficients are still
the ones `PACK` left. -/
def Obligations.UnpackInvertsPack : Prop :=
  ∀ s t u : State, s.slotsReady → s.distinctSlots → exec .pack s = .next t → t.err = 0 →
    u.arg1 = t.arg1 → u.nfreqs = t.nfreqs → u.freqs = t.freqs → u.wb = t.wb → u.hb = t.hb →
    (∀ p ∈ (slots t).toList, coefRead t.arg1.toNat p u = coefRead t.arg1.toNat p t) →
    exec .unpack u = .next (succeeded (s.arg0.toNat % 256) u)

/-- The check of `PACK`, `UNPACK`, `LENWR` and `LENRD` before any coefficient (41_bit_packer.md R141), in its
order. -/
def Obligations.PackReadyErrorsInOrder : Prop :=
  ∀ (i : Instr) (s : State), i ∈ [.pack, .unpack, .lenwr, .lenrd] →
    let n := if i = .pack ∨ i = .unpack then s.arg1.toNat else 3
    (s.nfreqs.toNat < 4 → exec i s = .next (failed 2 0x21 s)) ∧
    (4 ≤ s.nfreqs.toNat → lenMax < blockProduct s → exec i s = .next (failed 5 0x52 s)) ∧
    (4 ≤ s.nfreqs.toNat → blockProduct s ≤ lenMax → blockProduct s ≤ n →
      exec i s = .next (failed 2 0x24 s))

/-! ### EccFramer -/

/-- `FENC` (42_ecc_framer.md R170): each block of `EBUF` is the Reed-Solomon encoding of its message region,
a chunk length byte, the chunk, and zeros; the last block ends the message; nothing else changes. -/
def Obligations.FencFramesThePayload : Prop :=
  ∀ s : State,
    let b := blockLen s; let m := msgCap s; let l := s.len.toNat; let nb := l / (m - 1) + 1
    2 ≤ m → nb * b ≤ s.params.ebufSize.val → Memory.wf s.ebuf = true →
    ∃ t, exec .fenc s = .next t ∧
      t = { succeeded (nb * b) s with ebuf := t.ebuf, elen := BitVec.ofNat 32 (nb * b) } ∧
      (∀ a, nb * b ≤ a → ebufByte t a = ebufByte s a) ∧
      ∀ i < nb,
        let c := if i < nb - 1 then m - 1 else l - (nb - 1) * (m - 1)
        let region := BitVec.ofNat 8 c ::
          ((List.range c).map (fun j => pbufByte s (i * (m - 1) + j)) ++ List.replicate (m - 1 - c) 0)
        ∀ j < b, ebufByte t (i * b + j) = (rsEnc b s.params.npar region).getD j 0

/-- `FENCNL` (42_ecc_framer.md R178): `ceil(L / M)` blocks, each the encoding of `M` payload bytes, the last
chunk filled with zeros; nothing else changes. -/
def Obligations.FencnlFramesThePayload : Prop :=
  ∀ s : State,
    let b := blockLen s; let m := msgCap s; let l := s.len.toNat; let nb := (l + m - 1) / m
    1 ≤ m → nb * b ≤ s.params.ebufSize.val → Memory.wf s.ebuf = true →
    ∃ t, exec .fencnl s = .next t ∧
      t = { succeeded (nb * b) s with ebuf := t.ebuf, elen := BitVec.ofNat 32 (nb * b) } ∧
      (∀ a, nb * b ≤ a → ebufByte t a = ebufByte s a) ∧
      ∀ i < nb,
        let c := min m (l - i * m)
        let region :=
          (List.range c).map (fun j => pbufByte s (i * m + j)) ++ List.replicate (m - c) 0
        ∀ j < b, ebufByte t (i * b + j) = (rsEnc b s.params.npar region).getD j 0

/-- The length-carrying decode, over any decoder of ECC blocks: with every length byte `M - 1` all data bytes and no
error (42_ecc_framer.md R175); at the first other length byte, the format error where it is above `M - 1` (R174),
else the end, whatever blocks follow (R172). And `FDEC` (R173, R176): the decoded bytes go to `PBUF`, whole where
they fit `MAXLEN`, else the first `MAXLEN` of them with the buffer error; nothing else changes. -/
def Obligations.FdecDeliversTheDecodedBytes : Prop :=
  (∀ (dec : List Byte → List Byte) (m : Nat) (full rest : List (List Byte)) (last : List Byte),
    let c := fun x => ((dec x).headD 0).toNat
    let data := fun x => ((dec x).drop 1).take (c x)
    (∀ x ∈ full, c x = m - 1) →
      lcDecode dec m full = some (full.flatMap data) ∧
      (m - 1 < c last → lcDecode dec m (full ++ last :: rest) = none) ∧
      (c last < m - 1 → lcDecode dec m (full ++ last :: rest) = some (full.flatMap data ++ data last))) ∧
  ∀ (s : State) (d : List Byte), 2 ≤ msgCap s → s.elen.toNat % blockLen s = 0 →
    lcDecode (decoder s) (msgCap s) (eccBlocks (blockLen s) (ebufBytes s s.elen.toNat)) = some d →
    Memory.wf s.pbuf = true →
    ∃ t, exec .fdec s = .next t ∧
      (d.length ≤ s.maxlen.toNat →
        t = { succeeded d.length s with pbuf := t.pbuf, len := BitVec.ofNat 32 d.length }) ∧
      (s.maxlen.toNat < d.length → t = { failed 4 0x41 s with pbuf := t.pbuf, len := s.maxlen }) ∧
      ∀ a, pbufByte t a = if a < min d.length s.maxlen.toNat then d.getD a 0 else pbufByte s a

/-- The length-omitting decode, over any decoder of ECC blocks: the regions of the first `ceil(T / M)` blocks, or of
all where there are fewer (42_ecc_framer.md R180). And `FDECNL` (R181, R176), with the target length in `ARG0`. -/
def Obligations.FdecnlDeliversTheDecodedBytes : Prop :=
  (∀ (dec : List Byte → List Byte) (m t : Nat) (blocks : List (List Byte)), 1 ≤ m →
    (∀ x ∈ blocks, (dec x).length = m) →
      nlDecode dec t blocks [] = (blocks.take ((t + m - 1) / m)).flatMap dec ∧
      (nlDecode dec t blocks []).length = min ((t + m - 1) / m) blocks.length * m) ∧
  ∀ s : State, s.elen.toNat % blockLen s = 0 → Memory.wf s.pbuf = true →
    let d := nlDecode (decoder s) s.arg0.toNat (eccBlocks (blockLen s) (ebufBytes s s.elen.toNat)) []
    ∃ t, exec .fdecnl s = .next t ∧
      (d.length ≤ s.maxlen.toNat →
        t = { succeeded d.length s with pbuf := t.pbuf, len := BitVec.ofNat 32 d.length }) ∧
      (s.maxlen.toNat < d.length → t = { failed 4 0x41 s with pbuf := t.pbuf, len := s.maxlen }) ∧
      ∀ a, pbufByte t a = if a < min d.length s.maxlen.toNat then d.getD a 0 else pbufByte s a

/-- The errors of the framing commands, in their order (42_ecc_framer.md R164, R165, R173, R174, R181). -/
def Obligations.FramingErrorsInOrder : Prop :=
  (∀ (i : Instr) (s : State), i ∈ [.fenc, .fdec, .ecclen] → msgCap s < 2 →
    exec i s = .next (failed 1 0x18 s)) ∧
  (∀ s : State, 2 ≤ msgCap s →
    let n := (s.len.toNat / (msgCap s - 1) + 1) * blockLen s
    (lenMax < n → exec .fenc s = .next (failed 5 0x52 s)) ∧
    (n ≤ lenMax → s.params.ebufSize.val < n → exec .fenc s = .next (failed 5 0x51 s))) ∧
  (∀ s : State, 1 ≤ msgCap s →
    let n := (s.len.toNat + msgCap s - 1) / msgCap s * blockLen s
    (lenMax < n → exec .fencnl s = .next (failed 5 0x52 s)) ∧
    (n ≤ lenMax → s.params.ebufSize.val < n → exec .fencnl s = .next (failed 5 0x51 s))) ∧
  (∀ s : State, s.elen.toNat % blockLen s ≠ 0 →
    (2 ≤ msgCap s → exec .fdec s = .next (failed 3 0x31 { s with len := 0 })) ∧
    exec .fdecnl s = .next (failed 3 0x31 { s with len := 0 })) ∧
  (∀ s : State, 2 ≤ msgCap s → s.elen.toNat % blockLen s = 0 →
    lcDecode (decoder s) (msgCap s) (eccBlocks (blockLen s) (ebufBytes s s.elen.toNat)) = none →
    exec .fdec s = .next (failed 3 0x32 { s with len := 0 }))

/-- P1, P2 and P3 of the Reed-Solomon port (42_ecc_framer.md R163) for the legal block lengths: the sizes, that
decoding an encoded region gives it back, and that it does so with up to `floor(NPAR / 2)` bytes changed. That the
port of the model has P3 is presumed (log entry 7). -/
def Obligations.ReedSolomonPortInverts : Prop :=
  ∀ (b npar : Nat) (x c : List Byte), npar ≤ b → b ≤ 255 →
    (rsEnc b npar x).length = b ∧ (rsDec b npar c).length = b - npar ∧
    (x.length = b - npar →
      rsDec b npar (rsEnc b npar x) = x ∧
      (c.length = b → changedCount b (c.getD · 0) ((rsEnc b npar x).getD · 0) ≤ npar / 2 → rsDec b npar c = x))

/-- The round trip of the length-carrying framing, over any port with P1 and P2
(42_ecc_framer.md R177). -/
def Obligations.LengthCarryingRoundTrip : Prop :=
  ∀ (enc dec : List Byte → List Byte) (b m : Nat) (p : List Byte), 2 ≤ m → m ≤ 255 → 0 < b →
    (∀ r : List Byte, r.length = m → (enc r).length = b ∧ dec (enc r) = r) →
    lcDecode dec m (eccBlocks b (lcEncode enc m p)) = some p

/-- With a port that corrects `e` changed bytes in a block (P3), the round trip survives up to `e` changed
bytes in every block (42_ecc_framer.md R177). -/
def Obligations.LengthCarryingSurvivesChangedBytes : Prop :=
  ∀ (enc dec : List Byte → List Byte) (b m e : Nat) (p received : List Byte), 2 ≤ m → m ≤ 255 → 0 < b →
    (∀ r : List Byte, r.length = m → (enc r).length = b) →
    (∀ r c : List Byte, r.length = m → c.length = b →
      ((c.zip (enc r)).filter fun x => x.1 != x.2).length ≤ e → dec c = r) →
    received.length = (lcEncode enc m p).length →
    (∀ j < received.length / b,
      (((slice received (j * b) b).zip (slice (lcEncode enc m p) (j * b) b)).filter
        fun x => x.1 != x.2).length ≤ e) →
    lcDecode dec m (eccBlocks b received) = some p

/-- The round trip of the length-omitting framing, over any port with P1 and P2
(42_ecc_framer.md R182). -/
def Obligations.LengthOmittingRoundTrip : Prop :=
  ∀ (enc dec : List Byte → List Byte) (b m : Nat) (p : List Byte), 1 ≤ m → 0 < b →
    (∀ r : List Byte, r.length = m → (enc r).length = b ∧ dec (enc r) = r) →
    nlDecode dec p.length (eccBlocks b (nlEncode enc m p)) [] =
      p ++ zeros ((p.length + m - 1) / m * m - p.length)

/-- Framing and unframing on the machine (42_ecc_framer.md R177, the source's example S1 for every payload):
`FDEC`, in any session with the same constants and block length, returns the payload from the `EBUF` that `FENC`
left, also with up to `floor(NPAR / 2)` bytes changed in each ECC block. The changed bytes rest on P3 of R163 (log
entry 7). -/
def Obligations.FdecInvertsFenc : Prop :=
  ∀ s : State, s.Legal → 2 ≤ msgCap s →
    let nb := s.len.toNat / (msgCap s - 1) + 1
    nb * blockLen s ≤ s.params.ebufSize.val →
    ∃ t, exec .fenc s = .next t ∧
      ∀ v : State, v.Legal → v.params = t.params → v.eccBlockLength = t.eccBlockLength → v.elen = t.elen →
        (∀ i < nb, changedCount (blockLen s) (fun j => ebufByte v (i * blockLen s + j))
          (fun j => ebufByte t (i * blockLen s + j)) ≤ s.params.npar.val / 2) →
        s.len.toNat ≤ v.maxlen.toNat →
        ∃ u, exec .fdec v = .next u ∧ u.err = 0 ∧ u.result = s.len ∧ u.len = s.len ∧
          ∀ a < s.len.toNat, pbufByte u a = pbufByte s a

/-- `ECCLEN`, `ECCCEIL` and `CAPECC` (42_ecc_framer.md R185, R186, R187): each value, or its error. -/
def Obligations.CapacityCommandsCompute : Prop :=
  ∀ s : State, 1 ≤ msgCap s →
    let x := s.arg0.toNat; let b := blockLen s; let m := msgCap s
    (m < 2 → exec .ecclen s = .next (failed 1 0x18 s)) ∧
    (2 ≤ m → (x / (m - 1) + 1) * b ≤ lenMax →
      exec .ecclen s = .next (succeeded ((x / (m - 1) + 1) * b) s)) ∧
    (2 ≤ m → lenMax < (x / (m - 1) + 1) * b → exec .ecclen s = .next (failed 5 0x52 s)) ∧
    ((x + b - 1) / b * b ≤ lenMax → exec .eccceil s = .next (succeeded ((x + b - 1) / b * b) s)) ∧
    (lenMax < (x + b - 1) / b * b → exec .eccceil s = .next (failed 5 0x52 s)) ∧
    (x / b * (m - 1) ≤ lenMax → exec .capecc s = .next (succeeded (x / b * (m - 1)) s)) ∧
    (lenMax < x / b * (m - 1) → exec .capecc s = .next (failed 5 0x52 s))

/-- The laws of the capacity arithmetic (42_ecc_framer.md R188). -/
def Obligations.CapacityArithmeticLaws : Prop :=
  ∀ b m : Nat, 1 ≤ m → m ≤ b →
    (∀ x y, x ≤ y → capacityAfterEcc b m x ≤ capacityAfterEcc b m y) ∧
    (∀ x, 0 < x → capacityAfterEcc b m x < x) ∧
    (∀ l, 2 ≤ m →
      b ∣ eccLengthForMessage b m l ∧
      eccBlockCeiling b (eccLengthForMessage b m l) = eccLengthForMessage b m l ∧
      capacityAfterEcc b m (eccLengthForMessage b m l) = (l / (m - 1) + 1) * (m - 1) ∧
      l < capacityAfterEcc b m (eccLengthForMessage b m l))

/-! ### CapacityModel -/

/-- `RAWCAP` (43_capacity.md R200) and `CAP` (R202, R203): the number of blocks; and ECC overhead first, then
the 4 bytes of the prefix, where a result that is not positive is an error. -/
def Obligations.CapacityOfTheImage : Prop :=
  ∀ s : State,
    let n := s.wb.toNat * s.hb.toNat
    let c : Int :=
      (if s.eccMethod = .reedSolomon then ((n / blockLen s * (msgCap s - 1) : Nat) : Int) else (n : Int)) -
        (if s.embedLength then 4 else 0)
    (lenMax < n → exec .rawcap s = .next (failed 5 0x52 s) ∧ exec .cap s = .next (failed 5 0x52 s)) ∧
    (n ≤ lenMax → exec .rawcap s = .next (succeeded n s)) ∧
    (n ≤ lenMax → c ≤ 0 → exec .cap s = .next (failed 2 0x22 s)) ∧
    (n ≤ lenMax → 0 < c → exec .cap s = .next (succeeded c.toNat s))

/-! ### The length prefix -/

/-- `LENWR` (44_embed_extract.md R221): byte `i` of `ARG0` packed into block `i`, for the four blocks 0 to 3;
every other block and everything else unchanged. -/
def Obligations.LenwrWritesThePrefix : Prop :=
  ∀ s : State, s.slotsReady → 4 ≤ blockProduct s → 4 ≤ s.coef.length →
    ∃ t, exec .lenwr s = .next t ∧ t = { succeeded 4 s with coef := t.coef } ∧
      ∀ n, t.coef[n]? =
        if n < 4 then
          (s.coef[n]?).map (packBlock (slots s) (BitVec.ofNat 8 (s.arg0.toNat / 256 ^ n)))
        else s.coef[n]?

/-- `LENRD` (44_embed_extract.md R222): the little-endian number that blocks 0 to 3 carry, or the overflow
error; nothing else changes. For a coefficient outside `0..3` the model follows 41_bit_packer.md R144 (log
entry 11). -/
def Obligations.LenrdReadsThePrefix : Prop :=
  ∀ s : State, s.slotsReady → 4 ≤ blockProduct s → 4 ≤ s.coef.length →
    let v := (carried s 0).toNat + 256 * (carried s 1).toNat + 256 ^ 2 * (carried s 2).toNat +
      256 ^ 3 * (carried s 3).toNat
    (v ≤ lenMax → exec .lenrd s = .next (succeeded v s)) ∧
    (lenMax < v → exec .lenrd s = .next (failed 5 0x52 s))

/-- The prefix law on the machine (44_embed_extract.md R223): with four different slots, `LENRD` after `LENWR`
returns the length, where it fits `RESULT`. -/
def Obligations.LenrdInvertsLenwr : Prop :=
  ∀ s : State, s.slotsReady → s.distinctSlots → 4 ≤ blockProduct s → 4 ≤ s.coef.length →
    s.arg0.toNat ≤ lenMax →
    ∃ t, exec .lenwr s = .next t ∧ exec .lenrd t = .next (succeeded s.arg0.toNat t)

/-! ### The engines -/

/-- `EMBED` with a resolved selection (44_embed_extract.md R225, R227 to R230): the prefix, then the raw bytes,
one per block in linear order, until they or the blocks run out; what is reported; nothing else changes. The
count after a truncation with ECC is the open `eccTruncCount` (log entry 8). -/
def Obligations.EmbedWritesPrefixThenRawBytes : Prop :=
  ∀ s : State, s.slotsReady → s.geometryFits → s.encodable → Memory.wf s.ebuf = true →
    let d := rawBytes s
    let pre := min (prefixBlocks s) (blockProduct s)
    let cnt := min d.length (blockProduct s - pre)
    (0 < d.length → 0 < cnt) →
    ∃ t, exec .embed s = .next t ∧
      t = { succeeded t.result.toNat s with
        phase := .done, blk := BitVec.ofNat 32 (pre + cnt), k := BitVec.ofNat 32 cnt
        coef := t.coef, ebuf := t.ebuf, elen := t.elen } ∧
      (∀ n, t.coef[n]? =
        if n < pre then (s.coef[n]?).map (packBlock (slots s) (BitVec.ofNat 8 (d.length / 256 ^ n)))
        else if n < pre + cnt then (s.coef[n]?).map (packBlock (slots s) (d.getD (n - pre) 0))
        else s.coef[n]?) ∧
      (s.eccMethod = .none → t.result.toNat = cnt ∧ t.ebuf = s.ebuf ∧ t.elen = s.elen) ∧
      (s.eccMethod = .reedSolomon →
        t.elen = BitVec.ofNat 32 d.length ∧
        (∀ a, ebufByte t a = if a < d.length then d.getD a 0 else ebufByte s a) ∧
        (cnt = d.length → t.result = s.len) ∧
        (cnt < d.length →
          t.result = BitVec.ofNat 32 (eccTruncCount s.len.toNat cnt (blockLen s) (msgCap s))))

/-- `EMBED` where no raw byte could be written (44_embed_extract.md R232, R233): the error 0x23, the prefix
bytes that fit still written; with ECC `EBUF` and `ELEN` hold the encoded payload (60_exceptions.md R287). -/
def Obligations.EmbedOfNothingFails : Prop :=
  ∀ s : State, s.slotsReady → s.geometryFits → s.encodable →
    let d := rawBytes s
    let pre := min (prefixBlocks s) (blockProduct s)
    0 < d.length → blockProduct s = pre →
    ∃ t, exec .embed s = .next t ∧
      t = { scanFailed 2 0x23 s with
        blk := BitVec.ofNat 32 pre, k := 0, coef := t.coef, ebuf := t.ebuf, elen := t.elen } ∧
      (∀ n, t.coef[n]? =
        if n < pre then (s.coef[n]?).map (packBlock (slots s) (BitVec.ofNat 8 (d.length / 256 ^ n)))
        else s.coef[n]?) ∧
      (s.eccMethod = .none → t.ebuf = s.ebuf ∧ t.elen = s.elen) ∧
      (s.eccMethod = .reedSolomon → Memory.wf s.ebuf = true →
        t.elen = BitVec.ofNat 32 d.length ∧
        ∀ a, ebufByte t a = if a < d.length then d.getD a 0 else ebufByte s a)

/-- `EXTRACT` without ECC (44_embed_extract.md R239, R241 to R244): the target, the bytes read, and their
delivery, whole or cut at `MAXLEN` with the buffer error; nothing else changes. For a coefficient outside `0..3`
the model follows 41_bit_packer.md R144 (log entry 11). -/
def Obligations.ExtractDeliversTheCarriedBytes : Prop :=
  ∀ s : State, s.slotsReady → s.geometryFits → s.eccMethod = .none → Memory.wf s.pbuf = true →
    prefixBlocks s ≤ blockProduct s →
    let target := if s.embedLength then min (carriedLength s) s.maxlen.toNat else s.arg0.toNat
    let n := min target (blockProduct s - prefixBlocks s)
    ∃ t, exec .extract s = .next t ∧
      (n ≤ s.maxlen.toNat →
        t = { succeeded n s with
          phase := .done, blk := BitVec.ofNat 32 (prefixBlocks s + n), k := BitVec.ofNat 32 n
          pbuf := t.pbuf, len := BitVec.ofNat 32 n }) ∧
      (s.maxlen.toNat < n →
        t = { scanFailed 4 0x41 s with
          blk := BitVec.ofNat 32 (prefixBlocks s + n), k := BitVec.ofNat 32 n
          pbuf := t.pbuf, len := s.maxlen }) ∧
      ∀ a, pbufByte t a =
        if a < min n s.maxlen.toNat then carried s (prefixBlocks s + a) else pbufByte s a

/-- `EXTRACT` with ECC (44_embed_extract.md R239, R242, R245, R247, R248): the raw bytes rounded up to whole
blocks with zeros, stored in `EBUF`, decoded by the framing in force; then the format error, or the delivery,
whole or cut at `MAXLEN`; nothing else changes. For a coefficient outside `0..3` the model follows 41_bit_packer.md
R144 (log entry 11). -/
def Obligations.ExtractDecodesTheCarriedBytes : Prop :=
  ∀ s : State, s.slotsReady → s.geometryFits → s.eccMethod = .reedSolomon →
    Memory.wf s.pbuf = true → Memory.wf s.ebuf = true → 1 ≤ blockLen s →
    (s.framing = .lengthCarrying ∨ s.embedLength = false → 2 ≤ msgCap s) →
    prefixBlocks s ≤ blockProduct s →
    let target := if s.embedLength then min (carriedLength s) s.maxlen.toNat
      else (s.arg0.toNat / (msgCap s - 1) + 1) * blockLen s
    let n := min target (blockProduct s - prefixBlocks s)
    let n2 := eccBlockCeiling (blockLen s) n
    let raw := (List.range n).map (fun j => carried s (prefixBlocks s + j)) ++ zeros (n2 - n)
    let decoded := match s.framing with
      | .lengthCarrying => lcDecode (decoder s) (msgCap s) (eccBlocks (blockLen s) raw)
      | .lengthOmitting =>
        some (nlDecode (decoder s)
          (if s.embedLength then n2 / blockLen s * msgCap s else s.arg0.toNat)
          (eccBlocks (blockLen s) raw) [])
    target ≤ lenMax → n2 ≤ s.params.ebufSize.val →
    ∃ t, exec .extract s = .next t ∧
      (decoded = none →
        t = { scanFailed 3 0x32 s with
          blk := BitVec.ofNat 32 (prefixBlocks s + n), k := BitVec.ofNat 32 n
          len := 0, ebuf := t.ebuf, elen := BitVec.ofNat 32 n2 }) ∧
      (∀ d, decoded = some d → d.length ≤ s.maxlen.toNat →
        t = { succeeded d.length s with
          phase := .done, blk := BitVec.ofNat 32 (prefixBlocks s + n), k := BitVec.ofNat 32 n
          pbuf := t.pbuf, len := BitVec.ofNat 32 d.length
          ebuf := t.ebuf, elen := BitVec.ofNat 32 n2 }) ∧
      (∀ d, decoded = some d → s.maxlen.toNat < d.length →
        t = { scanFailed 4 0x41 s with
          blk := BitVec.ofNat 32 (prefixBlocks s + n), k := BitVec.ofNat 32 n
          pbuf := t.pbuf, len := s.maxlen, ebuf := t.ebuf, elen := BitVec.ofNat 32 n2 }) ∧
      (∀ d a, decoded = some d →
        pbufByte t a = if a < min d.length s.maxlen.toNat then d.getD a 0 else pbufByte s a) ∧
      ∀ a, ebufByte t a = if a < n2 then raw.getD a 0 else ebufByte s a

/-- The errors of `EMBED` in `EccEncode`, before any coefficient is written, in their order
(44_embed_extract.md R225). -/
def Obligations.EmbedEncodeErrorsInOrder : Prop :=
  ∀ s : State, s.slotsReady → s.eccMethod = .reedSolomon →
    let z := { s with blk := 0, k := 0 }
    let n := match s.framing with
      | .lengthCarrying => (s.len.toNat / (msgCap s - 1) + 1) * blockLen s
      | .lengthOmitting => (s.len.toNat + msgCap s - 1) / msgCap s * blockLen s
    (s.framing = .lengthCarrying → msgCap s < 2 → exec .embed s = .next (scanFailed 1 0x18 z)) ∧
    ((s.framing = .lengthCarrying → 2 ≤ msgCap s) → lenMax < n →
      exec .embed s = .next (scanFailed 5 0x52 z)) ∧
    ((s.framing = .lengthCarrying → 2 ≤ msgCap s) → n ≤ lenMax → s.params.ebufSize.val < n →
      exec .embed s = .next (scanFailed 5 0x51 z))

/-- The errors of `EXTRACT` before `ScanReadPayload`, in their order (44_embed_extract.md R239): `M < 2` where
the length byte is needed, fewer than four blocks for a prefix, a target above `LEN_MAX`, and raw bytes that,
rounded up, `EBUF` cannot hold or that pass `LEN_MAX`. After the prefix is read `BLK` is 4 (log entry 15). The length
that prefix coefficients outside `0..3` give follows 41_bit_packer.md R144 (log entry 11). -/
def Obligations.ExtractErrorsInOrder : Prop :=
  ∀ s : State, s.slotsReady →
    let z := { s with blk := 0, k := 0 }
    let needs := s.eccMethod = .reedSolomon ∧ (s.framing = .lengthCarrying ∨ s.embedLength = false)
    let target := (s.arg0.toNat / (msgCap s - 1) + 1) * blockLen s
    let n2 := (min target (blockProduct s) + blockLen s - 1) / blockLen s * blockLen s
    let m2 := (min (min (carriedLength s) s.maxlen.toNat) (blockProduct s - 4) + blockLen s - 1) /
      blockLen s * blockLen s
    (needs → msgCap s < 2 → exec .extract s = .next (scanFailed 1 0x18 z)) ∧
    ((needs → 2 ≤ msgCap s) → s.embedLength = true → blockProduct s < 4 →
      exec .extract s = .next (scanFailed 2 0x24 z)) ∧
    (s.eccMethod = .reedSolomon → s.embedLength = false → 2 ≤ msgCap s → lenMax < target →
      exec .extract s = .next (scanFailed 5 0x52 z)) ∧
    (s.eccMethod = .reedSolomon → s.embedLength = false → 2 ≤ msgCap s → target ≤ lenMax →
      s.params.ebufSize.val < n2 → exec .extract s = .next (scanFailed 5 0x51 z)) ∧
    (s.eccMethod = .reedSolomon → s.embedLength = true → (s.framing = .lengthCarrying → 2 ≤ msgCap s) →
      4 ≤ blockProduct s → 4 ≤ s.coef.length → 1 ≤ blockLen s → lenMax < m2 →
      exec .extract s = .next (scanFailed 5 0x52 { z with blk := 4 })) ∧
    (s.eccMethod = .reedSolomon → s.embedLength = true → (s.framing = .lengthCarrying → 2 ≤ msgCap s) →
      4 ≤ blockProduct s → 4 ≤ s.coef.length → 1 ≤ blockLen s → m2 ≤ lenMax → s.params.ebufSize.val < m2 →
      exec .extract s = .next (scanFailed 5 0x51 { z with blk := 4 }))

/-- The round trip without ECC (44_embed_extract.md R249 a): `EXTRACT`, in any session with the same channel,
returns the payload that `EMBED` wrote. -/
def Obligations.ExtractInvertsEmbedWithoutEcc : Prop :=
  ∀ s : State, s.Legal → s.slotsReady → s.geometryFits → s.distinctSlots → s.eccMethod = .none →
    s.embedLength = true → s.len.toNat + 4 ≤ blockProduct s →
    ∃ t, exec .embed s = .next t ∧ t.err = 0 ∧ t.result = s.len ∧
      ∀ v : State, v.Legal → t.sameChannel v → s.len.toNat ≤ v.maxlen.toNat →
        ∃ u, exec .extract v = .next u ∧ u.err = 0 ∧ u.result = s.len ∧ u.len = s.len ∧
          ∀ a < s.len.toNat, pbufByte u a = pbufByte s a

/-- The round trip with length-carrying ECC (44_embed_extract.md R249 b): `EXTRACT`, in any session with the same
settings, returns the payload that `EMBED` wrote, also after the image was changed, as long as blocks 0 to 3 carry
the bytes they did and at most `floor(NPAR / 2)` of the blocks of each ECC block carry another byte. The changed
bytes rest on P3 of 42_ecc_framer.md R163 (log entry 7); what changed coefficients outside `0..3` carry follows
41_bit_packer.md R144 (log entry 11). -/
def Obligations.ExtractInvertsEmbedWithEcc : Prop :=
  ∀ s : State, s.Legal → s.slotsReady → s.geometryFits → s.distinctSlots →
    s.eccMethod = .reedSolomon → s.framing = .lengthCarrying → s.embedLength = true → 2 ≤ msgCap s →
    let nb := s.len.toNat / (msgCap s - 1) + 1
    4 + nb * blockLen s ≤ blockProduct s → nb * blockLen s ≤ s.params.ebufSize.val →
    ∃ t, exec .embed s = .next t ∧ t.err = 0 ∧ t.result = s.len ∧
      ∀ v : State, v.Legal → t.sameSettings v → v.geometryFits →
        (∀ n < 4, carried v n = carried t n) →
        (∀ i < nb, changedCount (blockLen s) (fun j => carried v (4 + i * blockLen s + j))
          (fun j => carried t (4 + i * blockLen s + j)) ≤ s.params.npar.val / 2) →
        nb * blockLen s ≤ v.maxlen.toNat →
        ∃ u, exec .extract v = .next u ∧ u.err = 0 ∧ u.result = s.len ∧ u.len = s.len ∧
          ∀ a < s.len.toNat, pbufByte u a = pbufByte s a

/-- Truncation (44_embed_extract.md R249 c, R230): a payload longer than the image can carry is embedded as far
as the blocks go, with a smaller count and no error, and exactly that many leading bytes come back. -/
def Obligations.TruncatedEmbedExtractsItsLeadingBytes : Prop :=
  ∀ s : State, s.Legal → s.slotsReady → s.geometryFits → s.distinctSlots → s.eccMethod = .none →
    s.embedLength = true → 4 < blockProduct s → blockProduct s < s.len.toNat + 4 →
    ∃ t, exec .embed s = .next t ∧ t.err = 0 ∧ t.result.toNat = blockProduct s - 4 ∧
      t.result.toNat < s.len.toNat ∧
      ∀ v : State, v.Legal → t.sameChannel v → blockProduct s - 4 ≤ v.maxlen.toNat →
        ∃ u, exec .extract v = .next u ∧ u.err = 0 ∧ u.result = t.result ∧ u.len = t.result ∧
          ∀ a < t.result.toNat, pbufByte u a = pbufByte s a

/-- `EMBED` is the embed state machine run to its end (44_embed_extract.md R226). -/
def Obligations.EmbedRunsItsStateMachine : Prop :=
  ∀ s : State, ∃ n : Nat,
    (∀ t, exec .embed s = .next t →
      ∃ r, runTransitions embedTransition n (ScanRun.start s) = .ok r ∧ r.st = t ∧ t.phase = .done) ∧
    (∀ f, exec .embed s = .fault f → runTransitions embedTransition n (ScanRun.start s) = .error f)

/-- `EXTRACT` is the extract state machine run to its end (44_embed_extract.md R240). -/
def Obligations.ExtractRunsItsStateMachine : Prop :=
  ∀ s : State, ∃ n : Nat,
    (∀ t, exec .extract s = .next t →
      ∃ r, runTransitions extractTransition n (ScanRun.start s) = .ok r ∧ r.st = t ∧ t.phase = .done) ∧
    (∀ f, exec .extract s = .fault f → runTransitions extractTransition n (ScanRun.start s) = .error f)

/-! ### Host accesses -/

/-- `HostRead` (45_config_access.md R260): the element's value, and no side effect; the answer stands in the
model's `reply` (log entry 2). A table entry never written, and a slot at or above `NFREQS`, answer some value of
their width, and only the model's count of such reads moves (log entry 6). -/
def Obligations.HostReadAnswersTheElement : Prop :=
  ∀ (s : State) (rest : List Input),
    let answer := fun v : Int => Host.Outcome.next (φ := Fault) (ρ := Refusal)
      { s with pending := rest, reply := .value v }
    let anyAnswer := fun v : Nat => Host.Outcome.next (φ := Fault) (ρ := Refusal)
      { s with pending := rest, reply := .value v, draws := s.draws + 1 }
    (∀ r : RegName, s.pending = .read .reg r.number :: rest → step s = answer (regValue r s)) ∧
    (∀ j : Slot, j.val < s.nfreqs.toNat → s.pending = .read .freq j.val :: rest →
      step s = answer (s.freqs.get j).val) ∧
    (∀ (p : Slot) (q : Nat), s.qt.get p = some q → s.pending = .read .qt p.val :: rest →
      step s = answer q) ∧
    (∀ j : Slot, s.nfreqs.toNat ≤ j.val → s.pending = .read .freq j.val :: rest →
      ∃ v ≤ 63, step s = anyAnswer v) ∧
    (∀ p : Slot, s.qt.get p = none → s.pending = .read .qt p.val :: rest →
      ∃ v < 2 ^ s.params.qw, step s = anyAnswer v) ∧
    (∀ a < s.params.pbufSize.val, s.pending = .read .pbuf a :: rest →
      step s = answer (pbufByte s a).toNat) ∧
    (∀ a < s.params.ebufSize.val, s.pending = .read .ebuf a :: rest →
      step s = answer (ebufByte s a).toNat)

/-- `reject` (45_config_access.md R262): an access that fails a check of R260 or R261 writes `ERR`, `ERRINFO`,
`ESTICKY` and the answer to the host (log entry 2), and nothing else: no element changes, no command runs. -/
def Obligations.RefusedAccessesOnlyRecordTheirCause : Prop :=
  ∀ (s : State) (rest : List Input) (x : Input) (d : BitVec 8), s.pending = x :: rest →
    Refused s.params x d →
    step s = .next
      { s with pending := rest, err := 1, errinfo := d, esticky := s.esticky ||| 0x02, reply := .rejected }

/-- A write of a legal value, in the ranges of 45_config_access.md R261, to a writable register other than `CMD`: a later read returns the
value, every other register reads as before, and the tables and stores are unchanged. The queue, the reply and
the counters are the model's choice (log entries 1, 2, 5, 6). -/
def Obligations.RegisterWriteIsReadBack : Prop :=
  ∀ (s : State) (rest : List Input) (r : RegName) (v : Nat),
    LegalWrite s.params r v →
    s.pending = .write .reg r.number v :: rest →
    ∃ t, step s = .next t ∧ t.pending = rest ∧ t.reply = .written ∧ regValue r t = v ∧
      (∀ r' : RegName, r' ≠ r → regValue r' t = regValue r' s) ∧
      t.freqs = s.freqs ∧ t.qt = s.qt ∧ t.pbuf = s.pbuf ∧ t.ebuf = s.ebuf ∧ t.coef = s.coef ∧
      t.params = s.params ∧ t.resets = s.resets ∧ t.draws = s.draws

/-- A legal write to a table entry, a slot entry or a store byte (45_config_access.md R261); a write to `QT`
clears `NFREQS` (10_state.md R57). The queue and the reply are the model's choice (log entries 1, 2). -/
def Obligations.ElementWritesTakeEffect : Prop :=
  ∀ (s : State) (rest : List Input),
    (∀ (p : Slot) (v : Nat), 0 < v → v < 2 ^ s.params.qw → s.pending = .write .qt p.val v :: rest →
      step s = .next
        { s with pending := rest, qt := s.qt.set p.val (some v), nfreqs := 0, reply := .written }) ∧
    (∀ j f : Slot, s.pending = .write .freq j.val f.val :: rest →
      step s = .next { s with pending := rest, freqs := s.freqs.set j.val f, reply := .written }) ∧
    (∀ (a : Nat) (v : Byte), a < s.params.pbufSize.val → Memory.wf s.pbuf = true →
      s.pending = .write .pbuf a v.toNat :: rest →
      ∃ t, step s = .next t ∧ t = { s with pending := rest, pbuf := t.pbuf, reply := .written } ∧
        ∀ x, pbufByte t x = if x = a then v else pbufByte s x) ∧
    (∀ (a : Nat) (v : Byte), a < s.params.ebufSize.val → Memory.wf s.ebuf = true →
      s.pending = .write .ebuf a v.toNat :: rest →
      ∃ t, step s = .next t ∧ t = { s with pending := rest, ebuf := t.ebuf, reply := .written } ∧
        ∀ x, ebufByte t x = if x = a then v else ebufByte s x)
end

