-- ==== Sys2Proof/Laws/Access.lean ====
section
/-! SUPPORT. The host's side, said once: what a step takes, which register a number names, and what a write to a
register leaves. -/

namespace Sys2Proof.Machine

/-- With nothing waiting a step changes nothing. -/
theorem step_idle {s : State} (h : s.pending = []) : step s = .next s := by simp only [step, h]

/-- A step takes the oldest input. -/
theorem step_takes {s : State} {x : Input} {rest : List Input} (h : s.pending = x :: rest) :
    step s = takeInput exec x { s with pending := rest } := by simp only [step, h]

/-- A register's number names it (10_state.md R54). -/
@[simp] theorem ofNumber_number (r : RegName) : RegName.ofNumber r.number = some r := by cases r <;> rfl

/-- A register's number exists. -/
@[simp] theorem addressCheck_number (r : RegName) (s : State) : addressCheck .reg r.number s = none := by
  simp [addressCheck]

/-- The checks of a write to a register. -/
@[simp] theorem writeCheck_number (r : RegName) (v : Nat) (s : State) :
    writeCheck .reg r.number v s = regWriteCheck r v s := by simp [writeCheck]

/-- The ranges of 45_config_access.md R261 are those that the checks admit. -/
theorem legalWrite_iff {p : Params} {r : RegName} {v : Nat} :
    LegalWrite p r v ↔ regReadOnly r = false ∧ regLegal r v p = true ∧ r ≠ .cmd := by
  constructor
  · intro h
    cases h with
    | word _ _ hr hv | flag _ _ hr hv | count _ _ hr hv | payloadLength _ _ hr hv =>
      simp only [List.mem_cons, List.not_mem_nil, or_false] at hr
      rcases hr with rfl | rfl | rfl | rfl | rfl | rfl | rfl <;>
        exact ⟨rfl, by simpa only [regLegal, decide_eq_true_eq] using hv, RegName.noConfusion⟩
    | nlevels _ hv | encodedLength _ hv =>
      exact ⟨rfl, by simpa only [regLegal, decide_eq_true_eq] using hv, RegName.noConfusion⟩
    | blockLength _ h1 h2 | sampling _ h1 h2 => exact ⟨rfl, by simp only [regLegal, h1, h2, decide_true, Bool.and_self], RegName.noConfusion⟩
    | bitsPerFreq | bytesPerMcu | comp => exact ⟨rfl, rfl, RegName.noConfusion⟩
  · rintro ⟨h1, h2, h3⟩
    cases r <;> simp only [regReadOnly, Bool.true_eq_false] at h1 <;>
      simp only [regLegal, Bool.and_eq_true, decide_eq_true_eq, beq_iff_eq] at h2
    case cmd => exact absurd rfl h3
    case arg0 | arg1 | seed | quality | ethresh | wb | hb => exact .word _ v (by simp) h2
    case embedLength | eccMethod | framing => exact .flag _ v (by simp) h2
    case eccBlockLength => exact .blockLength v h2.1 h2.2
    case bitsPerFreq => exact h2 ▸ .bitsPerFreq
    case bytesPerMcu => exact h2 ▸ .bytesPerMcu
    case comp => exact h2 ▸ .comp
    case pool | nfreqs => exact .count _ v (by simp) h2
    case nlevels => exact .nlevels v h2
    case len | maxlen => exact .payloadLength _ v (by simp) h2
    case elen => exact .encodedLength v h2
    case vsamp => exact .sampling v h2.1 h2.2

/-- A legal value passes. -/
theorem regWriteCheck_legal {r : RegName} {v : Nat} {s : State} (h1 : regReadOnly r = false)
    (h2 : regLegal r v s.params = true) : regWriteCheck r v s = none := by simp [regWriteCheck, h1, h2]

/-- A legal write to a register other than `CMD`. -/
theorem takeInput_writeReg {r : RegName} {v : Nat} {s : State} (h1 : regReadOnly r = false)
    (h2 : regLegal r v s.params = true) (h3 : r ≠ .cmd) :
    takeInput exec (.write .reg r.number v) s = .next { setReg r v s with reply := .written } := by
  have h := regWriteCheck_legal h1 h2
  simp only [takeInput, hostWrite, writeCheck_number, h]
  cases r <;> first | rfl | exact absurd rfl h3

/-- A write to `CMD` of a value in 0..255. -/
theorem takeInput_writeCmd {v : Nat} {s : State} (h : v ≤ 255) :
    takeInput exec (.write .reg 0x00 v) s = runCommand exec v s := by
  have h1 : regWriteCheck .cmd v s = none := regWriteCheck_legal rfl (by simpa [regLegal] using h)
  have h2 : writeCheck .reg 0x00 v s = none := h1
  simp only [takeInput, hostWrite, h2]; rfl

/-- A register holds the legal value written to it. -/
theorem regValue_setReg {r : RegName} {v : Nat} {s : State} (h1 : regReadOnly r = false)
    (h2 : regLegal r v s.params = true) : regValue r (setReg r v s) = v := by
  cases r <;> simp only [regReadOnly, Bool.true_eq_false] at h1 <;>
    simp only [regLegal, Bool.and_eq_true, decide_eq_true_eq, beq_iff_eq] at h2 <;>
    simp only [regValue, setReg, BitVec.toNat_ofNat, Int.natCast_inj]
  case embedLength => rcases Nat.le_one_iff_eq_zero_or_eq_one.1 h2 with rfl | rfl <;> rfl
  case eccMethod => rcases Nat.le_one_iff_eq_zero_or_eq_one.1 h2 with rfl | rfl <;> rfl
  case framing => rcases Nat.le_one_iff_eq_zero_or_eq_one.1 h2 with rfl | rfl <;> rfl
  case len => have := s.params.pbufSize.isLt; omega
  case maxlen => have := s.params.pbufSize.isLt; omega
  case elen => have := s.params.ebufSize.isLt; omega
  all_goals omega

/-- A write to a register leaves the others. -/
theorem regValue_setReg_ne {r r' : RegName} {v : Nat} {s : State} (h : r' ≠ r) :
    regValue r' (setReg r v s) = regValue r' s := by
  cases r <;> first
    | rfl
    | (cases r' <;> first | rfl | exact absurd rfl h)

end Sys2Proof.Machine
end

