-- ==== Sys2Proof/Laws/Memory.lean ====
section
/-! SUPPORT. The laws of the byte stores: a write keeps the canonical form, a read after a write, and what
consecutive writes leave. -/

namespace Sys2Proof.Machine

/-- The canonical form, cell by cell. -/
theorem Memory.wf_cons (a : Nat) (v : Byte) (m : Memory) :
    Memory.wf ((a, v) :: m) = true ↔ (∀ c ∈ m, a < c.1) ∧ Memory.wf m = true := by
  induction m generalizing a v with
  | nil => simp [Memory.wf]
  | cons c m ih =>
    obtain ⟨b, w⟩ := c
    simp only [Memory.wf, Bool.and_eq_true, decide_eq_true_eq, List.mem_cons, forall_eq_or_imp, ih b w]
    constructor
    · rintro ⟨hab, hb, hm⟩
      exact ⟨⟨hab, fun c hc => lt_trans hab (hb c hc)⟩, hb, hm⟩
    · rintro ⟨⟨hab, _⟩, hb, hm⟩
      exact ⟨hab, hb, hm⟩

/-- Which cells a write can leave. -/
theorem Memory.mem_write {m : Memory} {a : Nat} {v : Byte} {c : Host.Cell}
    (h : c ∈ Memory.write m a v) : c = (a, v) ∨ c ∈ m := by
  induction m with
  | nil => simp only [Memory.write, List.mem_singleton] at h; exact .inl h
  | cons d m ih =>
    obtain ⟨b, w⟩ := d
    simp only [Memory.write] at h
    split at h
    · simpa using h
    · split at h
      · rcases List.mem_cons.1 h with h | h
        · exact .inl h
        · exact .inr (List.mem_cons_of_mem _ h)
      · rcases List.mem_cons.1 h with h | h
        · exact .inr (h ▸ List.mem_cons_self ..)
        · exact (ih h).imp_right (List.mem_cons_of_mem _)

/-- A write keeps the canonical form. -/
theorem Memory.wf_write {m : Memory} (h : Memory.wf m = true) (a : Nat) (v : Byte) :
    Memory.wf (Memory.write m a v) = true := by
  induction m with
  | nil => rfl
  | cons d m ih =>
    obtain ⟨b, w⟩ := d
    obtain ⟨hb, hm⟩ := (Memory.wf_cons b w m).1 h
    simp only [Memory.write]
    split
    · rename_i hab
      refine (Memory.wf_cons ..).2 ⟨fun c hc => ?_, h⟩
      rcases List.mem_cons.1 hc with rfl | hc
      · exact hab
      · exact lt_trans hab (hb c hc)
    · split
      · rename_i hab
        exact (Memory.wf_cons ..).2 ⟨fun c hc => hab ▸ hb c hc, hm⟩
      · refine (Memory.wf_cons ..).2 ⟨fun c hc => ?_, ih hm⟩
        rcases Memory.mem_write hc with rfl | hc
        · show b < a; omega
        · exact hb c hc

/-- Consecutive writes keep the canonical form. -/
theorem Memory.wf_writeBytes {m : Memory} (h : Memory.wf m = true) (a : Nat) (d : List Byte) :
    Memory.wf (Memory.writeBytes m a d) = true := by
  induction d generalizing m a with
  | nil => exact h
  | cons v d ih => exact ih (Memory.wf_write h a v) (a + 1)

/-- Which addresses consecutive writes can leave in a store. -/
theorem Memory.mem_writeBytes {d : List Byte} {m : Memory} {a : Nat} {c : Host.Cell}
    (h : c ∈ Memory.writeBytes m a d) : (a ≤ c.1 ∧ c.1 < a + d.length) ∨ c ∈ m := by
  induction d generalizing m a with
  | nil => exact .inr h
  | cons v d ih =>
    rcases ih h with h | h
    · left; simp only [List.length_cons]; omega
    · rcases Memory.mem_write h with rfl | h
      · left; simp
      · exact .inr h

/-- A read after a write: the byte written at its address, every other byte as before. -/
theorem Memory.read_write {m : Memory} (h : Memory.wf m = true) (a : Nat) (v : Byte) (x : Nat) :
    Memory.read (Memory.write m a v) x = if x = a then some v else Memory.read m x := by
  induction m with
  | nil => simp [Memory.write, Memory.read]
  | cons d m ih =>
    obtain ⟨b, w⟩ := d
    obtain ⟨hb, hm⟩ := (Memory.wf_cons b w m).1 h
    simp only [Memory.write]
    split
    · simp only [Memory.read]
    · split
      · rename_i hab; subst hab
        simp only [Memory.read]
        split <;> rfl
      · rename_i hba hab
        simp only [Memory.read, ih hm]
        by_cases hx : x = b
        · subst hx; simp [Ne.symm hab]
        · simp [hx]

/-- A read after consecutive writes. -/
theorem Memory.read_writeBytes {d : List Byte} {m : Memory} (h : Memory.wf m = true) (a x : Nat) :
    Memory.read (Memory.writeBytes m a d) x =
      if a ≤ x ∧ x < a + d.length then d[x - a]? else Memory.read m x := by
  induction d generalizing m a with
  | nil => rw [if_neg (by simp)]; rfl
  | cons v d ih =>
    have hstep := ih (Memory.wf_write h a v) (a + 1)
    simp only [Memory.writeBytes, List.length_cons]
    rw [hstep, Memory.read_write h]
    by_cases hx : x = a
    · subst hx
      rw [if_neg (by omega), if_pos rfl, if_pos (by omega)]
      simp
    · by_cases hr : a + 1 ≤ x ∧ x < a + 1 + d.length
      · rw [if_pos hr, if_pos (by omega)]
        have : x - a = (x - (a + 1)) + 1 := by omega
        rw [this, List.getElem?_cons_succ]
      · rw [if_neg hr, if_neg hx, if_neg (by omega)]

/-- `EBUF[0..n)` right after `n` bytes were stored there. -/
theorem ebufBytes_storeEbuf {s : State} (h : Memory.wf s.ebuf = true) (e : List Byte) :
    ebufBytes (storeEbuf e s) e.length = e := by
  apply List.ext_getElem
  · simp [ebufBytes]
  · intro i h1 h2
    have hr : Memory.read (Memory.writeBytes s.ebuf 0 e) i = e[i]? := by
      rw [Memory.read_writeBytes h, if_pos (by omega), Nat.sub_zero]
    simp [ebufBytes, ebufByte, storeEbuf, hr, List.getElem?_eq_getElem h2]

/-- `PBUF[0..n)` of a state whose `PBUF` was just written with at least `n` bytes. -/
theorem pbufBytes_writeBytes {s : State} (h : Memory.wf s.pbuf = true) (d : List Byte) (n : Nat)
    (hn : n ≤ d.length) :
    pbufBytes { s with pbuf := Memory.writeBytes s.pbuf 0 d } n = d.take n := by
  apply List.ext_getElem
  · simp [pbufBytes]; omega
  · intro i h1 h2
    have hi : i < d.length := by simp at h2; omega
    have hr : Memory.read (Memory.writeBytes s.pbuf 0 d) i = d[i]? := by
      rw [Memory.read_writeBytes h, if_pos (by omega), Nat.sub_zero]
    simp [pbufBytes, pbufByte, hr, List.getElem?_eq_getElem hi]

/-- A byte of `EBUF` right after bytes were stored there. -/
theorem ebufByte_storeEbuf {s : State} (h : Memory.wf s.ebuf = true) (d : List Byte) (a : Nat) :
    ebufByte (storeEbuf d s) a = if a < d.length then d.getD a 0 else ebufByte s a := by
  simp only [ebufByte, storeEbuf, Memory.read_writeBytes h]
  by_cases ha : a < d.length
  · simp [ha]
  · simp [ha]

/-- A byte of `PBUF` right after bytes were delivered there. -/
theorem pbufByte_storePbuf {s : State} (h : Memory.wf s.pbuf = true) (d : List Byte) (a : Nat) :
    pbufByte (storePbuf d s) a = if a < d.length then d.getD a 0 else pbufByte s a := by
  simp only [pbufByte, storePbuf, Memory.read_writeBytes h]
  by_cases ha : a < d.length
  · simp [ha]
  · simp [ha]

end Sys2Proof.Machine
end

