-- ==== Sys2Proof/Laws/State.lean ====
section
/-! SUPPORT. What each named update of the state leaves in each field, so that no proof unfolds an update. -/

namespace Sys2Proof.Machine

/-! ### `raise` (60_exceptions.md R284) -/

@[simp] theorem raise_params (i : Option Instr) (c : Cause) (s : State) : (raise i c s).params = s.params := rfl
@[simp] theorem raise_cmd (i : Option Instr) (c : Cause) (s : State) : (raise i c s).cmd = s.cmd := rfl
@[simp] theorem raise_arg0 (i : Option Instr) (c : Cause) (s : State) : (raise i c s).arg0 = s.arg0 := rfl
@[simp] theorem raise_arg1 (i : Option Instr) (c : Cause) (s : State) : (raise i c s).arg1 = s.arg1 := rfl
@[simp] theorem raise_result (i : Option Instr) (c : Cause) (s : State) : (raise i c s).result = c.errClass.result := rfl
@[simp] theorem raise_err (i : Option Instr) (c : Cause) (s : State) : (raise i c s).err = c.errClass.err := rfl
@[simp] theorem raise_errinfo (i : Option Instr) (c : Cause) (s : State) : (raise i c s).errinfo = c.detail := rfl
@[simp] theorem raise_esticky (i : Option Instr) (c : Cause) (s : State) : (raise i c s).esticky = stickyAfter s.esticky c.errClass := rfl
@[simp] theorem raise_phase (i : Option Instr) (c : Cause) (s : State) : (raise i c s).phase = if isScan i then .done else s.phase := rfl
@[simp] theorem raise_blk (i : Option Instr) (c : Cause) (s : State) : (raise i c s).blk = s.blk := rfl
@[simp] theorem raise_k (i : Option Instr) (c : Cause) (s : State) : (raise i c s).k = s.k := rfl
@[simp] theorem raise_embedLength (i : Option Instr) (c : Cause) (s : State) : (raise i c s).embedLength = s.embedLength := rfl
@[simp] theorem raise_eccMethod (i : Option Instr) (c : Cause) (s : State) : (raise i c s).eccMethod = s.eccMethod := rfl
@[simp] theorem raise_eccBlockLength (i : Option Instr) (c : Cause) (s : State) : (raise i c s).eccBlockLength = s.eccBlockLength := rfl
@[simp] theorem raise_framing (i : Option Instr) (c : Cause) (s : State) : (raise i c s).framing = s.framing := rfl
@[simp] theorem raise_bitsPerFreq (i : Option Instr) (c : Cause) (s : State) : (raise i c s).bitsPerFreq = s.bitsPerFreq := rfl
@[simp] theorem raise_bytesPerMcu (i : Option Instr) (c : Cause) (s : State) : (raise i c s).bytesPerMcu = s.bytesPerMcu := rfl
@[simp] theorem raise_pool (i : Option Instr) (c : Cause) (s : State) : (raise i c s).pool = s.pool := rfl
@[simp] theorem raise_nlevels (i : Option Instr) (c : Cause) (s : State) : (raise i c s).nlevels = s.nlevels := rfl
@[simp] theorem raise_seed (i : Option Instr) (c : Cause) (s : State) : (raise i c s).seed = s.seed := rfl
@[simp] theorem raise_nfreqs (i : Option Instr) (c : Cause) (s : State) : (raise i c s).nfreqs = s.nfreqs := rfl
@[simp] theorem raise_quality (i : Option Instr) (c : Cause) (s : State) : (raise i c s).quality = s.quality := rfl
@[simp] theorem raise_ethresh (i : Option Instr) (c : Cause) (s : State) : (raise i c s).ethresh = s.ethresh := rfl
@[simp] theorem raise_comp (i : Option Instr) (c : Cause) (s : State) : (raise i c s).comp = s.comp := rfl
@[simp] theorem raise_len (i : Option Instr) (c : Cause) (s : State) : (raise i c s).len = s.len := rfl
@[simp] theorem raise_maxlen (i : Option Instr) (c : Cause) (s : State) : (raise i c s).maxlen = s.maxlen := rfl
@[simp] theorem raise_elen (i : Option Instr) (c : Cause) (s : State) : (raise i c s).elen = s.elen := rfl
@[simp] theorem raise_wb (i : Option Instr) (c : Cause) (s : State) : (raise i c s).wb = s.wb := rfl
@[simp] theorem raise_hb (i : Option Instr) (c : Cause) (s : State) : (raise i c s).hb = s.hb := rfl
@[simp] theorem raise_vsamp (i : Option Instr) (c : Cause) (s : State) : (raise i c s).vsamp = s.vsamp := rfl
@[simp] theorem raise_freqs (i : Option Instr) (c : Cause) (s : State) : (raise i c s).freqs = s.freqs := rfl
@[simp] theorem raise_qt (i : Option Instr) (c : Cause) (s : State) : (raise i c s).qt = s.qt := rfl
@[simp] theorem raise_pbuf (i : Option Instr) (c : Cause) (s : State) : (raise i c s).pbuf = s.pbuf := rfl
@[simp] theorem raise_ebuf (i : Option Instr) (c : Cause) (s : State) : (raise i c s).ebuf = s.ebuf := rfl
@[simp] theorem raise_coef (i : Option Instr) (c : Cause) (s : State) : (raise i c s).coef = s.coef := rfl
@[simp] theorem raise_pending (i : Option Instr) (c : Cause) (s : State) : (raise i c s).pending = s.pending := rfl
@[simp] theorem raise_reply (i : Option Instr) (c : Cause) (s : State) : (raise i c s).reply = s.reply := rfl
@[simp] theorem raise_resets (i : Option Instr) (c : Cause) (s : State) : (raise i c s).resets = s.resets := rfl
@[simp] theorem raise_draws (i : Option Instr) (c : Cause) (s : State) : (raise i c s).draws = s.draws := rfl
@[simp] theorem raise_slots (i : Option Instr) (c : Cause) (s : State) : slots (raise i c s) = slots s := rfl
@[simp] theorem raise_blockProduct (i : Option Instr) (c : Cause) (s : State) : blockProduct (raise i c s) = blockProduct s := rfl
@[simp] theorem raise_blockLen (i : Option Instr) (c : Cause) (s : State) : blockLen (raise i c s) = blockLen s := rfl
@[simp] theorem raise_msgCap (i : Option Instr) (c : Cause) (s : State) : msgCap (raise i c s) = msgCap s := rfl

/-! ### `done` (60_exceptions.md R285) -/

@[simp] theorem finish_params (v : Nat) (s : State) : (finish v s).params = s.params := rfl
@[simp] theorem finish_cmd (v : Nat) (s : State) : (finish v s).cmd = s.cmd := rfl
@[simp] theorem finish_arg0 (v : Nat) (s : State) : (finish v s).arg0 = s.arg0 := rfl
@[simp] theorem finish_arg1 (v : Nat) (s : State) : (finish v s).arg1 = s.arg1 := rfl
@[simp] theorem finish_result (v : Nat) (s : State) : (finish v s).result = BitVec.ofNat 32 v := rfl
@[simp] theorem finish_err (v : Nat) (s : State) : (finish v s).err = 0 := rfl
@[simp] theorem finish_errinfo (v : Nat) (s : State) : (finish v s).errinfo = 0 := rfl
@[simp] theorem finish_esticky (v : Nat) (s : State) : (finish v s).esticky = s.esticky := rfl
@[simp] theorem finish_phase (v : Nat) (s : State) : (finish v s).phase = s.phase := rfl
@[simp] theorem finish_blk (v : Nat) (s : State) : (finish v s).blk = s.blk := rfl
@[simp] theorem finish_k (v : Nat) (s : State) : (finish v s).k = s.k := rfl
@[simp] theorem finish_embedLength (v : Nat) (s : State) : (finish v s).embedLength = s.embedLength := rfl
@[simp] theorem finish_eccMethod (v : Nat) (s : State) : (finish v s).eccMethod = s.eccMethod := rfl
@[simp] theorem finish_eccBlockLength (v : Nat) (s : State) : (finish v s).eccBlockLength = s.eccBlockLength := rfl
@[simp] theorem finish_framing (v : Nat) (s : State) : (finish v s).framing = s.framing := rfl
@[simp] theorem finish_bitsPerFreq (v : Nat) (s : State) : (finish v s).bitsPerFreq = s.bitsPerFreq := rfl
@[simp] theorem finish_bytesPerMcu (v : Nat) (s : State) : (finish v s).bytesPerMcu = s.bytesPerMcu := rfl
@[simp] theorem finish_pool (v : Nat) (s : State) : (finish v s).pool = s.pool := rfl
@[simp] theorem finish_nlevels (v : Nat) (s : State) : (finish v s).nlevels = s.nlevels := rfl
@[simp] theorem finish_seed (v : Nat) (s : State) : (finish v s).seed = s.seed := rfl
@[simp] theorem finish_nfreqs (v : Nat) (s : State) : (finish v s).nfreqs = s.nfreqs := rfl
@[simp] theorem finish_quality (v : Nat) (s : State) : (finish v s).quality = s.quality := rfl
@[simp] theorem finish_ethresh (v : Nat) (s : State) : (finish v s).ethresh = s.ethresh := rfl
@[simp] theorem finish_comp (v : Nat) (s : State) : (finish v s).comp = s.comp := rfl
@[simp] theorem finish_len (v : Nat) (s : State) : (finish v s).len = s.len := rfl
@[simp] theorem finish_maxlen (v : Nat) (s : State) : (finish v s).maxlen = s.maxlen := rfl
@[simp] theorem finish_elen (v : Nat) (s : State) : (finish v s).elen = s.elen := rfl
@[simp] theorem finish_wb (v : Nat) (s : State) : (finish v s).wb = s.wb := rfl
@[simp] theorem finish_hb (v : Nat) (s : State) : (finish v s).hb = s.hb := rfl
@[simp] theorem finish_vsamp (v : Nat) (s : State) : (finish v s).vsamp = s.vsamp := rfl
@[simp] theorem finish_freqs (v : Nat) (s : State) : (finish v s).freqs = s.freqs := rfl
@[simp] theorem finish_qt (v : Nat) (s : State) : (finish v s).qt = s.qt := rfl
@[simp] theorem finish_pbuf (v : Nat) (s : State) : (finish v s).pbuf = s.pbuf := rfl
@[simp] theorem finish_ebuf (v : Nat) (s : State) : (finish v s).ebuf = s.ebuf := rfl
@[simp] theorem finish_coef (v : Nat) (s : State) : (finish v s).coef = s.coef := rfl
@[simp] theorem finish_pending (v : Nat) (s : State) : (finish v s).pending = s.pending := rfl
@[simp] theorem finish_reply (v : Nat) (s : State) : (finish v s).reply = s.reply := rfl
@[simp] theorem finish_resets (v : Nat) (s : State) : (finish v s).resets = s.resets := rfl
@[simp] theorem finish_draws (v : Nat) (s : State) : (finish v s).draws = s.draws := rfl
@[simp] theorem finish_slots (v : Nat) (s : State) : slots (finish v s) = slots s := rfl
@[simp] theorem finish_blockProduct (v : Nat) (s : State) : blockProduct (finish v s) = blockProduct s := rfl
@[simp] theorem finish_blockLen (v : Nat) (s : State) : blockLen (finish v s) = blockLen s := rfl
@[simp] theorem finish_msgCap (v : Nat) (s : State) : msgCap (finish v s) = msgCap s := rfl

/-! ### `reject` (45_config_access.md R262) -/

@[simp] theorem reject_params (c : Cause) (s : State) : (reject c s).params = s.params := rfl
@[simp] theorem reject_cmd (c : Cause) (s : State) : (reject c s).cmd = s.cmd := rfl
@[simp] theorem reject_arg0 (c : Cause) (s : State) : (reject c s).arg0 = s.arg0 := rfl
@[simp] theorem reject_arg1 (c : Cause) (s : State) : (reject c s).arg1 = s.arg1 := rfl
@[simp] theorem reject_result (c : Cause) (s : State) : (reject c s).result = s.result := rfl
@[simp] theorem reject_err (c : Cause) (s : State) : (reject c s).err = 1 := rfl
@[simp] theorem reject_errinfo (c : Cause) (s : State) : (reject c s).errinfo = c.detail := rfl
@[simp] theorem reject_esticky (c : Cause) (s : State) : (reject c s).esticky = s.esticky ||| 0x02 := rfl
@[simp] theorem reject_phase (c : Cause) (s : State) : (reject c s).phase = s.phase := rfl
@[simp] theorem reject_blk (c : Cause) (s : State) : (reject c s).blk = s.blk := rfl
@[simp] theorem reject_k (c : Cause) (s : State) : (reject c s).k = s.k := rfl
@[simp] theorem reject_embedLength (c : Cause) (s : State) : (reject c s).embedLength = s.embedLength := rfl
@[simp] theorem reject_eccMethod (c : Cause) (s : State) : (reject c s).eccMethod = s.eccMethod := rfl
@[simp] theorem reject_eccBlockLength (c : Cause) (s : State) : (reject c s).eccBlockLength = s.eccBlockLength := rfl
@[simp] theorem reject_framing (c : Cause) (s : State) : (reject c s).framing = s.framing := rfl
@[simp] theorem reject_bitsPerFreq (c : Cause) (s : State) : (reject c s).bitsPerFreq = s.bitsPerFreq := rfl
@[simp] theorem reject_bytesPerMcu (c : Cause) (s : State) : (reject c s).bytesPerMcu = s.bytesPerMcu := rfl
@[simp] theorem reject_pool (c : Cause) (s : State) : (reject c s).pool = s.pool := rfl
@[simp] theorem reject_nlevels (c : Cause) (s : State) : (reject c s).nlevels = s.nlevels := rfl
@[simp] theorem reject_seed (c : Cause) (s : State) : (reject c s).seed = s.seed := rfl
@[simp] theorem reject_nfreqs (c : Cause) (s : State) : (reject c s).nfreqs = s.nfreqs := rfl
@[simp] theorem reject_quality (c : Cause) (s : State) : (reject c s).quality = s.quality := rfl
@[simp] theorem reject_ethresh (c : Cause) (s : State) : (reject c s).ethresh = s.ethresh := rfl
@[simp] theorem reject_comp (c : Cause) (s : State) : (reject c s).comp = s.comp := rfl
@[simp] theorem reject_len (c : Cause) (s : State) : (reject c s).len = s.len := rfl
@[simp] theorem reject_maxlen (c : Cause) (s : State) : (reject c s).maxlen = s.maxlen := rfl
@[simp] theorem reject_elen (c : Cause) (s : State) : (reject c s).elen = s.elen := rfl
@[simp] theorem reject_wb (c : Cause) (s : State) : (reject c s).wb = s.wb := rfl
@[simp] theorem reject_hb (c : Cause) (s : State) : (reject c s).hb = s.hb := rfl
@[simp] theorem reject_vsamp (c : Cause) (s : State) : (reject c s).vsamp = s.vsamp := rfl
@[simp] theorem reject_freqs (c : Cause) (s : State) : (reject c s).freqs = s.freqs := rfl
@[simp] theorem reject_qt (c : Cause) (s : State) : (reject c s).qt = s.qt := rfl
@[simp] theorem reject_pbuf (c : Cause) (s : State) : (reject c s).pbuf = s.pbuf := rfl
@[simp] theorem reject_ebuf (c : Cause) (s : State) : (reject c s).ebuf = s.ebuf := rfl
@[simp] theorem reject_coef (c : Cause) (s : State) : (reject c s).coef = s.coef := rfl
@[simp] theorem reject_pending (c : Cause) (s : State) : (reject c s).pending = s.pending := rfl
@[simp] theorem reject_reply (c : Cause) (s : State) : (reject c s).reply = .rejected := rfl
@[simp] theorem reject_resets (c : Cause) (s : State) : (reject c s).resets = s.resets := rfl
@[simp] theorem reject_draws (c : Cause) (s : State) : (reject c s).draws = s.draws := rfl
@[simp] theorem reject_slots (c : Cause) (s : State) : slots (reject c s) = slots s := rfl
@[simp] theorem reject_blockProduct (c : Cause) (s : State) : blockProduct (reject c s) = blockProduct s := rfl
@[simp] theorem reject_blockLen (c : Cause) (s : State) : blockLen (reject c s) = blockLen s := rfl
@[simp] theorem reject_msgCap (c : Cause) (s : State) : msgCap (reject c s) = msgCap s := rfl

/-! ### storing an encoded buffer (42_ecc_framer.md R170) -/

@[simp] theorem storeEbuf_params (e : List Byte) (s : State) : (storeEbuf e s).params = s.params := rfl
@[simp] theorem storeEbuf_cmd (e : List Byte) (s : State) : (storeEbuf e s).cmd = s.cmd := rfl
@[simp] theorem storeEbuf_arg0 (e : List Byte) (s : State) : (storeEbuf e s).arg0 = s.arg0 := rfl
@[simp] theorem storeEbuf_arg1 (e : List Byte) (s : State) : (storeEbuf e s).arg1 = s.arg1 := rfl
@[simp] theorem storeEbuf_result (e : List Byte) (s : State) : (storeEbuf e s).result = s.result := rfl
@[simp] theorem storeEbuf_err (e : List Byte) (s : State) : (storeEbuf e s).err = s.err := rfl
@[simp] theorem storeEbuf_errinfo (e : List Byte) (s : State) : (storeEbuf e s).errinfo = s.errinfo := rfl
@[simp] theorem storeEbuf_esticky (e : List Byte) (s : State) : (storeEbuf e s).esticky = s.esticky := rfl
@[simp] theorem storeEbuf_phase (e : List Byte) (s : State) : (storeEbuf e s).phase = s.phase := rfl
@[simp] theorem storeEbuf_blk (e : List Byte) (s : State) : (storeEbuf e s).blk = s.blk := rfl
@[simp] theorem storeEbuf_k (e : List Byte) (s : State) : (storeEbuf e s).k = s.k := rfl
@[simp] theorem storeEbuf_embedLength (e : List Byte) (s : State) : (storeEbuf e s).embedLength = s.embedLength := rfl
@[simp] theorem storeEbuf_eccMethod (e : List Byte) (s : State) : (storeEbuf e s).eccMethod = s.eccMethod := rfl
@[simp] theorem storeEbuf_eccBlockLength (e : List Byte) (s : State) : (storeEbuf e s).eccBlockLength = s.eccBlockLength := rfl
@[simp] theorem storeEbuf_framing (e : List Byte) (s : State) : (storeEbuf e s).framing = s.framing := rfl
@[simp] theorem storeEbuf_bitsPerFreq (e : List Byte) (s : State) : (storeEbuf e s).bitsPerFreq = s.bitsPerFreq := rfl
@[simp] theorem storeEbuf_bytesPerMcu (e : List Byte) (s : State) : (storeEbuf e s).bytesPerMcu = s.bytesPerMcu := rfl
@[simp] theorem storeEbuf_pool (e : List Byte) (s : State) : (storeEbuf e s).pool = s.pool := rfl
@[simp] theorem storeEbuf_nlevels (e : List Byte) (s : State) : (storeEbuf e s).nlevels = s.nlevels := rfl
@[simp] theorem storeEbuf_seed (e : List Byte) (s : State) : (storeEbuf e s).seed = s.seed := rfl
@[simp] theorem storeEbuf_nfreqs (e : List Byte) (s : State) : (storeEbuf e s).nfreqs = s.nfreqs := rfl
@[simp] theorem storeEbuf_quality (e : List Byte) (s : State) : (storeEbuf e s).quality = s.quality := rfl
@[simp] theorem storeEbuf_ethresh (e : List Byte) (s : State) : (storeEbuf e s).ethresh = s.ethresh := rfl
@[simp] theorem storeEbuf_comp (e : List Byte) (s : State) : (storeEbuf e s).comp = s.comp := rfl
@[simp] theorem storeEbuf_len (e : List Byte) (s : State) : (storeEbuf e s).len = s.len := rfl
@[simp] theorem storeEbuf_maxlen (e : List Byte) (s : State) : (storeEbuf e s).maxlen = s.maxlen := rfl
@[simp] theorem storeEbuf_elen (e : List Byte) (s : State) : (storeEbuf e s).elen = BitVec.ofNat 32 e.length := rfl
@[simp] theorem storeEbuf_wb (e : List Byte) (s : State) : (storeEbuf e s).wb = s.wb := rfl
@[simp] theorem storeEbuf_hb (e : List Byte) (s : State) : (storeEbuf e s).hb = s.hb := rfl
@[simp] theorem storeEbuf_vsamp (e : List Byte) (s : State) : (storeEbuf e s).vsamp = s.vsamp := rfl
@[simp] theorem storeEbuf_freqs (e : List Byte) (s : State) : (storeEbuf e s).freqs = s.freqs := rfl
@[simp] theorem storeEbuf_qt (e : List Byte) (s : State) : (storeEbuf e s).qt = s.qt := rfl
@[simp] theorem storeEbuf_pbuf (e : List Byte) (s : State) : (storeEbuf e s).pbuf = s.pbuf := rfl
@[simp] theorem storeEbuf_ebuf (e : List Byte) (s : State) : (storeEbuf e s).ebuf = Memory.writeBytes s.ebuf 0 e := rfl
@[simp] theorem storeEbuf_coef (e : List Byte) (s : State) : (storeEbuf e s).coef = s.coef := rfl
@[simp] theorem storeEbuf_pending (e : List Byte) (s : State) : (storeEbuf e s).pending = s.pending := rfl
@[simp] theorem storeEbuf_reply (e : List Byte) (s : State) : (storeEbuf e s).reply = s.reply := rfl
@[simp] theorem storeEbuf_resets (e : List Byte) (s : State) : (storeEbuf e s).resets = s.resets := rfl
@[simp] theorem storeEbuf_draws (e : List Byte) (s : State) : (storeEbuf e s).draws = s.draws := rfl
@[simp] theorem storeEbuf_slots (e : List Byte) (s : State) : slots (storeEbuf e s) = slots s := rfl
@[simp] theorem storeEbuf_blockProduct (e : List Byte) (s : State) : blockProduct (storeEbuf e s) = blockProduct s := rfl
@[simp] theorem storeEbuf_blockLen (e : List Byte) (s : State) : blockLen (storeEbuf e s) = blockLen s := rfl
@[simp] theorem storeEbuf_msgCap (e : List Byte) (s : State) : msgCap (storeEbuf e s) = msgCap s := rfl

/-! ### delivering bytes (42_ecc_framer.md R176) -/

@[simp] theorem storePbuf_params (d : List Byte) (s : State) : (storePbuf d s).params = s.params := rfl
@[simp] theorem storePbuf_cmd (d : List Byte) (s : State) : (storePbuf d s).cmd = s.cmd := rfl
@[simp] theorem storePbuf_arg0 (d : List Byte) (s : State) : (storePbuf d s).arg0 = s.arg0 := rfl
@[simp] theorem storePbuf_arg1 (d : List Byte) (s : State) : (storePbuf d s).arg1 = s.arg1 := rfl
@[simp] theorem storePbuf_result (d : List Byte) (s : State) : (storePbuf d s).result = s.result := rfl
@[simp] theorem storePbuf_err (d : List Byte) (s : State) : (storePbuf d s).err = s.err := rfl
@[simp] theorem storePbuf_errinfo (d : List Byte) (s : State) : (storePbuf d s).errinfo = s.errinfo := rfl
@[simp] theorem storePbuf_esticky (d : List Byte) (s : State) : (storePbuf d s).esticky = s.esticky := rfl
@[simp] theorem storePbuf_phase (d : List Byte) (s : State) : (storePbuf d s).phase = s.phase := rfl
@[simp] theorem storePbuf_blk (d : List Byte) (s : State) : (storePbuf d s).blk = s.blk := rfl
@[simp] theorem storePbuf_k (d : List Byte) (s : State) : (storePbuf d s).k = s.k := rfl
@[simp] theorem storePbuf_embedLength (d : List Byte) (s : State) : (storePbuf d s).embedLength = s.embedLength := rfl
@[simp] theorem storePbuf_eccMethod (d : List Byte) (s : State) : (storePbuf d s).eccMethod = s.eccMethod := rfl
@[simp] theorem storePbuf_eccBlockLength (d : List Byte) (s : State) : (storePbuf d s).eccBlockLength = s.eccBlockLength := rfl
@[simp] theorem storePbuf_framing (d : List Byte) (s : State) : (storePbuf d s).framing = s.framing := rfl
@[simp] theorem storePbuf_bitsPerFreq (d : List Byte) (s : State) : (storePbuf d s).bitsPerFreq = s.bitsPerFreq := rfl
@[simp] theorem storePbuf_bytesPerMcu (d : List Byte) (s : State) : (storePbuf d s).bytesPerMcu = s.bytesPerMcu := rfl
@[simp] theorem storePbuf_pool (d : List Byte) (s : State) : (storePbuf d s).pool = s.pool := rfl
@[simp] theorem storePbuf_nlevels (d : List Byte) (s : State) : (storePbuf d s).nlevels = s.nlevels := rfl
@[simp] theorem storePbuf_seed (d : List Byte) (s : State) : (storePbuf d s).seed = s.seed := rfl
@[simp] theorem storePbuf_nfreqs (d : List Byte) (s : State) : (storePbuf d s).nfreqs = s.nfreqs := rfl
@[simp] theorem storePbuf_quality (d : List Byte) (s : State) : (storePbuf d s).quality = s.quality := rfl
@[simp] theorem storePbuf_ethresh (d : List Byte) (s : State) : (storePbuf d s).ethresh = s.ethresh := rfl
@[simp] theorem storePbuf_comp (d : List Byte) (s : State) : (storePbuf d s).comp = s.comp := rfl
@[simp] theorem storePbuf_len (d : List Byte) (s : State) : (storePbuf d s).len = BitVec.ofNat 32 d.length := rfl
@[simp] theorem storePbuf_maxlen (d : List Byte) (s : State) : (storePbuf d s).maxlen = s.maxlen := rfl
@[simp] theorem storePbuf_elen (d : List Byte) (s : State) : (storePbuf d s).elen = s.elen := rfl
@[simp] theorem storePbuf_wb (d : List Byte) (s : State) : (storePbuf d s).wb = s.wb := rfl
@[simp] theorem storePbuf_hb (d : List Byte) (s : State) : (storePbuf d s).hb = s.hb := rfl
@[simp] theorem storePbuf_vsamp (d : List Byte) (s : State) : (storePbuf d s).vsamp = s.vsamp := rfl
@[simp] theorem storePbuf_freqs (d : List Byte) (s : State) : (storePbuf d s).freqs = s.freqs := rfl
@[simp] theorem storePbuf_qt (d : List Byte) (s : State) : (storePbuf d s).qt = s.qt := rfl
@[simp] theorem storePbuf_pbuf (d : List Byte) (s : State) : (storePbuf d s).pbuf = Memory.writeBytes s.pbuf 0 d := rfl
@[simp] theorem storePbuf_ebuf (d : List Byte) (s : State) : (storePbuf d s).ebuf = s.ebuf := rfl
@[simp] theorem storePbuf_coef (d : List Byte) (s : State) : (storePbuf d s).coef = s.coef := rfl
@[simp] theorem storePbuf_pending (d : List Byte) (s : State) : (storePbuf d s).pending = s.pending := rfl
@[simp] theorem storePbuf_reply (d : List Byte) (s : State) : (storePbuf d s).reply = s.reply := rfl
@[simp] theorem storePbuf_resets (d : List Byte) (s : State) : (storePbuf d s).resets = s.resets := rfl
@[simp] theorem storePbuf_draws (d : List Byte) (s : State) : (storePbuf d s).draws = s.draws := rfl
@[simp] theorem storePbuf_slots (d : List Byte) (s : State) : slots (storePbuf d s) = slots s := rfl
@[simp] theorem storePbuf_blockProduct (d : List Byte) (s : State) : blockProduct (storePbuf d s) = blockProduct s := rfl
@[simp] theorem storePbuf_blockLen (d : List Byte) (s : State) : blockLen (storePbuf d s) = blockLen s := rfl
@[simp] theorem storePbuf_msgCap (d : List Byte) (s : State) : msgCap (storePbuf d s) = msgCap s := rfl

/-! ### replacing a block (20_memory.md R78) -/

@[simp] theorem storeBlock_params (n : Nat) (blk : CoefBlock) (s : State) : (storeBlock n blk s).params = s.params := rfl
@[simp] theorem storeBlock_cmd (n : Nat) (blk : CoefBlock) (s : State) : (storeBlock n blk s).cmd = s.cmd := rfl
@[simp] theorem storeBlock_arg0 (n : Nat) (blk : CoefBlock) (s : State) : (storeBlock n blk s).arg0 = s.arg0 := rfl
@[simp] theorem storeBlock_arg1 (n : Nat) (blk : CoefBlock) (s : State) : (storeBlock n blk s).arg1 = s.arg1 := rfl
@[simp] theorem storeBlock_result (n : Nat) (blk : CoefBlock) (s : State) : (storeBlock n blk s).result = s.result := rfl
@[simp] theorem storeBlock_err (n : Nat) (blk : CoefBlock) (s : State) : (storeBlock n blk s).err = s.err := rfl
@[simp] theorem storeBlock_errinfo (n : Nat) (blk : CoefBlock) (s : State) : (storeBlock n blk s).errinfo = s.errinfo := rfl
@[simp] theorem storeBlock_esticky (n : Nat) (blk : CoefBlock) (s : State) : (storeBlock n blk s).esticky = s.esticky := rfl
@[simp] theorem storeBlock_phase (n : Nat) (blk : CoefBlock) (s : State) : (storeBlock n blk s).phase = s.phase := rfl
@[simp] theorem storeBlock_blk (n : Nat) (blk : CoefBlock) (s : State) : (storeBlock n blk s).blk = s.blk := rfl
@[simp] theorem storeBlock_k (n : Nat) (blk : CoefBlock) (s : State) : (storeBlock n blk s).k = s.k := rfl
@[simp] theorem storeBlock_embedLength (n : Nat) (blk : CoefBlock) (s : State) : (storeBlock n blk s).embedLength = s.embedLength := rfl
@[simp] theorem storeBlock_eccMethod (n : Nat) (blk : CoefBlock) (s : State) : (storeBlock n blk s).eccMethod = s.eccMethod := rfl
@[simp] theorem storeBlock_eccBlockLength (n : Nat) (blk : CoefBlock) (s : State) : (storeBlock n blk s).eccBlockLength = s.eccBlockLength := rfl
@[simp] theorem storeBlock_framing (n : Nat) (blk : CoefBlock) (s : State) : (storeBlock n blk s).framing = s.framing := rfl
@[simp] theorem storeBlock_bitsPerFreq (n : Nat) (blk : CoefBlock) (s : State) : (storeBlock n blk s).bitsPerFreq = s.bitsPerFreq := rfl
@[simp] theorem storeBlock_bytesPerMcu (n : Nat) (blk : CoefBlock) (s : State) : (storeBlock n blk s).bytesPerMcu = s.bytesPerMcu := rfl
@[simp] theorem storeBlock_pool (n : Nat) (blk : CoefBlock) (s : State) : (storeBlock n blk s).pool = s.pool := rfl
@[simp] theorem storeBlock_nlevels (n : Nat) (blk : CoefBlock) (s : State) : (storeBlock n blk s).nlevels = s.nlevels := rfl
@[simp] theorem storeBlock_seed (n : Nat) (blk : CoefBlock) (s : State) : (storeBlock n blk s).seed = s.seed := rfl
@[simp] theorem storeBlock_nfreqs (n : Nat) (blk : CoefBlock) (s : State) : (storeBlock n blk s).nfreqs = s.nfreqs := rfl
@[simp] theorem storeBlock_quality (n : Nat) (blk : CoefBlock) (s : State) : (storeBlock n blk s).quality = s.quality := rfl
@[simp] theorem storeBlock_ethresh (n : Nat) (blk : CoefBlock) (s : State) : (storeBlock n blk s).ethresh = s.ethresh := rfl
@[simp] theorem storeBlock_comp (n : Nat) (blk : CoefBlock) (s : State) : (storeBlock n blk s).comp = s.comp := rfl
@[simp] theorem storeBlock_len (n : Nat) (blk : CoefBlock) (s : State) : (storeBlock n blk s).len = s.len := rfl
@[simp] theorem storeBlock_maxlen (n : Nat) (blk : CoefBlock) (s : State) : (storeBlock n blk s).maxlen = s.maxlen := rfl
@[simp] theorem storeBlock_elen (n : Nat) (blk : CoefBlock) (s : State) : (storeBlock n blk s).elen = s.elen := rfl
@[simp] theorem storeBlock_wb (n : Nat) (blk : CoefBlock) (s : State) : (storeBlock n blk s).wb = s.wb := rfl
@[simp] theorem storeBlock_hb (n : Nat) (blk : CoefBlock) (s : State) : (storeBlock n blk s).hb = s.hb := rfl
@[simp] theorem storeBlock_vsamp (n : Nat) (blk : CoefBlock) (s : State) : (storeBlock n blk s).vsamp = s.vsamp := rfl
@[simp] theorem storeBlock_freqs (n : Nat) (blk : CoefBlock) (s : State) : (storeBlock n blk s).freqs = s.freqs := rfl
@[simp] theorem storeBlock_qt (n : Nat) (blk : CoefBlock) (s : State) : (storeBlock n blk s).qt = s.qt := rfl
@[simp] theorem storeBlock_pbuf (n : Nat) (blk : CoefBlock) (s : State) : (storeBlock n blk s).pbuf = s.pbuf := rfl
@[simp] theorem storeBlock_ebuf (n : Nat) (blk : CoefBlock) (s : State) : (storeBlock n blk s).ebuf = s.ebuf := rfl
@[simp] theorem storeBlock_coef (n : Nat) (blk : CoefBlock) (s : State) : (storeBlock n blk s).coef = s.coef.set n blk := rfl
@[simp] theorem storeBlock_pending (n : Nat) (blk : CoefBlock) (s : State) : (storeBlock n blk s).pending = s.pending := rfl
@[simp] theorem storeBlock_reply (n : Nat) (blk : CoefBlock) (s : State) : (storeBlock n blk s).reply = s.reply := rfl
@[simp] theorem storeBlock_resets (n : Nat) (blk : CoefBlock) (s : State) : (storeBlock n blk s).resets = s.resets := rfl
@[simp] theorem storeBlock_draws (n : Nat) (blk : CoefBlock) (s : State) : (storeBlock n blk s).draws = s.draws := rfl
@[simp] theorem storeBlock_slots (n : Nat) (blk : CoefBlock) (s : State) : slots (storeBlock n blk s) = slots s := rfl
@[simp] theorem storeBlock_blockProduct (n : Nat) (blk : CoefBlock) (s : State) : blockProduct (storeBlock n blk s) = blockProduct s := rfl
@[simp] theorem storeBlock_blockLen (n : Nat) (blk : CoefBlock) (s : State) : blockLen (storeBlock n blk s) = blockLen s := rfl
@[simp] theorem storeBlock_msgCap (n : Nat) (blk : CoefBlock) (s : State) : msgCap (storeBlock n blk s) = msgCap s := rfl

/-! ### `PHASE` (00_scope.md R12) -/

@[simp] theorem setPhase_params (p : Phase) (s : State) : (setPhase p s).params = s.params := rfl
@[simp] theorem setPhase_cmd (p : Phase) (s : State) : (setPhase p s).cmd = s.cmd := rfl
@[simp] theorem setPhase_arg0 (p : Phase) (s : State) : (setPhase p s).arg0 = s.arg0 := rfl
@[simp] theorem setPhase_arg1 (p : Phase) (s : State) : (setPhase p s).arg1 = s.arg1 := rfl
@[simp] theorem setPhase_result (p : Phase) (s : State) : (setPhase p s).result = s.result := rfl
@[simp] theorem setPhase_err (p : Phase) (s : State) : (setPhase p s).err = s.err := rfl
@[simp] theorem setPhase_errinfo (p : Phase) (s : State) : (setPhase p s).errinfo = s.errinfo := rfl
@[simp] theorem setPhase_esticky (p : Phase) (s : State) : (setPhase p s).esticky = s.esticky := rfl
@[simp] theorem setPhase_phase (p : Phase) (s : State) : (setPhase p s).phase = p := rfl
@[simp] theorem setPhase_blk (p : Phase) (s : State) : (setPhase p s).blk = s.blk := rfl
@[simp] theorem setPhase_k (p : Phase) (s : State) : (setPhase p s).k = s.k := rfl
@[simp] theorem setPhase_embedLength (p : Phase) (s : State) : (setPhase p s).embedLength = s.embedLength := rfl
@[simp] theorem setPhase_eccMethod (p : Phase) (s : State) : (setPhase p s).eccMethod = s.eccMethod := rfl
@[simp] theorem setPhase_eccBlockLength (p : Phase) (s : State) : (setPhase p s).eccBlockLength = s.eccBlockLength := rfl
@[simp] theorem setPhase_framing (p : Phase) (s : State) : (setPhase p s).framing = s.framing := rfl
@[simp] theorem setPhase_bitsPerFreq (p : Phase) (s : State) : (setPhase p s).bitsPerFreq = s.bitsPerFreq := rfl
@[simp] theorem setPhase_bytesPerMcu (p : Phase) (s : State) : (setPhase p s).bytesPerMcu = s.bytesPerMcu := rfl
@[simp] theorem setPhase_pool (p : Phase) (s : State) : (setPhase p s).pool = s.pool := rfl
@[simp] theorem setPhase_nlevels (p : Phase) (s : State) : (setPhase p s).nlevels = s.nlevels := rfl
@[simp] theorem setPhase_seed (p : Phase) (s : State) : (setPhase p s).seed = s.seed := rfl
@[simp] theorem setPhase_nfreqs (p : Phase) (s : State) : (setPhase p s).nfreqs = s.nfreqs := rfl
@[simp] theorem setPhase_quality (p : Phase) (s : State) : (setPhase p s).quality = s.quality := rfl
@[simp] theorem setPhase_ethresh (p : Phase) (s : State) : (setPhase p s).ethresh = s.ethresh := rfl
@[simp] theorem setPhase_comp (p : Phase) (s : State) : (setPhase p s).comp = s.comp := rfl
@[simp] theorem setPhase_len (p : Phase) (s : State) : (setPhase p s).len = s.len := rfl
@[simp] theorem setPhase_maxlen (p : Phase) (s : State) : (setPhase p s).maxlen = s.maxlen := rfl
@[simp] theorem setPhase_elen (p : Phase) (s : State) : (setPhase p s).elen = s.elen := rfl
@[simp] theorem setPhase_wb (p : Phase) (s : State) : (setPhase p s).wb = s.wb := rfl
@[simp] theorem setPhase_hb (p : Phase) (s : State) : (setPhase p s).hb = s.hb := rfl
@[simp] theorem setPhase_vsamp (p : Phase) (s : State) : (setPhase p s).vsamp = s.vsamp := rfl
@[simp] theorem setPhase_freqs (p : Phase) (s : State) : (setPhase p s).freqs = s.freqs := rfl
@[simp] theorem setPhase_qt (p : Phase) (s : State) : (setPhase p s).qt = s.qt := rfl
@[simp] theorem setPhase_pbuf (p : Phase) (s : State) : (setPhase p s).pbuf = s.pbuf := rfl
@[simp] theorem setPhase_ebuf (p : Phase) (s : State) : (setPhase p s).ebuf = s.ebuf := rfl
@[simp] theorem setPhase_coef (p : Phase) (s : State) : (setPhase p s).coef = s.coef := rfl
@[simp] theorem setPhase_pending (p : Phase) (s : State) : (setPhase p s).pending = s.pending := rfl
@[simp] theorem setPhase_reply (p : Phase) (s : State) : (setPhase p s).reply = s.reply := rfl
@[simp] theorem setPhase_resets (p : Phase) (s : State) : (setPhase p s).resets = s.resets := rfl
@[simp] theorem setPhase_draws (p : Phase) (s : State) : (setPhase p s).draws = s.draws := rfl
@[simp] theorem setPhase_slots (p : Phase) (s : State) : slots (setPhase p s) = slots s := rfl
@[simp] theorem setPhase_blockProduct (p : Phase) (s : State) : blockProduct (setPhase p s) = blockProduct s := rfl
@[simp] theorem setPhase_blockLen (p : Phase) (s : State) : blockLen (setPhase p s) = blockLen s := rfl
@[simp] theorem setPhase_msgCap (p : Phase) (s : State) : msgCap (setPhase p s) = msgCap s := rfl

/-! ### storing a selection (40_frequency_selector.md R123) -/

@[simp] theorem storeSelection_params (out : List Slot) (s : State) : (storeSelection out s).params = s.params := rfl
@[simp] theorem storeSelection_cmd (out : List Slot) (s : State) : (storeSelection out s).cmd = s.cmd := rfl
@[simp] theorem storeSelection_arg0 (out : List Slot) (s : State) : (storeSelection out s).arg0 = s.arg0 := rfl
@[simp] theorem storeSelection_arg1 (out : List Slot) (s : State) : (storeSelection out s).arg1 = s.arg1 := rfl
@[simp] theorem storeSelection_result (out : List Slot) (s : State) : (storeSelection out s).result = s.result := rfl
@[simp] theorem storeSelection_err (out : List Slot) (s : State) : (storeSelection out s).err = s.err := rfl
@[simp] theorem storeSelection_errinfo (out : List Slot) (s : State) : (storeSelection out s).errinfo = s.errinfo := rfl
@[simp] theorem storeSelection_esticky (out : List Slot) (s : State) : (storeSelection out s).esticky = s.esticky := rfl
@[simp] theorem storeSelection_phase (out : List Slot) (s : State) : (storeSelection out s).phase = s.phase := rfl
@[simp] theorem storeSelection_blk (out : List Slot) (s : State) : (storeSelection out s).blk = s.blk := rfl
@[simp] theorem storeSelection_k (out : List Slot) (s : State) : (storeSelection out s).k = s.k := rfl
@[simp] theorem storeSelection_embedLength (out : List Slot) (s : State) : (storeSelection out s).embedLength = s.embedLength := rfl
@[simp] theorem storeSelection_eccMethod (out : List Slot) (s : State) : (storeSelection out s).eccMethod = s.eccMethod := rfl
@[simp] theorem storeSelection_eccBlockLength (out : List Slot) (s : State) : (storeSelection out s).eccBlockLength = s.eccBlockLength := rfl
@[simp] theorem storeSelection_framing (out : List Slot) (s : State) : (storeSelection out s).framing = s.framing := rfl
@[simp] theorem storeSelection_bitsPerFreq (out : List Slot) (s : State) : (storeSelection out s).bitsPerFreq = s.bitsPerFreq := rfl
@[simp] theorem storeSelection_bytesPerMcu (out : List Slot) (s : State) : (storeSelection out s).bytesPerMcu = s.bytesPerMcu := rfl
@[simp] theorem storeSelection_pool (out : List Slot) (s : State) : (storeSelection out s).pool = s.pool := rfl
@[simp] theorem storeSelection_nlevels (out : List Slot) (s : State) : (storeSelection out s).nlevels = s.nlevels := rfl
@[simp] theorem storeSelection_seed (out : List Slot) (s : State) : (storeSelection out s).seed = s.seed := rfl
@[simp] theorem storeSelection_nfreqs (out : List Slot) (s : State) : (storeSelection out s).nfreqs = BitVec.ofNat 7 out.length := rfl
@[simp] theorem storeSelection_quality (out : List Slot) (s : State) : (storeSelection out s).quality = s.quality := rfl
@[simp] theorem storeSelection_ethresh (out : List Slot) (s : State) : (storeSelection out s).ethresh = s.ethresh := rfl
@[simp] theorem storeSelection_comp (out : List Slot) (s : State) : (storeSelection out s).comp = s.comp := rfl
@[simp] theorem storeSelection_len (out : List Slot) (s : State) : (storeSelection out s).len = s.len := rfl
@[simp] theorem storeSelection_maxlen (out : List Slot) (s : State) : (storeSelection out s).maxlen = s.maxlen := rfl
@[simp] theorem storeSelection_elen (out : List Slot) (s : State) : (storeSelection out s).elen = s.elen := rfl
@[simp] theorem storeSelection_wb (out : List Slot) (s : State) : (storeSelection out s).wb = s.wb := rfl
@[simp] theorem storeSelection_hb (out : List Slot) (s : State) : (storeSelection out s).hb = s.hb := rfl
@[simp] theorem storeSelection_vsamp (out : List Slot) (s : State) : (storeSelection out s).vsamp = s.vsamp := rfl
@[simp] theorem storeSelection_freqs (out : List Slot) (s : State) : (storeSelection out s).freqs = Vector.ofFn fun i => (out[i.val]?).getD (s.freqs.get i) := rfl
@[simp] theorem storeSelection_qt (out : List Slot) (s : State) : (storeSelection out s).qt = s.qt := rfl
@[simp] theorem storeSelection_pbuf (out : List Slot) (s : State) : (storeSelection out s).pbuf = s.pbuf := rfl
@[simp] theorem storeSelection_ebuf (out : List Slot) (s : State) : (storeSelection out s).ebuf = s.ebuf := rfl
@[simp] theorem storeSelection_coef (out : List Slot) (s : State) : (storeSelection out s).coef = s.coef := rfl
@[simp] theorem storeSelection_pending (out : List Slot) (s : State) : (storeSelection out s).pending = s.pending := rfl
@[simp] theorem storeSelection_reply (out : List Slot) (s : State) : (storeSelection out s).reply = s.reply := rfl
@[simp] theorem storeSelection_resets (out : List Slot) (s : State) : (storeSelection out s).resets = s.resets := rfl
@[simp] theorem storeSelection_draws (out : List Slot) (s : State) : (storeSelection out s).draws = s.draws := rfl
@[simp] theorem storeSelection_blockProduct (out : List Slot) (s : State) : blockProduct (storeSelection out s) = blockProduct s := rfl
@[simp] theorem storeSelection_blockLen (out : List Slot) (s : State) : blockLen (storeSelection out s) = blockLen s := rfl
@[simp] theorem storeSelection_msgCap (out : List Slot) (s : State) : msgCap (storeSelection out s) = msgCap s := rfl

/-! ### the start of a scan (44_embed_extract.md R225, R239) -/

@[simp] theorem scanStart_params (s : State) : (scanStart s).params = s.params := rfl
@[simp] theorem scanStart_cmd (s : State) : (scanStart s).cmd = s.cmd := rfl
@[simp] theorem scanStart_arg0 (s : State) : (scanStart s).arg0 = s.arg0 := rfl
@[simp] theorem scanStart_arg1 (s : State) : (scanStart s).arg1 = s.arg1 := rfl
@[simp] theorem scanStart_result (s : State) : (scanStart s).result = s.result := rfl
@[simp] theorem scanStart_err (s : State) : (scanStart s).err = s.err := rfl
@[simp] theorem scanStart_errinfo (s : State) : (scanStart s).errinfo = s.errinfo := rfl
@[simp] theorem scanStart_esticky (s : State) : (scanStart s).esticky = s.esticky := rfl
@[simp] theorem scanStart_phase (s : State) : (scanStart s).phase = .selectFrequencies := rfl
@[simp] theorem scanStart_blk (s : State) : (scanStart s).blk = 0 := rfl
@[simp] theorem scanStart_k (s : State) : (scanStart s).k = 0 := rfl
@[simp] theorem scanStart_embedLength (s : State) : (scanStart s).embedLength = s.embedLength := rfl
@[simp] theorem scanStart_eccMethod (s : State) : (scanStart s).eccMethod = s.eccMethod := rfl
@[simp] theorem scanStart_eccBlockLength (s : State) : (scanStart s).eccBlockLength = s.eccBlockLength := rfl
@[simp] theorem scanStart_framing (s : State) : (scanStart s).framing = s.framing := rfl
@[simp] theorem scanStart_bitsPerFreq (s : State) : (scanStart s).bitsPerFreq = s.bitsPerFreq := rfl
@[simp] theorem scanStart_bytesPerMcu (s : State) : (scanStart s).bytesPerMcu = s.bytesPerMcu := rfl
@[simp] theorem scanStart_pool (s : State) : (scanStart s).pool = s.pool := rfl
@[simp] theorem scanStart_nlevels (s : State) : (scanStart s).nlevels = s.nlevels := rfl
@[simp] theorem scanStart_seed (s : State) : (scanStart s).seed = s.seed := rfl
@[simp] theorem scanStart_nfreqs (s : State) : (scanStart s).nfreqs = s.nfreqs := rfl
@[simp] theorem scanStart_quality (s : State) : (scanStart s).quality = s.quality := rfl
@[simp] theorem scanStart_ethresh (s : State) : (scanStart s).ethresh = s.ethresh := rfl
@[simp] theorem scanStart_comp (s : State) : (scanStart s).comp = s.comp := rfl
@[simp] theorem scanStart_len (s : State) : (scanStart s).len = s.len := rfl
@[simp] theorem scanStart_maxlen (s : State) : (scanStart s).maxlen = s.maxlen := rfl
@[simp] theorem scanStart_elen (s : State) : (scanStart s).elen = s.elen := rfl
@[simp] theorem scanStart_wb (s : State) : (scanStart s).wb = s.wb := rfl
@[simp] theorem scanStart_hb (s : State) : (scanStart s).hb = s.hb := rfl
@[simp] theorem scanStart_vsamp (s : State) : (scanStart s).vsamp = s.vsamp := rfl
@[simp] theorem scanStart_freqs (s : State) : (scanStart s).freqs = s.freqs := rfl
@[simp] theorem scanStart_qt (s : State) : (scanStart s).qt = s.qt := rfl
@[simp] theorem scanStart_pbuf (s : State) : (scanStart s).pbuf = s.pbuf := rfl
@[simp] theorem scanStart_ebuf (s : State) : (scanStart s).ebuf = s.ebuf := rfl
@[simp] theorem scanStart_coef (s : State) : (scanStart s).coef = s.coef := rfl
@[simp] theorem scanStart_pending (s : State) : (scanStart s).pending = s.pending := rfl
@[simp] theorem scanStart_reply (s : State) : (scanStart s).reply = s.reply := rfl
@[simp] theorem scanStart_resets (s : State) : (scanStart s).resets = s.resets := rfl
@[simp] theorem scanStart_draws (s : State) : (scanStart s).draws = s.draws := rfl
@[simp] theorem scanStart_slots (s : State) : slots (scanStart s) = slots s := rfl
@[simp] theorem scanStart_blockProduct (s : State) : blockProduct (scanStart s) = blockProduct s := rfl
@[simp] theorem scanStart_blockLen (s : State) : blockLen (scanStart s) = blockLen s := rfl
@[simp] theorem scanStart_msgCap (s : State) : msgCap (scanStart s) = msgCap s := rfl

/-! ### after a prefix byte (44_embed_extract.md R221) -/

@[simp] theorem nextBlock_params (s : State) : (nextBlock s).params = s.params := rfl
@[simp] theorem nextBlock_cmd (s : State) : (nextBlock s).cmd = s.cmd := rfl
@[simp] theorem nextBlock_arg0 (s : State) : (nextBlock s).arg0 = s.arg0 := rfl
@[simp] theorem nextBlock_arg1 (s : State) : (nextBlock s).arg1 = s.arg1 := rfl
@[simp] theorem nextBlock_result (s : State) : (nextBlock s).result = s.result := rfl
@[simp] theorem nextBlock_err (s : State) : (nextBlock s).err = s.err := rfl
@[simp] theorem nextBlock_errinfo (s : State) : (nextBlock s).errinfo = s.errinfo := rfl
@[simp] theorem nextBlock_esticky (s : State) : (nextBlock s).esticky = s.esticky := rfl
@[simp] theorem nextBlock_phase (s : State) : (nextBlock s).phase = s.phase := rfl
@[simp] theorem nextBlock_blk (s : State) : (nextBlock s).blk = s.blk + 1 := rfl
@[simp] theorem nextBlock_k (s : State) : (nextBlock s).k = s.k := rfl
@[simp] theorem nextBlock_embedLength (s : State) : (nextBlock s).embedLength = s.embedLength := rfl
@[simp] theorem nextBlock_eccMethod (s : State) : (nextBlock s).eccMethod = s.eccMethod := rfl
@[simp] theorem nextBlock_eccBlockLength (s : State) : (nextBlock s).eccBlockLength = s.eccBlockLength := rfl
@[simp] theorem nextBlock_framing (s : State) : (nextBlock s).framing = s.framing := rfl
@[simp] theorem nextBlock_bitsPerFreq (s : State) : (nextBlock s).bitsPerFreq = s.bitsPerFreq := rfl
@[simp] theorem nextBlock_bytesPerMcu (s : State) : (nextBlock s).bytesPerMcu = s.bytesPerMcu := rfl
@[simp] theorem nextBlock_pool (s : State) : (nextBlock s).pool = s.pool := rfl
@[simp] theorem nextBlock_nlevels (s : State) : (nextBlock s).nlevels = s.nlevels := rfl
@[simp] theorem nextBlock_seed (s : State) : (nextBlock s).seed = s.seed := rfl
@[simp] theorem nextBlock_nfreqs (s : State) : (nextBlock s).nfreqs = s.nfreqs := rfl
@[simp] theorem nextBlock_quality (s : State) : (nextBlock s).quality = s.quality := rfl
@[simp] theorem nextBlock_ethresh (s : State) : (nextBlock s).ethresh = s.ethresh := rfl
@[simp] theorem nextBlock_comp (s : State) : (nextBlock s).comp = s.comp := rfl
@[simp] theorem nextBlock_len (s : State) : (nextBlock s).len = s.len := rfl
@[simp] theorem nextBlock_maxlen (s : State) : (nextBlock s).maxlen = s.maxlen := rfl
@[simp] theorem nextBlock_elen (s : State) : (nextBlock s).elen = s.elen := rfl
@[simp] theorem nextBlock_wb (s : State) : (nextBlock s).wb = s.wb := rfl
@[simp] theorem nextBlock_hb (s : State) : (nextBlock s).hb = s.hb := rfl
@[simp] theorem nextBlock_vsamp (s : State) : (nextBlock s).vsamp = s.vsamp := rfl
@[simp] theorem nextBlock_freqs (s : State) : (nextBlock s).freqs = s.freqs := rfl
@[simp] theorem nextBlock_qt (s : State) : (nextBlock s).qt = s.qt := rfl
@[simp] theorem nextBlock_pbuf (s : State) : (nextBlock s).pbuf = s.pbuf := rfl
@[simp] theorem nextBlock_ebuf (s : State) : (nextBlock s).ebuf = s.ebuf := rfl
@[simp] theorem nextBlock_coef (s : State) : (nextBlock s).coef = s.coef := rfl
@[simp] theorem nextBlock_pending (s : State) : (nextBlock s).pending = s.pending := rfl
@[simp] theorem nextBlock_reply (s : State) : (nextBlock s).reply = s.reply := rfl
@[simp] theorem nextBlock_resets (s : State) : (nextBlock s).resets = s.resets := rfl
@[simp] theorem nextBlock_draws (s : State) : (nextBlock s).draws = s.draws := rfl
@[simp] theorem nextBlock_slots (s : State) : slots (nextBlock s) = slots s := rfl
@[simp] theorem nextBlock_blockProduct (s : State) : blockProduct (nextBlock s) = blockProduct s := rfl
@[simp] theorem nextBlock_blockLen (s : State) : blockLen (nextBlock s) = blockLen s := rfl
@[simp] theorem nextBlock_msgCap (s : State) : msgCap (nextBlock s) = msgCap s := rfl

/-! ### after a payload byte (44_embed_extract.md R224) -/

@[simp] theorem nextByte_params (s : State) : (nextByte s).params = s.params := rfl
@[simp] theorem nextByte_cmd (s : State) : (nextByte s).cmd = s.cmd := rfl
@[simp] theorem nextByte_arg0 (s : State) : (nextByte s).arg0 = s.arg0 := rfl
@[simp] theorem nextByte_arg1 (s : State) : (nextByte s).arg1 = s.arg1 := rfl
@[simp] theorem nextByte_result (s : State) : (nextByte s).result = s.result := rfl
@[simp] theorem nextByte_err (s : State) : (nextByte s).err = s.err := rfl
@[simp] theorem nextByte_errinfo (s : State) : (nextByte s).errinfo = s.errinfo := rfl
@[simp] theorem nextByte_esticky (s : State) : (nextByte s).esticky = s.esticky := rfl
@[simp] theorem nextByte_phase (s : State) : (nextByte s).phase = s.phase := rfl
@[simp] theorem nextByte_blk (s : State) : (nextByte s).blk = s.blk + 1 := rfl
@[simp] theorem nextByte_k (s : State) : (nextByte s).k = s.k + 1 := rfl
@[simp] theorem nextByte_embedLength (s : State) : (nextByte s).embedLength = s.embedLength := rfl
@[simp] theorem nextByte_eccMethod (s : State) : (nextByte s).eccMethod = s.eccMethod := rfl
@[simp] theorem nextByte_eccBlockLength (s : State) : (nextByte s).eccBlockLength = s.eccBlockLength := rfl
@[simp] theorem nextByte_framing (s : State) : (nextByte s).framing = s.framing := rfl
@[simp] theorem nextByte_bitsPerFreq (s : State) : (nextByte s).bitsPerFreq = s.bitsPerFreq := rfl
@[simp] theorem nextByte_bytesPerMcu (s : State) : (nextByte s).bytesPerMcu = s.bytesPerMcu := rfl
@[simp] theorem nextByte_pool (s : State) : (nextByte s).pool = s.pool := rfl
@[simp] theorem nextByte_nlevels (s : State) : (nextByte s).nlevels = s.nlevels := rfl
@[simp] theorem nextByte_seed (s : State) : (nextByte s).seed = s.seed := rfl
@[simp] theorem nextByte_nfreqs (s : State) : (nextByte s).nfreqs = s.nfreqs := rfl
@[simp] theorem nextByte_quality (s : State) : (nextByte s).quality = s.quality := rfl
@[simp] theorem nextByte_ethresh (s : State) : (nextByte s).ethresh = s.ethresh := rfl
@[simp] theorem nextByte_comp (s : State) : (nextByte s).comp = s.comp := rfl
@[simp] theorem nextByte_len (s : State) : (nextByte s).len = s.len := rfl
@[simp] theorem nextByte_maxlen (s : State) : (nextByte s).maxlen = s.maxlen := rfl
@[simp] theorem nextByte_elen (s : State) : (nextByte s).elen = s.elen := rfl
@[simp] theorem nextByte_wb (s : State) : (nextByte s).wb = s.wb := rfl
@[simp] theorem nextByte_hb (s : State) : (nextByte s).hb = s.hb := rfl
@[simp] theorem nextByte_vsamp (s : State) : (nextByte s).vsamp = s.vsamp := rfl
@[simp] theorem nextByte_freqs (s : State) : (nextByte s).freqs = s.freqs := rfl
@[simp] theorem nextByte_qt (s : State) : (nextByte s).qt = s.qt := rfl
@[simp] theorem nextByte_pbuf (s : State) : (nextByte s).pbuf = s.pbuf := rfl
@[simp] theorem nextByte_ebuf (s : State) : (nextByte s).ebuf = s.ebuf := rfl
@[simp] theorem nextByte_coef (s : State) : (nextByte s).coef = s.coef := rfl
@[simp] theorem nextByte_pending (s : State) : (nextByte s).pending = s.pending := rfl
@[simp] theorem nextByte_reply (s : State) : (nextByte s).reply = s.reply := rfl
@[simp] theorem nextByte_resets (s : State) : (nextByte s).resets = s.resets := rfl
@[simp] theorem nextByte_draws (s : State) : (nextByte s).draws = s.draws := rfl
@[simp] theorem nextByte_slots (s : State) : slots (nextByte s) = slots s := rfl
@[simp] theorem nextByte_blockProduct (s : State) : blockProduct (nextByte s) = blockProduct s := rfl
@[simp] theorem nextByte_blockLen (s : State) : blockLen (nextByte s) = blockLen s := rfl
@[simp] theorem nextByte_msgCap (s : State) : msgCap (nextByte s) = msgCap s := rfl

/-! ### the start of a command (30_encoding.md R101) -/

@[simp] theorem startCommand_params (v : Nat) (s : State) : (startCommand v s).params = s.params := rfl
@[simp] theorem startCommand_cmd (v : Nat) (s : State) : (startCommand v s).cmd = BitVec.ofNat 8 v := rfl
@[simp] theorem startCommand_arg0 (v : Nat) (s : State) : (startCommand v s).arg0 = s.arg0 := rfl
@[simp] theorem startCommand_arg1 (v : Nat) (s : State) : (startCommand v s).arg1 = s.arg1 := rfl
@[simp] theorem startCommand_result (v : Nat) (s : State) : (startCommand v s).result = s.result := rfl
@[simp] theorem startCommand_err (v : Nat) (s : State) : (startCommand v s).err = s.err := rfl
@[simp] theorem startCommand_errinfo (v : Nat) (s : State) : (startCommand v s).errinfo = s.errinfo := rfl
@[simp] theorem startCommand_esticky (v : Nat) (s : State) : (startCommand v s).esticky = s.esticky := rfl
@[simp] theorem startCommand_phase (v : Nat) (s : State) : (startCommand v s).phase = s.phase := rfl
@[simp] theorem startCommand_blk (v : Nat) (s : State) : (startCommand v s).blk = s.blk := rfl
@[simp] theorem startCommand_k (v : Nat) (s : State) : (startCommand v s).k = s.k := rfl
@[simp] theorem startCommand_embedLength (v : Nat) (s : State) : (startCommand v s).embedLength = s.embedLength := rfl
@[simp] theorem startCommand_eccMethod (v : Nat) (s : State) : (startCommand v s).eccMethod = s.eccMethod := rfl
@[simp] theorem startCommand_eccBlockLength (v : Nat) (s : State) : (startCommand v s).eccBlockLength = s.eccBlockLength := rfl
@[simp] theorem startCommand_framing (v : Nat) (s : State) : (startCommand v s).framing = s.framing := rfl
@[simp] theorem startCommand_bitsPerFreq (v : Nat) (s : State) : (startCommand v s).bitsPerFreq = s.bitsPerFreq := rfl
@[simp] theorem startCommand_bytesPerMcu (v : Nat) (s : State) : (startCommand v s).bytesPerMcu = s.bytesPerMcu := rfl
@[simp] theorem startCommand_pool (v : Nat) (s : State) : (startCommand v s).pool = s.pool := rfl
@[simp] theorem startCommand_nlevels (v : Nat) (s : State) : (startCommand v s).nlevels = s.nlevels := rfl
@[simp] theorem startCommand_seed (v : Nat) (s : State) : (startCommand v s).seed = s.seed := rfl
@[simp] theorem startCommand_nfreqs (v : Nat) (s : State) : (startCommand v s).nfreqs = s.nfreqs := rfl
@[simp] theorem startCommand_quality (v : Nat) (s : State) : (startCommand v s).quality = s.quality := rfl
@[simp] theorem startCommand_ethresh (v : Nat) (s : State) : (startCommand v s).ethresh = s.ethresh := rfl
@[simp] theorem startCommand_comp (v : Nat) (s : State) : (startCommand v s).comp = s.comp := rfl
@[simp] theorem startCommand_len (v : Nat) (s : State) : (startCommand v s).len = s.len := rfl
@[simp] theorem startCommand_maxlen (v : Nat) (s : State) : (startCommand v s).maxlen = s.maxlen := rfl
@[simp] theorem startCommand_elen (v : Nat) (s : State) : (startCommand v s).elen = s.elen := rfl
@[simp] theorem startCommand_wb (v : Nat) (s : State) : (startCommand v s).wb = s.wb := rfl
@[simp] theorem startCommand_hb (v : Nat) (s : State) : (startCommand v s).hb = s.hb := rfl
@[simp] theorem startCommand_vsamp (v : Nat) (s : State) : (startCommand v s).vsamp = s.vsamp := rfl
@[simp] theorem startCommand_freqs (v : Nat) (s : State) : (startCommand v s).freqs = s.freqs := rfl
@[simp] theorem startCommand_qt (v : Nat) (s : State) : (startCommand v s).qt = s.qt := rfl
@[simp] theorem startCommand_pbuf (v : Nat) (s : State) : (startCommand v s).pbuf = s.pbuf := rfl
@[simp] theorem startCommand_ebuf (v : Nat) (s : State) : (startCommand v s).ebuf = s.ebuf := rfl
@[simp] theorem startCommand_coef (v : Nat) (s : State) : (startCommand v s).coef = s.coef := rfl
@[simp] theorem startCommand_pending (v : Nat) (s : State) : (startCommand v s).pending = s.pending := rfl
@[simp] theorem startCommand_reply (v : Nat) (s : State) : (startCommand v s).reply = .written := rfl
@[simp] theorem startCommand_resets (v : Nat) (s : State) : (startCommand v s).resets = s.resets := rfl
@[simp] theorem startCommand_draws (v : Nat) (s : State) : (startCommand v s).draws = s.draws := rfl
@[simp] theorem startCommand_slots (v : Nat) (s : State) : slots (startCommand v s) = slots s := rfl
@[simp] theorem startCommand_blockProduct (v : Nat) (s : State) : blockProduct (startCommand v s) = blockProduct s := rfl
@[simp] theorem startCommand_blockLen (v : Nat) (s : State) : blockLen (startCommand v s) = blockLen s := rfl
@[simp] theorem startCommand_msgCap (v : Nat) (s : State) : msgCap (startCommand v s) = msgCap s := rfl

/-! ### `INIT` (45_config_access.md R263) -/

@[simp] theorem initRegisters_params (s : State) : (initRegisters s).params = s.params := rfl
@[simp] theorem initRegisters_cmd (s : State) : (initRegisters s).cmd = s.cmd := rfl
@[simp] theorem initRegisters_arg0 (s : State) : (initRegisters s).arg0 = 0 := rfl
@[simp] theorem initRegisters_arg1 (s : State) : (initRegisters s).arg1 = 0 := rfl
@[simp] theorem initRegisters_result (s : State) : (initRegisters s).result = s.result := rfl
@[simp] theorem initRegisters_err (s : State) : (initRegisters s).err = s.err := rfl
@[simp] theorem initRegisters_errinfo (s : State) : (initRegisters s).errinfo = s.errinfo := rfl
@[simp] theorem initRegisters_esticky (s : State) : (initRegisters s).esticky = 0 := rfl
@[simp] theorem initRegisters_phase (s : State) : (initRegisters s).phase = .idle := rfl
@[simp] theorem initRegisters_blk (s : State) : (initRegisters s).blk = 0 := rfl
@[simp] theorem initRegisters_k (s : State) : (initRegisters s).k = 0 := rfl
@[simp] theorem initRegisters_embedLength (s : State) : (initRegisters s).embedLength = s.params.embedLengthReset := rfl
@[simp] theorem initRegisters_eccMethod (s : State) : (initRegisters s).eccMethod = s.params.eccMethodReset := rfl
@[simp] theorem initRegisters_eccBlockLength (s : State) : (initRegisters s).eccBlockLength = 20 := rfl
@[simp] theorem initRegisters_framing (s : State) : (initRegisters s).framing = s.params.framingReset := rfl
@[simp] theorem initRegisters_bitsPerFreq (s : State) : (initRegisters s).bitsPerFreq = 2 := rfl
@[simp] theorem initRegisters_bytesPerMcu (s : State) : (initRegisters s).bytesPerMcu = 1 := rfl
@[simp] theorem initRegisters_pool (s : State) : (initRegisters s).pool = BitVec.ofNat 7 s.params.poolReset := rfl
@[simp] theorem initRegisters_nlevels (s : State) : (initRegisters s).nlevels = s.params.nlevelsReset := rfl
@[simp] theorem initRegisters_seed (s : State) : (initRegisters s).seed = s.seed := rfl
@[simp] theorem initRegisters_nfreqs (s : State) : (initRegisters s).nfreqs = 0 := rfl
@[simp] theorem initRegisters_quality (s : State) : (initRegisters s).quality = s.quality := rfl
@[simp] theorem initRegisters_ethresh (s : State) : (initRegisters s).ethresh = s.ethresh := rfl
@[simp] theorem initRegisters_comp (s : State) : (initRegisters s).comp = 0 := rfl
@[simp] theorem initRegisters_len (s : State) : (initRegisters s).len = 0 := rfl
@[simp] theorem initRegisters_maxlen (s : State) : (initRegisters s).maxlen = 0 := rfl
@[simp] theorem initRegisters_elen (s : State) : (initRegisters s).elen = 0 := rfl
@[simp] theorem initRegisters_wb (s : State) : (initRegisters s).wb = 0 := rfl
@[simp] theorem initRegisters_hb (s : State) : (initRegisters s).hb = 0 := rfl
@[simp] theorem initRegisters_vsamp (s : State) : (initRegisters s).vsamp = 1 := rfl
@[simp] theorem initRegisters_freqs (s : State) : (initRegisters s).freqs = s.freqs := rfl
@[simp] theorem initRegisters_qt (s : State) : (initRegisters s).qt = s.qt := rfl
@[simp] theorem initRegisters_pbuf (s : State) : (initRegisters s).pbuf = s.pbuf := rfl
@[simp] theorem initRegisters_ebuf (s : State) : (initRegisters s).ebuf = s.ebuf := rfl
@[simp] theorem initRegisters_coef (s : State) : (initRegisters s).coef = s.coef := rfl
@[simp] theorem initRegisters_pending (s : State) : (initRegisters s).pending = s.pending := rfl
@[simp] theorem initRegisters_reply (s : State) : (initRegisters s).reply = s.reply := rfl
@[simp] theorem initRegisters_resets (s : State) : (initRegisters s).resets = s.resets := rfl
@[simp] theorem initRegisters_draws (s : State) : (initRegisters s).draws = s.draws := rfl
@[simp] theorem initRegisters_slots (s : State) : slots (initRegisters s) = slots s := rfl

end Sys2Proof.Machine
end

