-- ==== Sys2Proof/Laws/Ops.lean ====
section
/-! SUPPORT. What each shared operation can do, said once: a caller cites the lemma and does not unfold the
operation. -/

namespace Sys2Proof.Machine

/-! ### Checks and ends -/

/-- A check that passes lets the command go on. -/
@[simp] theorem guarded_none (i : Instr) (s : State) (go : Host.Outcome State Fault Refusal) :
    guarded i none s go = go := rfl

/-- A check that gives a cause ends the command with it. -/
@[simp] theorem guarded_some (i : Instr) (c : Cause) (s : State) (go : Host.Outcome State Fault Refusal) :
    guarded i (some c) s go = .next (raise (some i) c s) := rfl

/-- How a guarded command can answer a next state. -/
theorem guarded_next {i : Instr} {check : Option Cause} {s t : State}
    {go : Host.Outcome State Fault Refusal} (h : guarded i check s go = .next t) :
    (∃ c, check = some c ∧ t = raise (some i) c s) ∨ (check = none ∧ go = .next t) := by
  cases check with
  | none => exact .inr ⟨rfl, h⟩
  | some c => exact .inl ⟨c, rfl, by simpa using h.symm⟩

/-- `settle` answers a next state only for a computation that gave one. -/
@[simp] theorem settle_next (r : Except Fault State) (t : State) : settle r = .next t ↔ r = .ok t := by
  cases r <;> simp [settle]

/-- `settle` faults exactly where the computation did. -/
@[simp] theorem settle_fault (r : Except Fault State) (f : Fault) : settle r = .fault f ↔ r = .error f := by
  cases r <;> simp [settle]

/-- How a bounded result can end. -/
theorem finishBounded_next {i : Instr} {v : Nat} {s t : State} (h : finishBounded i v s = .next t) :
    (lenMax < v ∧ t = raise (some i) .overflow s) ∨ (v ≤ lenMax ∧ t = finish v s) := by
  simp only [finishBounded] at h
  split at h
  · exact .inl ⟨by assumption, by simpa using h.symm⟩
  · exact .inr ⟨by omega, by simpa using h.symm⟩

/-! ### Coefficients -/

/-- The accessor answers exactly the block that is there. -/
theorem coefBlock_ok {n : Nat} {s : State} {blk : CoefBlock} :
    coefBlock n s = .ok blk ↔ s.coef[n]? = some blk := by
  unfold coefBlock; cases s.coef[n]? <;> simp

/-- The accessor stops exactly where the store has no such block. -/
theorem coefBlock_error {n : Nat} {s : State} {f : Fault} :
    coefBlock n s = .error f ↔ s.coef.length ≤ n ∧ f = .noSuchCoefBlock n := by
  unfold coefBlock
  cases h : s.coef[n]? with
  | none =>
    rw [List.getElem?_eq_none_iff] at h
    simp [h, eq_comm]
  | some blk =>
    have := (List.getElem?_eq_some_iff.1 h).1
    simp; omega

/-- What `pack_byte` does: it replaces one block that is there. -/
theorem packByte_ok {v : Byte} {n : Nat} {s t : State} :
    packByte v n s = .ok t ↔
      ∃ blk, s.coef[n]? = some blk ∧ t = storeBlock n (packBlock (slots s) v blk) s := by
  unfold packByte
  cases h : coefBlock n s with
  | error f =>
    obtain ⟨h1, -⟩ := coefBlock_error.1 h
    simp [List.getElem?_eq_none h1]
  | ok blk => simp [coefBlock_ok.1 h, eq_comm]

/-- When `pack_byte` stops. -/
theorem packByte_error {v : Byte} {n : Nat} {s : State} {f : Fault} :
    packByte v n s = .error f ↔ s.coef.length ≤ n ∧ f = .noSuchCoefBlock n := by
  unfold packByte
  cases h : coefBlock n s with
  | error g =>
    rw [← coefBlock_error, h]
    simp
  | ok blk =>
    have := (List.getElem?_eq_some_iff.1 (coefBlock_ok.1 h)).1
    simp; omega

/-- What `unpack_byte` does. -/
theorem unpackByte_ok {n : Nat} {s : State} {v : Byte} :
    unpackByte n s = .ok v ↔ ∃ blk, s.coef[n]? = some blk ∧ v = unpackBlock (slots s) blk := by
  unfold unpackByte
  cases h : coefBlock n s with
  | error f =>
    obtain ⟨h1, -⟩ := coefBlock_error.1 h
    simp [List.getElem?_eq_none h1]
  | ok blk => simp [coefBlock_ok.1 h, eq_comm]

/-- When `unpack_byte` stops. -/
theorem unpackByte_error {n : Nat} {s : State} {f : Fault} :
    unpackByte n s = .error f ↔ s.coef.length ≤ n ∧ f = .noSuchCoefBlock n := by
  unfold unpackByte
  cases h : coefBlock n s with
  | error g =>
    rw [← coefBlock_error, h]
    simp
  | ok blk =>
    have := (List.getElem?_eq_some_iff.1 (coefBlock_ok.1 h)).1
    simp; omega

/-- The store after the blocks `[start, start + d.length)` were packed with the bytes `d`. -/
structure Packed (sl : Vector Slot 4) (start : Nat) (d : List Byte) (old new : List CoefBlock) : Prop where
  length : new.length = old.length
  blocks : ∀ j, new[j]? =
    if start ≤ j ∧ j < start + d.length then (old[j]?).map (packBlock sl (d.getD (j - start) 0)) else old[j]?

/-- Nothing packed. -/
theorem Packed.nil (sl : Vector Slot 4) (start : Nat) (old : List CoefBlock) :
    Packed sl start [] old old :=
  ⟨rfl, fun j => by rw [if_neg (by simp)]⟩

/-- One block packed, then the rest. -/
theorem Packed.cons {sl : Vector Slot 4} {start : Nat} {v : Byte} {d : List Byte}
    {old new : List CoefBlock} {blk : CoefBlock} (hb : old[start]? = some blk)
    (h : Packed sl (start + 1) d (old.set start (packBlock sl v blk)) new) :
    Packed sl start (v :: d) old new := by
  refine ⟨by simpa using h.length, fun j => ?_⟩
  rw [h.blocks j]
  have hlt := (List.getElem?_eq_some_iff.1 hb).1
  simp only [List.length_cons]
  by_cases hj : j = start
  · subst hj
    rw [if_neg (by omega), if_pos (by omega)]
    simp [hlt, (List.getElem?_eq_some_iff.1 hb).2]
  · rw [List.getElem?_set_ne (Ne.symm hj)]
    by_cases hr : start + 1 ≤ j ∧ j < start + 1 + d.length
    · rw [if_pos hr, if_pos (by omega)]
      have : j - start = (j - (start + 1)) + 1 := by omega
      simp [this]
    · rw [if_neg hr, if_neg (by omega)]

/-- A block that is packed over carries the last byte only. -/
theorem Packed.trans_cut {sl : Vector Slot 4} {start : Nat} {d e : List Byte} {a b c : List CoefBlock}
    (h1 : Packed sl start d a b) (h2 : Packed sl (start + d.length) e b c) :
    Packed sl start (d ++ e) a c := by
  refine ⟨h2.length.trans h1.length, fun j => ?_⟩
  rw [h2.blocks j, h1.blocks j]
  simp only [List.length_append]
  by_cases hd : start ≤ j ∧ j < start + d.length
  · rw [if_neg (by omega), if_pos hd, if_pos (by omega)]
    simp [List.getD_eq_getElem?_getD, List.getElem?_append_left (show j - start < d.length by omega)]
  · by_cases he : start + d.length ≤ j ∧ j < start + d.length + e.length
    · rw [if_pos he, if_neg hd, if_pos (by omega)]
      have : j - start - d.length = j - (start + d.length) := by omega
      simp [List.getD_eq_getElem?_getD, List.getElem?_append_right (show d.length ≤ j - start by omega), this]
    · rw [if_neg he, if_neg hd, if_neg (by omega)]

/-- What `pack_byte` of consecutive blocks does (`LENWR`). -/
theorem packBytes_ok {d : List Byte} {n : Nat} {s t : State} (h : packBytes d n s = .ok t) :
    t = { s with coef := t.coef } ∧ Packed (slots s) n d s.coef t.coef := by
  induction d generalizing n s with
  | nil =>
    obtain rfl : s = t := by simpa [packBytes] using h
    exact ⟨rfl, Packed.nil ..⟩
  | cons v d ih =>
    simp only [packBytes] at h
    split at h
    · rename_i u hu
      obtain ⟨blk, hb, rfl⟩ := packByte_ok.1 hu
      obtain ⟨h1, h2⟩ := ih h
      exact ⟨h1, Packed.cons hb h2⟩
    · cases h

/-- It completes where the store has the blocks. -/
theorem packBytes_complete (d : List Byte) (n : Nat) (s : State) (h : n + d.length ≤ s.coef.length) :
    ∃ t, packBytes d n s = .ok t := by
  induction d generalizing n s with
  | nil => exact ⟨s, rfl⟩
  | cons v d ih =>
    simp only [List.length_cons] at h
    cases hp : packByte v n s with
    | error f => have := (packByte_error.1 hp).1; omega
    | ok u =>
      obtain ⟨blk, hb, rfl⟩ := packByte_ok.1 hp
      obtain ⟨t, ht⟩ := ih (n + 1) (storeBlock n (packBlock (slots s) v blk) s)
        (by simp; omega)
      exact ⟨t, by simp only [packBytes, hp]; exact ht⟩

/-- What `unpack_byte` of consecutive blocks reads (`LENRD`). -/
theorem unpackBytes_ok {count n : Nat} {s : State} {bytes : List Byte} (h : unpackBytes count n s = .ok bytes) :
    bytes.length = count ∧
      ∀ j < count, ∃ blk, s.coef[n + j]? = some blk ∧ bytes[j]? = some (unpackBlock (slots s) blk) := by
  induction count generalizing n bytes with
  | zero =>
    obtain rfl : [] = bytes := by simpa [unpackBytes] using h
    exact ⟨rfl, fun j hj => absurd hj (by omega)⟩
  | succ count ih =>
    simp only [unpackBytes] at h
    split at h
    · cases h
    · rename_i v hv
      split at h
      · rename_i rest hrest
        obtain rfl : v :: rest = bytes := by simpa using h
        obtain ⟨blk, hb, rfl⟩ := unpackByte_ok.1 hv
        obtain ⟨h1, h2⟩ := ih hrest
        refine ⟨by simp [h1], fun j hj => ?_⟩
        cases j with
        | zero => exact ⟨blk, hb, rfl⟩
        | succ j =>
          obtain ⟨blk', hb', he⟩ := h2 j (by omega)
          exact ⟨blk', by rw [show n + (j + 1) = n + 1 + j by omega]; exact hb', by simpa using he⟩
      · cases h

/-- It completes where the store has the blocks. -/
theorem unpackBytes_complete (count n : Nat) (s : State) (h : n + count ≤ s.coef.length) :
    ∃ bytes, unpackBytes count n s = .ok bytes := by
  induction count generalizing n with
  | zero => exact ⟨[], rfl⟩
  | succ count ih =>
    obtain ⟨rest, hr⟩ := ih (n + 1) (by omega)
    cases hv : unpackByte n s with
    | error f => have := (unpackByte_error.1 hv).1; omega
    | ok v => exact ⟨v :: rest, by simp only [unpackBytes, hv, hr]⟩

/-! ### The scans -/

/-- What `write_prefix` does: it packs its bytes from block `BLK` up, as many as there are blocks. -/
theorem writePrefix_ok {n : Nat} {d : List Byte} {s t : State} (h : writePrefix n d s = .ok t)
    (hs : s.blk.toNat ≤ n) (hn : n < 2 ^ 32) :
    t = { s with coef := t.coef, blk := BitVec.ofNat 32 (s.blk.toNat + min d.length (n - s.blk.toNat)) } ∧
      Packed (slots s) s.blk.toNat (d.take (n - s.blk.toNat)) s.coef t.coef := by
  induction d generalizing s with
  | nil =>
    obtain rfl : s = t := by simpa [writePrefix] using h
    refine ⟨?_, by simpa using Packed.nil ..⟩
    simp
  | cons v d ih =>
    simp only [writePrefix] at h
    split at h
    · rename_i hb
      obtain rfl : s = t := by simpa using h
      rw [hb, Nat.sub_self]
      refine ⟨?_, by simpa using Packed.nil ..⟩
      simp [← hb]
    · split at h
      · rename_i hne u hu
        obtain ⟨blk, hb, rfl⟩ := packByte_ok.1 hu
        have hblk : (s.blk + 1).toNat = s.blk.toNat + 1 := by
          rw [BitVec.toNat_add]; simp; omega
        obtain ⟨h1, h2⟩ := ih h (by simp; omega)
        simp only [nextBlock, storeBlock, hblk] at h1 h2
        refine ⟨?_, ?_⟩
        · rw [h1]
          have : s.blk.toNat + 1 + min d.length (n - (s.blk.toNat + 1)) =
              s.blk.toNat + min (v :: d).length (n - s.blk.toNat) := by
            simp only [List.length_cons]; omega
          simp only [this]
        · have : n - s.blk.toNat = (n - (s.blk.toNat + 1)) + 1 := by omega
          rw [this, List.take_succ_cons]
          exact Packed.cons hb h2
      · cases h

/-- What `write_payload` does: it packs its bytes from block `BLK` up, as many as there are blocks, and
counts them in `K`. -/
theorem writePayload_ok {n : Nat} {d : List Byte} {s t : State} (h : writePayload n d s = .ok t)
    (hs : s.blk.toNat ≤ n) (hn : n < 2 ^ 32) :
    t = { s with
        coef := t.coef
        blk := BitVec.ofNat 32 (s.blk.toNat + min d.length (n - s.blk.toNat))
        k := s.k + BitVec.ofNat 32 (min d.length (n - s.blk.toNat)) } ∧
      Packed (slots s) s.blk.toNat (d.take (n - s.blk.toNat)) s.coef t.coef := by
  induction d generalizing s with
  | nil =>
    obtain rfl : s = t := by simpa [writePayload] using h
    refine ⟨?_, by simpa using Packed.nil ..⟩
    simp
  | cons v d ih =>
    simp only [writePayload] at h
    split at h
    · split at h
      · rename_i hlt u hu
        obtain ⟨blk, hb, rfl⟩ := packByte_ok.1 hu
        have hblk : (s.blk + 1).toNat = s.blk.toNat + 1 := by
          rw [BitVec.toNat_add]; simp; omega
        obtain ⟨h1, h2⟩ := ih h (by simp; omega)
        simp only [nextByte, storeBlock, hblk] at h1 h2
        have hmin : min (v :: d).length (n - s.blk.toNat) = min d.length (n - (s.blk.toNat + 1)) + 1 := by
          simp only [List.length_cons]; omega
        refine ⟨?_, ?_⟩
        · rw [h1, hmin]
          have hk : s.k + 1 + BitVec.ofNat 32 (min d.length (n - (s.blk.toNat + 1))) =
              s.k + BitVec.ofNat 32 (min d.length (n - (s.blk.toNat + 1)) + 1) := by
            rw [BitVec.ofNat_add, BitVec.add_assoc, BitVec.add_comm (1 : Word)]; rfl
          simp only [hk, show s.blk.toNat + 1 + min d.length (n - (s.blk.toNat + 1)) =
            s.blk.toNat + (min d.length (n - (s.blk.toNat + 1)) + 1) by omega]
        · have : n - s.blk.toNat = (n - (s.blk.toNat + 1)) + 1 := by omega
          rw [this, List.take_succ_cons]
          exact Packed.cons hb h2
      · cases h
    · rename_i hge
      obtain rfl : s = t := by simpa using h
      have : n - s.blk.toNat = 0 := by omega
      rw [this]
      refine ⟨?_, by simpa using Packed.nil ..⟩
      simp

/-- `write_prefix` completes where the store has the blocks. -/
theorem writePrefix_complete (n : Nat) (d : List Byte) (s : State) (hn : n ≤ s.coef.length)
    (h32 : n < 2 ^ 32) (hs : s.blk.toNat ≤ n) : ∃ t, writePrefix n d s = .ok t := by
  induction d generalizing s with
  | nil => exact ⟨s, rfl⟩
  | cons v d ih =>
    by_cases hb : s.blk.toNat = n
    · exact ⟨s, by simp [writePrefix, hb]⟩
    · cases hp : packByte v s.blk.toNat s with
      | error f => have := (packByte_error.1 hp).1; omega
      | ok u =>
        obtain ⟨blk, hb', rfl⟩ := packByte_ok.1 hp
        have hblk : (s.blk + 1).toNat = s.blk.toNat + 1 := by
          rw [BitVec.toNat_add]; simp; omega
        obtain ⟨t, ht⟩ := ih (nextBlock (storeBlock s.blk.toNat (packBlock (slots s) v blk) s))
          (by simpa using hn) (by simp; omega)
        exact ⟨t, by simp only [writePrefix, hb, if_false, hp]; exact ht⟩

/-- `write_payload` completes where the store has the blocks. -/
theorem writePayload_complete (n : Nat) (d : List Byte) (s : State) (hn : n ≤ s.coef.length) :
    ∃ t, writePayload n d s = .ok t := by
  induction d generalizing s with
  | nil => exact ⟨s, rfl⟩
  | cons v d ih =>
    by_cases hb : s.blk.toNat < n
    · cases hp : packByte v s.blk.toNat s with
      | error f => have := (packByte_error.1 hp).1; omega
      | ok u =>
        obtain ⟨blk, hb', rfl⟩ := packByte_ok.1 hp
        obtain ⟨t, ht⟩ := ih (nextByte (storeBlock s.blk.toNat (packBlock (slots s) v blk) s))
          (by simpa using hn)
        exact ⟨t, by simp only [writePayload, hb, if_true, hp]; exact ht⟩
    · exact ⟨s, by simp [writePayload, hb]⟩

/-- What `read_prefix` reads, and where it leaves `BLK`. -/
theorem readPrefix_ok {count : Nat} {s t : State} {bytes : List Byte} (h : readPrefix count s = .ok (bytes, t))
    (hs : s.blk.toNat + count < 2 ^ 32) :
    t = { s with blk := BitVec.ofNat 32 (s.blk.toNat + count) } ∧ bytes.length = count ∧
      ∀ j < count, ∃ blk, s.coef[s.blk.toNat + j]? = some blk ∧
        bytes[j]? = some (unpackBlock (slots s) blk) := by
  induction count generalizing s bytes with
  | zero =>
    obtain ⟨rfl, rfl⟩ : [] = bytes ∧ s = t := by simpa [readPrefix] using h
    refine ⟨by simp, rfl, fun j hj => absurd hj (by omega)⟩
  | succ count ih =>
    simp only [readPrefix] at h
    split at h
    · cases h
    · rename_i v hv
      split at h
      · rename_i rest u hrest
        obtain ⟨rfl, rfl⟩ : v :: rest = bytes ∧ u = t := by simpa using h
        obtain ⟨blk, hb, rfl⟩ := unpackByte_ok.1 hv
        have hblk : (s.blk + 1).toNat = s.blk.toNat + 1 := by
          rw [BitVec.toNat_add]; simp; omega
        obtain ⟨h1, h2, h3⟩ := ih hrest (by simp; omega)
        simp only [nextBlock, hblk] at h1 h3
        refine ⟨?_, by simp [h2], fun j hj => ?_⟩
        · rw [h1, show s.blk.toNat + 1 + count = s.blk.toNat + (count + 1) by omega]
        · cases j with
          | zero => exact ⟨blk, hb, rfl⟩
          | succ j =>
            obtain ⟨blk', hb', he⟩ := h3 j (by omega)
            exact ⟨blk', by rw [show s.blk.toNat + (j + 1) = s.blk.toNat + 1 + j by omega]; exact hb', he⟩
      · cases h

/-- What `read_payload` reads, and where it leaves `BLK` and `K`. -/
theorem readPayload_ok {count : Nat} {s t : State} {bytes : List Byte}
    (h : readPayload count s = .ok (bytes, t)) (hs : s.blk.toNat + count < 2 ^ 32) :
    t = { s with
        blk := BitVec.ofNat 32 (s.blk.toNat + count), k := s.k + BitVec.ofNat 32 count } ∧
      bytes.length = count ∧
      ∀ j < count, ∃ blk, s.coef[s.blk.toNat + j]? = some blk ∧
        bytes[j]? = some (unpackBlock (slots s) blk) := by
  induction count generalizing s bytes with
  | zero =>
    obtain ⟨rfl, rfl⟩ : [] = bytes ∧ s = t := by simpa [readPayload] using h
    refine ⟨by simp, rfl, fun j hj => absurd hj (by omega)⟩
  | succ count ih =>
    simp only [readPayload] at h
    split at h
    · cases h
    · rename_i v hv
      split at h
      · rename_i rest u hrest
        obtain ⟨rfl, rfl⟩ : v :: rest = bytes ∧ u = t := by simpa using h
        obtain ⟨blk, hb, rfl⟩ := unpackByte_ok.1 hv
        have hblk : (s.blk + 1).toNat = s.blk.toNat + 1 := by
          rw [BitVec.toNat_add]; simp; omega
        obtain ⟨h1, h2, h3⟩ := ih hrest (by simp; omega)
        simp only [nextByte, hblk] at h1 h3
        refine ⟨?_, by simp [h2], fun j hj => ?_⟩
        · have hk : s.k + 1 + BitVec.ofNat 32 count = s.k + BitVec.ofNat 32 (count + 1) := by
            rw [BitVec.ofNat_add, BitVec.add_assoc, BitVec.add_comm (1 : Word)]; rfl
          rw [h1, hk, show s.blk.toNat + 1 + count = s.blk.toNat + (count + 1) by omega]
        · cases j with
          | zero => exact ⟨blk, hb, rfl⟩
          | succ j =>
            obtain ⟨blk', hb', he⟩ := h3 j (by omega)
            exact ⟨blk', by rw [show s.blk.toNat + (j + 1) = s.blk.toNat + 1 + j by omega]; exact hb', he⟩
      · cases h

/-- `read_prefix` completes where the store has the blocks. -/
theorem readPrefix_complete (count : Nat) (s : State) (h : s.blk.toNat + count ≤ s.coef.length)
    (h32 : s.blk.toNat + count < 2 ^ 32) : ∃ r, readPrefix count s = .ok r := by
  induction count generalizing s with
  | zero => exact ⟨_, rfl⟩
  | succ count ih =>
    cases hv : unpackByte s.blk.toNat s with
    | error f => have := (unpackByte_error.1 hv).1; omega
    | ok v =>
      have hblk : (s.blk + 1).toNat = s.blk.toNat + 1 := by
        rw [BitVec.toNat_add]; simp; omega
      obtain ⟨⟨rest, t⟩, hr⟩ := ih (nextBlock s) (by simp; omega) (by simp; omega)
      exact ⟨(v :: rest, t), by simp only [readPrefix, hv, hr]⟩

/-- `read_payload` completes where the store has the blocks. -/
theorem readPayload_complete (count : Nat) (s : State) (h : s.blk.toNat + count ≤ s.coef.length)
    (h32 : s.blk.toNat + count < 2 ^ 32) : ∃ r, readPayload count s = .ok r := by
  induction count generalizing s with
  | zero => exact ⟨_, rfl⟩
  | succ count ih =>
    cases hv : unpackByte s.blk.toNat s with
    | error f => have := (unpackByte_error.1 hv).1; omega
    | ok v =>
      have hblk : (s.blk + 1).toNat = s.blk.toNat + 1 := by
        rw [BitVec.toNat_add]; simp; omega
      obtain ⟨⟨rest, t⟩, hr⟩ := ih (nextByte s) (by simp; omega) (by simp; omega)
      exact ⟨(v :: rest, t), by simp only [readPayload, hv, hr]⟩

/-! ### Selection and delivery -/

/-- What `ensure_selection` leaves: the state as it was, or with a selection stored. -/
theorem ensureSelection_cases (s : State) :
    (s.nfreqs = 0 ∧ qtLoaded s = false ∧ ensureSelection s = (s, some .tableNotLoaded)) ∨
    (s.nfreqs ≠ 0 ∧ ensureSelection s =
      (s, if s.nfreqs.toNat < 4 then some .tooFewFrequencies else none)) ∨
    (s.nfreqs = 0 ∧ qtLoaded s = true ∧ ensureSelection s =
      (storeSelection (selected s) s,
        if (storeSelection (selected s) s).nfreqs.toNat < 4 then some .tooFewFrequencies else none)) := by
  unfold ensureSelection selectionResolved
  by_cases h : s.nfreqs = 0#7
  · cases hq : qtLoaded s
    · exact .inl ⟨h, rfl, by simp [h]⟩
    · exact .inr (.inr ⟨h, rfl, by simp [h]⟩)
  · exact .inr (.inl ⟨h, by simp [h]⟩)

/-- What `deliver` does where the bytes fit `MAXLEN`. -/
theorem deliver_fits {i : Instr} {d : List Byte} {s : State} (h : d.length ≤ s.maxlen.toNat) :
    deliver i d s =
      finish d.length (storePbuf d s) := by
  simp [deliver, Nat.min_eq_left h, Nat.not_lt.2 h]

/-- What `deliver` does where they do not. -/
theorem deliver_cut {i : Instr} {d : List Byte} {s : State} (h : s.maxlen.toNat < d.length) :
    deliver i d s =
      raise (some i) .bufferTooSmall (storePbuf (d.take s.maxlen.toNat) s) := by
  simp [deliver, Nat.min_eq_right (Nat.le_of_lt h), h]

end Sys2Proof.Machine
end

