-- ==== Sys2Proof/Laws/Scan.lean ====
section
/-! SUPPORT. What the two scans can do, said once: where each loop stops, and what `EMBED` and `EXTRACT` leave
after the checks of `SelectFrequencies`. -/

namespace Sys2Proof.Machine

/-- `BLK` does not wrap below the block count (10_state.md R58). -/
theorem blk_succ {x : Word} {n : Nat} (h : x.toNat < n) (hn : n < 2 ^ 32) : (x + 1).toNat = x.toNat + 1 := by
  rw [BitVec.toNat_add]; simp; omega

/-- Where `write_prefix` stops: at the first block that the store lacks. -/
theorem writePrefix_error {n : Nat} {d : List Byte} {s : State} {f : Fault} (hs : s.blk.toNat ≤ n)
    (hc : s.blk.toNat ≤ s.coef.length) (hn : n < 2 ^ 32) :
    writePrefix n d s = .error f ↔
      (s.coef.length < n ∧ s.coef.length < s.blk.toNat + d.length) ∧ f = .noSuchCoefBlock s.coef.length := by
  induction d generalizing s with
  | nil => simp [writePrefix]; omega
  | cons v d ih =>
    simp only [writePrefix]
    split
    · simp; omega
    · rename_i hne
      cases hp : packByte v s.blk.toNat s with
      | error g =>
        obtain ⟨h1, rfl⟩ := packByte_error.1 hp
        have : s.blk.toNat = s.coef.length := by omega
        simp [this, eq_comm]; omega
      | ok u =>
        obtain ⟨blk, hb, rfl⟩ := packByte_ok.1 hp
        have h1 := (List.getElem?_eq_some_iff.1 hb).1
        have hblk := blk_succ (x := s.blk) (n := n) (by omega) hn
        simp only
        rw [ih (by simp only [nextBlock, storeBlock, hblk]; omega) (by simp only [nextBlock, storeBlock, hblk]; simp; omega)]
        simp only [nextBlock, storeBlock, hblk, List.length_set, List.length_cons]
        constructor <;> rintro ⟨h, rfl⟩ <;> exact ⟨by omega, rfl⟩

/-- Where `write_payload` stops: at the first block that the store lacks. -/
theorem writePayload_error {n : Nat} {d : List Byte} {s : State} {f : Fault} (hs : s.blk.toNat ≤ n)
    (hc : s.blk.toNat ≤ s.coef.length) (hn : n < 2 ^ 32) :
    writePayload n d s = .error f ↔
      (s.coef.length < n ∧ s.coef.length < s.blk.toNat + d.length) ∧ f = .noSuchCoefBlock s.coef.length := by
  induction d generalizing s with
  | nil => simp [writePayload]; omega
  | cons v d ih =>
    simp only [writePayload]
    split
    · rename_i hne
      cases hp : packByte v s.blk.toNat s with
      | error g =>
        obtain ⟨h1, rfl⟩ := packByte_error.1 hp
        have : s.blk.toNat = s.coef.length := by omega
        simp [this, eq_comm]; omega
      | ok u =>
        obtain ⟨blk, hb, rfl⟩ := packByte_ok.1 hp
        have h1 := (List.getElem?_eq_some_iff.1 hb).1
        have hblk := blk_succ (x := s.blk) (n := n) (by omega) hn
        simp only
        rw [ih (by simp only [nextByte, storeBlock, hblk]; omega) (by simp only [nextByte, storeBlock, hblk]; simp; omega)]
        simp only [nextByte, storeBlock, hblk, List.length_set, List.length_cons]
        constructor <;> rintro ⟨h, rfl⟩ <;> exact ⟨by omega, rfl⟩
    · simp; omega

/-- Where `read_prefix` stops: at the first block that the store lacks. -/
theorem readPrefix_error {count : Nat} {s : State} {f : Fault}
    (hc : s.blk.toNat ≤ s.coef.length) (hn : s.blk.toNat + count < 2 ^ 32) :
    readPrefix count s = .error f ↔
      s.coef.length < s.blk.toNat + count ∧ f = .noSuchCoefBlock s.coef.length := by
  induction count generalizing s with
  | zero => simp [readPrefix]; omega
  | succ count ih =>
    simp only [readPrefix]
    cases hp : unpackByte s.blk.toNat s with
    | error g =>
      obtain ⟨h1, rfl⟩ := unpackByte_error.1 hp
      have : s.blk.toNat = s.coef.length := by omega
      simp [this, eq_comm]
    | ok v =>
      obtain ⟨blk, hb, rfl⟩ := unpackByte_ok.1 hp
      have h1 := (List.getElem?_eq_some_iff.1 hb).1
      have hblk := blk_succ (x := s.blk) (n := s.blk.toNat + (count + 1)) (by omega) hn
      have := @ih (nextBlock s) (by simp only [nextBlock, hblk]; omega) (by simp only [nextBlock, hblk]; omega)
      simp only [nextBlock, hblk] at this
      cases hr : readPrefix count (nextBlock s) with
      | error g =>
        simp only [nextBlock] at hr
        simp only [hr] at this
        simp only [Except.error.injEq] at this ⊢
        rw [this]; constructor <;> rintro ⟨h, rfl⟩ <;> exact ⟨by omega, rfl⟩
      | ok r =>
        simp only [nextBlock] at hr
        simp only [hr] at this
        simp only [reduceCtorEq, false_iff, not_and] at this ⊢
        exact fun h => this (by omega)

/-- Where `read_payload` stops: at the first block that the store lacks. -/
theorem readPayload_error {count : Nat} {s : State} {f : Fault}
    (hc : s.blk.toNat ≤ s.coef.length) (hn : s.blk.toNat + count < 2 ^ 32) :
    readPayload count s = .error f ↔
      s.coef.length < s.blk.toNat + count ∧ f = .noSuchCoefBlock s.coef.length := by
  induction count generalizing s with
  | zero => simp [readPayload]; omega
  | succ count ih =>
    simp only [readPayload]
    cases hp : unpackByte s.blk.toNat s with
    | error g =>
      obtain ⟨h1, rfl⟩ := unpackByte_error.1 hp
      have : s.blk.toNat = s.coef.length := by omega
      simp [this, eq_comm]
    | ok v =>
      obtain ⟨blk, hb, rfl⟩ := unpackByte_ok.1 hp
      have h1 := (List.getElem?_eq_some_iff.1 hb).1
      have hblk := blk_succ (x := s.blk) (n := s.blk.toNat + (count + 1)) (by omega) hn
      have := @ih (nextByte s) (by simp only [nextByte, hblk]; omega) (by simp only [nextByte, hblk]; omega)
      simp only [nextByte, hblk] at this
      cases hr : readPayload count (nextByte s) with
      | error g =>
        simp only [nextByte] at hr
        simp only [hr] at this
        simp only [Except.error.injEq] at this ⊢
        rw [this]; constructor <;> rintro ⟨h, rfl⟩ <;> exact ⟨by omega, rfl⟩
      | ok r =>
        simp only [nextByte] at hr
        simp only [hr] at this
        simp only [reduceCtorEq, false_iff, not_and] at this ⊢
        exact fun h => this (by omega)

/-- Where the reads of `LENRD` stop. -/
theorem unpackBytes_error {count n : Nat} {s : State} {f : Fault} (hc : n ≤ s.coef.length) :
    unpackBytes count n s = .error f ↔ s.coef.length < n + count ∧ f = .noSuchCoefBlock s.coef.length := by
  induction count generalizing n with
  | zero => simp [unpackBytes]; omega
  | succ count ih =>
    simp only [unpackBytes]
    cases hp : unpackByte n s with
    | error g =>
      obtain ⟨h1, rfl⟩ := unpackByte_error.1 hp
      have : n = s.coef.length := by omega
      simp [this, eq_comm]
    | ok v =>
      obtain ⟨blk, hb, rfl⟩ := unpackByte_ok.1 hp
      have h1 := (List.getElem?_eq_some_iff.1 hb).1
      have := @ih (n + 1) (by omega)
      cases hr : unpackBytes count (n + 1) s with
      | error g =>
        simp only [hr] at this
        simp only [Except.error.injEq] at this ⊢
        rw [this]; constructor <;> rintro ⟨h, rfl⟩ <;> exact ⟨by omega, rfl⟩
      | ok r =>
        simp only [hr] at this
        simp only [reduceCtorEq, false_iff, not_and] at this ⊢
        exact fun h => this (by omega)

/-- Where the writes of `LENWR` stop. -/
theorem packBytes_error {d : List Byte} {n : Nat} {s : State} {f : Fault} (hc : n ≤ s.coef.length) :
    packBytes d n s = .error f ↔ s.coef.length < n + d.length ∧ f = .noSuchCoefBlock s.coef.length := by
  induction d generalizing n s with
  | nil => simp [packBytes]; omega
  | cons v d ih =>
    simp only [packBytes]
    cases hp : packByte v n s with
    | error g =>
      obtain ⟨h1, rfl⟩ := packByte_error.1 hp
      have : n = s.coef.length := by omega
      simp [this, eq_comm]
    | ok u =>
      obtain ⟨blk, hb, rfl⟩ := packByte_ok.1 hp
      have h1 := (List.getElem?_eq_some_iff.1 hb).1
      simp only
      rw [ih (by simp; omega)]
      simp only [storeBlock]
      simp only [List.length_set, List.length_cons]
      constructor <;> rintro ⟨h, rfl⟩ <;> exact ⟨by omega, rfl⟩

/-- The bytes of a length prefix. -/
@[simp] theorem lengthBytes_length (t : Nat) : (lengthBytes t).length = 4 := rfl

/-- The prefix bytes that `EMBED` writes for `t` raw bytes in an image of `n` blocks. -/
def prefixWritten (s : State) (n t : Nat) : List Byte := if s.embedLength then (lengthBytes t).take n else []

/-- How many they are. -/
theorem prefixWritten_length (s : State) (n t : Nat) :
    (prefixWritten s n t).length = min (if s.embedLength then 4 else 0) n := by
  unfold prefixWritten; split <;> simp [Nat.min_comm]

/-- What the scan of `EMBED` leaves: `BLK`, `K` and the packed blocks, and then the report. -/
theorem embedScan_ok {n : Nat} {d : List Byte} {s t : State} (h : embedScan n d s = .ok t) (hb : s.blk = 0)
    (hk : s.k = 0) (hn : n < 2 ^ 32) :
    let p := (prefixWritten s n d.length).length
    let c := min d.length (n - p)
    ∃ u, t = embedResult d.length u ∧
      u = { s with phase := .done, coef := u.coef, blk := BitVec.ofNat 32 (p + c), k := BitVec.ofNat 32 c } ∧
      Packed (slots s) 0 (prefixWritten s n d.length ++ d.take (n - p)) s.coef u.coef := by
  intro p c
  simp only [embedScan] at h
  split at h
  · cases h
  · rename_i s2 h2
    have key : s2 = { setPhase .scanWriteLength s with coef := s2.coef, blk := BitVec.ofNat 32 p } ∧
        Packed (slots s) 0 (prefixWritten s n d.length) s.coef s2.coef := by
      by_cases he : s.embedLength
      · rw [if_pos he] at h2
        obtain ⟨h3, h4⟩ := writePrefix_ok h2 (by simp [hb]) hn
        have hp : p = min 4 n := by simp [p, prefixWritten_length, he]
        refine ⟨?_, ?_⟩
        · rw [h3]; simp [hb, hp, Nat.min_comm]
        · simpa [hb, prefixWritten, he] using h4
      · rw [if_neg he] at h2
        have : s2 = setPhase .scanWriteLength s := by simpa using h2.symm
        subst this
        have hp : p = 0 := by simp [p, prefixWritten, he]
        refine ⟨by simp [hp, hb, setPhase], ?_⟩
        simpa [prefixWritten, he] using Packed.nil ..
    obtain ⟨k1, k2⟩ := key
    have hpn : p ≤ n := by simp [p, prefixWritten_length]
    have hblk : s2.blk.toNat = p := by rw [k1]; simp; omega
    split at h
    · cases h
    · rename_i s3 h5
      obtain ⟨h6, h7⟩ := writePayload_ok h5 (by simp [hblk, hpn]) hn
      simp only [setPhase_blk, hblk] at h6 h7
      refine ⟨setPhase .done s3, by simpa using h.symm, ?_, ?_⟩
      · rw [h6, k1]; simp [hk, c, setPhase]
      · have h8 : slots (setPhase .scanWritePayload s2) = slots s := by rw [k1]; rfl
        rw [h8] at h7
        have := Packed.trans_cut k2 (by simpa using h7)
        simpa using this

/-- Where the scan of `EMBED` stops. -/
theorem embedScan_error {n : Nat} {d : List Byte} {s : State} {f : Fault} (hb : s.blk = 0) (hn : n < 2 ^ 32) :
    embedScan n d s = .error f ↔
      (s.coef.length < n ∧ s.coef.length < (if s.embedLength then 4 else 0) + d.length) ∧
        f = .noSuchCoefBlock s.coef.length := by
  simp only [embedScan]
  by_cases he : s.embedLength
  · rw [if_pos he, if_pos he]
    split
    · rename_i g h2
      obtain ⟨h3, rfl⟩ := (writePrefix_error (by simp [hb]) (by simp [hb]) hn).1 h2
      simp [hb] at h3
      simp [eq_comm]; omega
    · rename_i s2 h2
      obtain ⟨h3, h4⟩ := writePrefix_ok h2 (by simp [hb]) hn
      have h5 : s2.blk.toNat = min 4 n := by rw [h3]; simp [hb]
      have h6 : s2.coef.length = s.coef.length := h4.length
      have h7 : ¬(s.coef.length < n ∧ s.coef.length < 4) := by
        intro h
        have := (writePrefix_error (d := lengthBytes d.length) (f := .noSuchCoefBlock s.coef.length)
          (s := setPhase .scanWriteLength s) (by simp [hb]) (by simp [hb]) hn).2
          ⟨⟨h.1, by simp [hb]; exact h.2⟩, rfl⟩
        rw [this] at h2; cases h2
      have h8 := @writePayload_error n d (setPhase .scanWritePayload s2) f
        (by simp [h5]) (by simp [h5, h6]; omega) hn
      simp only [setPhase_blk, setPhase_coef, h5, h6] at h8
      cases h9 : writePayload n d (setPhase .scanWritePayload s2) with
      | error g =>
        simp only [h9] at h8
        simp only [h8]; constructor <;> rintro ⟨h, rfl⟩ <;> exact ⟨by omega, rfl⟩
      | ok s3 =>
        simp only [h9, reduceCtorEq, false_iff, not_and] at h8 ⊢
        exact fun h => h8 (by omega)
  · rw [if_neg he, if_neg he]
    have h8 := @writePayload_error n d (setPhase .scanWritePayload (setPhase .scanWriteLength s)) f
        (by simp [hb]) (by simp [hb]) hn
    simp only [setPhase_blk, setPhase_coef, hb] at h8
    cases h9 : writePayload n d (setPhase .scanWritePayload (setPhase .scanWriteLength s)) with
    | error g =>
      simp only [h9] at h8
      simp [h9, h8]
    | ok s3 =>
      simp only [h9, reduceCtorEq, false_iff, not_and] at h8
      simp [h9] at h8 ⊢
      exact h8
end Sys2Proof.Machine
end

