-- ==== Sys2Proof/Laws/Exec.lean ====
section
/-! SUPPORT. What each command can leave, said once per command: which fields it may have written when it ends,
and that it ends with `raise` or `done`. -/

namespace Sys2Proof.Machine

/-- How a command ends: with an error raised, or with a value. -/
def Ends (i : Instr) (u t : State) : Prop := (∃ c, t = raise (some i) c u) ∨ ∃ v, t = finish v u

/-- An error ends a command. -/
theorem Ends.raise {i : Instr} {u : State} (c : Cause) : Ends i u (raise (some i) c u) := .inl ⟨c, rfl⟩
/-- `done` ends a command. -/
theorem Ends.finish {i : Instr} {u : State} (v : Nat) : Ends i u (finish v u) := .inr ⟨v, rfl⟩

/-- What `deliver` does: bytes into `PBUF`, and an end. -/
theorem deliver_ends (i : Instr) (d : List Byte) (s : State) :
    Ends i (storePbuf (d.take s.maxlen.toNat) s) (deliver i d s) := by
  by_cases h : d.length ≤ s.maxlen.toNat
  · rw [deliver_fits h, List.take_of_length_le h]; exact .finish _
  · rw [deliver_cut (by omega)]; exact .raise _

/-- A bounded result ends a command. -/
theorem finishBounded_ends {i : Instr} {v : Nat} {s t : State} (h : finishBounded i v s = .next t) :
    Ends i s t := by
  rcases finishBounded_next h with ⟨_, rfl⟩ | ⟨_, rfl⟩
  · exact .raise _
  · exact .finish _

/-- A guarded command ends where its check raises, and elsewhere as its body does. -/
theorem guarded_ends {i : Instr} {check : Option Cause} {s t : State} {P : State → Prop}
    {go : Host.Outcome State Fault Refusal} (h : guarded i check s go = .next t) (hs : P s)
    (hgo : check = none → go = .next t → ∃ u, P u ∧ Ends i u t) : ∃ u, P u ∧ Ends i u t := by
  rcases guarded_next h with ⟨c, -, rfl⟩ | ⟨h1, h2⟩
  · exact ⟨s, hs, .raise c⟩
  · exact hgo h1 h2

/-- `QUAL` writes nothing before it ends. -/
theorem execQual_next {s t : State} (h : execQual s = .next t) : Ends .qual s t := by
  unfold execQual at h
  split at h
  · rcases guarded_next h with ⟨c, -, rfl⟩ | ⟨-, h2⟩
    · exact .raise c
    · exact .inr ⟨_, by simpa using h2.symm⟩
  · exact .inl ⟨_, by simpa using h.symm⟩

/-- `SELFREQ` writes the selection, or nothing. -/
theorem execSelfreq_next {s t : State} (h : execSelfreq s = .next t) :
    ∃ u, (u = s ∨ u = storeSelection (selected s) s) ∧ Ends .selfreq u t :=
  guarded_ends h (.inl rfl) fun _ h => ⟨_, .inr rfl, .inr ⟨_, by simpa using h.symm⟩⟩

/-- The blocks of the store after a command that packs: as many, and outside the slots as they were. -/
structure CoefKept (sl : Vector Slot 4) (old new : List CoefBlock) : Prop where
  length : new.length = old.length
  outside : ∀ (n : Nat) (p : Slot), p ∉ sl.toList → (new[n]?).map (·.get p) = (old[n]?).map (·.get p)
  values : ∀ (n : Nat) (p : Slot) (blk : CoefBlock), new[n]? = some blk →
    (0 ≤ blk.get p ∧ blk.get p < 4) ∨ ∃ blk', old[n]? = some blk' ∧ blk.get p = blk'.get p

/-- A store is kept by doing nothing. -/
theorem CoefKept.refl (sl : Vector Slot 4) (c : List CoefBlock) : CoefKept sl c c :=
  ⟨rfl, fun _ _ _ => rfl, fun _ _ blk h => .inr ⟨blk, h, rfl⟩⟩

/-- Packing keeps the other 60 slots of a block. -/
theorem packBlock_outside {sl : Vector Slot 4} {v : Byte} {blk : CoefBlock} {p : Slot} (hp : p ∉ sl.toList) :
    (packBlock sl v blk).get p = blk.get p := by
  have h : ∀ i : Fin 4, sl[i] ≠ p := fun i hi => hp (by rw [← hi]; simp)
  have h0 := h 0; have h1 := h 1; have h2 := h 2; have h3 := h 3
  simp only [packBlock, Vector.get_eq_getElem]
  rw [Vector.getElem_set_ne, Vector.getElem_set_ne, Vector.getElem_set_ne, Vector.getElem_set_ne] <;>
    (intro h; simp_all [Fin.ext_iff])

/-- A group is one of 0, 1, 2, 3. -/
theorem group_range (v : Byte) (i : Nat) : 0 ≤ group v i ∧ group v i < 4 := by
  have := (v.extractLsb' (2 * i) 2).isLt
  simp only [group]; omega

/-- Packing leaves each coefficient as it was, or a group. -/
theorem packBlock_values (sl : Vector Slot 4) (v : Byte) (blk : CoefBlock) (p : Slot) :
    (0 ≤ (packBlock sl v blk).get p ∧ (packBlock sl v blk).get p < 4) ∨ (packBlock sl v blk).get p = blk.get p := by
  simp only [packBlock, Vector.get_eq_getElem, Vector.getElem_set]
  split
  · exact .inl (group_range v 3)
  · split
    · exact .inl (group_range v 2)
    · split
      · exact .inl (group_range v 1)
      · split
        · exact .inl (group_range v 0)
        · exact .inr rfl

/-- Packing blocks keeps the store outside the slots. -/
theorem Packed.kept {sl : Vector Slot 4} {start : Nat} {d : List Byte} {old new : List CoefBlock}
    (h : Packed sl start d old new) : CoefKept sl old new := by
  refine ⟨h.length, fun n p hp => ?_, fun n p blk hb => ?_⟩
  · rw [h.blocks n]
    split
    · cases old[n]? with
      | none => rfl
      | some b => simp [packBlock_outside hp]
    · rfl
  · rw [h.blocks n] at hb
    split at hb
    · obtain ⟨blk', ho, rfl⟩ := Option.map_eq_some_iff.1 hb
      exact (packBlock_values sl _ blk' p).imp_right fun h => ⟨blk', ho, h⟩
    · exact .inr ⟨blk, hb, rfl⟩


/-- What the checks of `SelectFrequencies` can leave. -/
theorem ensureSelection_fst (s : State) :
    (ensureSelection s).1 = s ∨ (ensureSelection s).1 = storeSelection (selected s) s := by
  rcases ensureSelection_cases s with ⟨_, _, h⟩ | ⟨_, h⟩ | ⟨_, _, h⟩ <;> simp [h]

/-- A state without what `EMBED` may write before it ends. -/
def embedMask (s : State) : State :=
  { s with phase := .idle, blk := 0, k := 0, freqs := Vector.replicate 64 0, nfreqs := 0, coef := [], ebuf := [], elen := 0 }

/-- The fields that `EMBED` may change. -/
structure EmbedFrame (s u : State) : Prop where
  same : embedMask u = embedMask s
  coef : CoefKept (slots u) s.coef u.coef
  selection : (u.freqs = s.freqs ∧ u.nfreqs = s.nfreqs) ∨
    (u.freqs = (storeSelection (selected s) s).freqs ∧ u.nfreqs = (storeSelection (selected s) s).nfreqs)
  counters : u.k.toNat ≤ u.blk.toNat ∧ u.blk.toNat ≤ lenMax

/-- The report ends `EMBED`. -/
theorem embedResult_ends (t : Nat) (s : State) : Ends .embed s (embedResult t s) := by
  unfold embedResult
  split
  · exact .raise _
  · split
    · exact .finish _
    · split <;> exact .finish _

/-- What the checks of `SelectFrequencies` ensure where they pass. -/
theorem selectCheck_none {s : State} (h : selectCheck s = none) :
    (ensureSelection s).2 = none ∧ blockProduct s ≤ lenMax := by
  unfold selectCheck at h
  split at h
  · cases h
  · rename_i h1
    refine ⟨h1, ?_⟩
    have h2 : blockProduct (ensureSelection s).1 = blockProduct s := by
      rcases ensureSelection_fst s with h | h <;> rw [h] <;> rfl
    simp only [nblkCheck, h2] at h
    split at h
    · cases h
    · omega

/-- What `EMBED` can leave. -/
theorem execEmbed_next {s t : State} (h : execEmbed s = .next t) : ∃ u, EmbedFrame s u ∧ Ends .embed u t := by
  have hsel := ensureSelection_fst (scanStart s)
  unfold execEmbed at h
  have base : EmbedFrame s (ensureSelection (scanStart s)).1 := by
    rcases hsel with h | h <;> rw [h]
    · exact ⟨rfl, .refl .., .inl ⟨rfl, rfl⟩, by simp [lenMax]⟩
    · exact ⟨rfl, .refl .., .inr ⟨rfl, rfl⟩, by simp [lenMax]⟩
  refine guarded_ends h base fun hc h => ?_
  have hn : blockProduct (ensureSelection (scanStart s)).1 ≤ lenMax := by
    have := (selectCheck_none hc).2
    rcases hsel with h | h <;> rw [h] <;> exact this
  have hb : (ensureSelection (scanStart s)).1.blk = 0 ∧ (ensureSelection (scanStart s)).1.k = 0 := by
    rcases hsel with h | h <;> rw [h] <;> exact ⟨rfl, rfl⟩
  have hvc : (ensureSelection (scanStart s)).1.coef = s.coef := by
    rcases hsel with h | h <;> rw [h] <;> rfl
  generalize (ensureSelection (scanStart s)).1 = v at *
  have fin : ∀ (w : State) (d : List Byte), EmbedFrame s w → w.blk = 0 → w.k = 0 → blockProduct w = blockProduct v →
      w.coef = v.coef → v.coef = s.coef →
      settle (embedScan (blockProduct v) d w) = .next t → ∃ u, EmbedFrame s u ∧ Ends .embed u t := by
    intro w d fr hb hk hbp hwc hvc h
    rw [settle_next] at h
    obtain ⟨u, rfl, h1, h2⟩ := embedScan_ok h hb hk (by simp [lenMax] at hn; omega)
    refine ⟨u, ⟨?_, ?_, ?_, ?_⟩, embedResult_ends _ _⟩
    · rw [h1]; exact fr.same
    · have := h2.kept
      rw [hwc, hvc] at this
      rw [h1]; exact this
    · rw [h1]; exact fr.selection
    · rw [h1]
      have hp := prefixWritten_length w (blockProduct v) d.length
      simp [lenMax] at hn ⊢
      rw [Nat.mod_eq_of_lt (by omega), Nat.mod_eq_of_lt (by omega)]
      omega
  unfold embedRaw at h
  split at h
  · exact fin v _ base hb.1 hb.2 rfl rfl hvc h
  · have f2 : EmbedFrame s (setPhase .eccEncode v) := ⟨base.same, base.coef, base.selection, base.counters⟩
    refine guarded_ends h f2 fun _ h => ?_
    exact fin (storeEbuf (encodedPayload v.framing (setPhase .eccEncode v)) (setPhase .eccEncode v)) _
      ⟨base.same, base.coef, base.selection, base.counters⟩ hb.1 hb.2 rfl rfl hvc h

/-- A state without what `EXTRACT` may write before it ends. -/
def extractMask (s : State) : State :=
  { s with
    phase := .idle, blk := 0, k := 0, freqs := Vector.replicate 64 0, nfreqs := 0
    pbuf := [], len := 0, ebuf := [], elen := 0 }

/-- The fields that `EXTRACT` may change. -/
structure ExtractFrame (s u : State) : Prop where
  same : extractMask u = extractMask s
  selection : (u.freqs = s.freqs ∧ u.nfreqs = s.nfreqs) ∨
    (u.freqs = (storeSelection (selected s) s).freqs ∧ u.nfreqs = (storeSelection (selected s) s).nfreqs)
  counters : u.k.toNat ≤ u.blk.toNat ∧ u.blk.toNat ≤ lenMax

/-- The fields that the end of `EXTRACT` may change. -/
structure DecodeFrame (s u : State) : Prop where
  same : extractMask u = extractMask s
  freqs : u.freqs = s.freqs
  nfreqs : u.nfreqs = s.nfreqs
  blk : u.blk = s.blk
  k : u.k = s.k

/-- Nothing changed. -/
theorem DecodeFrame.refl (s : State) : DecodeFrame s s := ⟨rfl, rfl, rfl, rfl, rfl⟩

/-- The end of `EXTRACT` after its scan. -/
theorem ExtractFrame.trans {s u v : State} (h : ExtractFrame s u) (g : DecodeFrame u v) : ExtractFrame s v :=
  ⟨g.same.trans h.same, by rw [g.freqs, g.nfreqs]; exact h.selection, by rw [g.k, g.blk]; exact h.counters⟩

/-- The decode ends `EXTRACT`. -/
theorem extractDecode_ends (n2 : Nat) (s : State) :
    ∃ u, DecodeFrame s u ∧ Ends .extract u (extractDecode n2 s) := by
  simp only [extractDecode]
  split
  · split
    · exact ⟨{ s with len := 0 }, ⟨rfl, rfl, rfl, rfl, rfl⟩, .raise _⟩
    · exact ⟨storePbuf _ (setPhase .done s), ⟨rfl, rfl, rfl, rfl, rfl⟩, deliver_ends ..⟩
  · exact ⟨storePbuf _ (setPhase .done s), ⟨rfl, rfl, rfl, rfl, rfl⟩, deliver_ends ..⟩

/-- The delivery ends `EXTRACT`. -/
theorem extractEnd_ends (r : List Byte) (s : State) :
    ∃ u, DecodeFrame s u ∧ Ends .extract u (extractEnd r s) := by
  unfold extractEnd
  split
  · exact ⟨storePbuf _ (setPhase .done s), ⟨rfl, rfl, rfl, rfl, rfl⟩, deliver_ends ..⟩
  · obtain ⟨u, h1, h2⟩ := extractDecode_ends (eccBlockCeiling (blockLen s) r.length)
      (storeRaw r (setPhase .eccDecode s))
    exact ⟨u, ⟨h1.same, h1.freqs, h1.nfreqs, h1.blk, h1.k⟩, h2⟩

/-- What `EXTRACT` can leave once its target is known. -/
theorem extractScan_next {n : Nat} {s s0 t : State} (h : extractScan n s = .next t) (f : ExtractFrame s0 s)
    (hb : s.blk.toNat ≤ blockProduct s) (hk : s.k = 0) (hn : blockProduct s ≤ lenMax) :
    ∃ u, ExtractFrame s0 u ∧ Ends .extract u t := by
  unfold extractScan at h
  refine guarded_ends h f fun _ h => ?_
  rw [settle_next] at h
  split at h
  · cases h
  · rename_i r s1 hr
    have hle : s.blk.toNat + readableBytes n s ≤ lenMax := by unfold readableBytes; omega
    obtain ⟨h1, -, -⟩ := readPayload_ok hr (by simp [lenMax] at hle ⊢; omega)
    obtain ⟨u, h2, h3⟩ := extractEnd_ends r s1
    have h4 : ExtractFrame s0 s1 := by
      refine ⟨?_, ?_, ?_⟩
      · rw [h1]; exact f.same
      · rw [h1]; exact f.selection
      · rw [h1]; simp [hk, lenMax] at hle ⊢
        rw [Nat.mod_eq_of_lt (by omega), Nat.mod_eq_of_lt (by omega)]; omega
    refine ⟨u, h4.trans h2, ?_⟩
    simp only [Except.ok.injEq] at h
    exact h ▸ h3

/-- What `EXTRACT` can leave from `DetermineTargetLength` on. -/
theorem extractTarget_next {s s0 t : State} (h : extractTarget s = .next t) (f : ExtractFrame s0 s)
    (hb : s.blk = 0) (hk : s.k = 0) (hn : blockProduct s ≤ lenMax) :
    ∃ u, ExtractFrame s0 u ∧ Ends .extract u t := by
  unfold extractTarget at h
  split at h
  · refine guarded_ends h f fun hc h => ?_
    have h4 : 4 ≤ blockProduct s := by split at hc <;> simp_all
    split at h
    · cases h
    · rename_i bytes s1 hr
      obtain ⟨h1, -, -⟩ := readPrefix_ok hr (by simp [hb])
      refine extractScan_next h ⟨?_, ?_, ?_⟩ ?_ ?_ ?_ <;> rw [h1]
      · exact f.same
      · exact f.selection
      · simp [hb, hk, lenMax]
      · simp [hb]; exact h4
      · exact hk
      · exact hn
  · refine guarded_ends h f fun hc h => ?_
    exact extractScan_next h f (by simp [hb]) hk hn

/-- What `EXTRACT` can leave. -/
theorem execExtract_next {s t : State} (h : execExtract s = .next t) :
    ∃ u, ExtractFrame s u ∧ Ends .extract u t := by
  have hsel := ensureSelection_fst (scanStart s)
  unfold execExtract at h
  have base : ExtractFrame s (ensureSelection (scanStart s)).1 := by
    rcases hsel with h | h <;> rw [h]
    · exact ⟨rfl, .inl ⟨rfl, rfl⟩, by simp [lenMax]⟩
    · exact ⟨rfl, .inr ⟨rfl, rfl⟩, by simp [lenMax]⟩
  refine guarded_ends h base fun hc h => ?_
  have hn : blockProduct (ensureSelection (scanStart s)).1 ≤ lenMax := by
    have := (selectCheck_none hc).2
    rcases hsel with h | h <;> rw [h] <;> exact this
  have hb : (ensureSelection (scanStart s)).1.blk = 0 ∧ (ensureSelection (scanStart s)).1.k = 0 := by
    rcases hsel with h | h <;> rw [h] <;> exact ⟨rfl, rfl⟩
  refine guarded_ends h base fun _ h => ?_
  exact extractTarget_next h ⟨base.same, base.selection, base.counters⟩ hb.1 hb.2 hn

/-! ### The other commands -/

/-- `PACK` writes one block. -/
theorem execPack_next {s t : State} (h : execPack s = .next t) :
    ∃ u, (u = { s with coef := u.coef } ∧ CoefKept (slots s) s.coef u.coef) ∧ Ends .pack u t := by
  refine guarded_ends h ⟨rfl, .refl ..⟩ fun _ h => ?_
  split at h
  · rename_i u hu
    obtain ⟨blk, hb, rfl⟩ := packByte_ok.1 hu
    exact ⟨_, ⟨rfl, (Packed.cons hb (Packed.nil ..)).kept⟩, .inr ⟨_, by simpa using h.symm⟩⟩
  · cases h

/-- `LENWR` writes the four prefix blocks. -/
theorem execLenwr_next {s t : State} (h : execLenwr s = .next t) :
    ∃ u, (u = { s with coef := u.coef } ∧ CoefKept (slots s) s.coef u.coef) ∧ Ends .lenwr u t := by
  refine guarded_ends h ⟨rfl, .refl ..⟩ fun _ h => ?_
  split at h
  · rename_i u hu
    obtain ⟨h1, h2⟩ := packBytes_ok hu
    exact ⟨_, ⟨h1, h2.kept⟩, .inr ⟨_, by simpa using h.symm⟩⟩
  · cases h

/-- A guarded command that writes nothing ends where its check raises, and elsewhere as its body does. -/
theorem guarded_same {i : Instr} {check : Option Cause} {s t : State}
    {go : Host.Outcome State Fault Refusal} (h : guarded i check s go = .next t)
    (hgo : go = .next t → Ends i s t) : Ends i s t := by
  rcases guarded_next h with ⟨c, -, rfl⟩ | ⟨-, h2⟩
  · exact .raise c
  · exact hgo h2

/-- The commands that write nothing but the error registers and `RESULT`. -/
theorem execReadOnly_next {i : Instr} {s t : State}
    (hi : i ∈ [.qual, .unpack, .ecclen, .eccceil, .capecc, .rawcap, .cap, .lenrd]) (h : exec i s = .next t) :
    Ends i s t := by
  simp only [List.mem_cons, List.not_mem_nil, or_false] at hi
  rcases hi with rfl | rfl | rfl | rfl | rfl | rfl | rfl | rfl
  · exact execQual_next h
  · refine guarded_same h fun h => ?_
    split at h
    · exact .inr ⟨_, by simpa using h.symm⟩
    · cases h
  · exact guarded_same h finishBounded_ends
  · exact finishBounded_ends h
  · exact finishBounded_ends h
  · exact guarded_same h fun h => .inr ⟨_, by simpa using h.symm⟩
  · exact guarded_same h fun h => guarded_same h fun h => .inr ⟨_, by simpa using h.symm⟩
  · refine guarded_same h fun h => ?_
    split at h
    · exact finishBounded_ends h
    · cases h

/-- The two encoders write `EBUF` and `ELEN`. -/
theorem execEncoder_next {i : Instr} {s t : State} (hi : i = .fenc ∨ i = .fencnl) (h : exec i s = .next t) :
    ∃ u, (u = s ∨ ∃ e, u = storeEbuf e s) ∧ Ends i u t := by
  rcases hi with rfl | rfl <;>
    exact guarded_ends h (.inl rfl) fun _ h => ⟨_, .inr ⟨_, rfl⟩, .inr ⟨_, by simpa using h.symm⟩⟩

/-- A format error ends a decode. -/
theorem formatError_ends (i : Instr) (c : Cause) (s : State) : Ends i { s with len := 0 } (formatError i c s) :=
  .raise _

/-- The two decoders write `PBUF` and `LEN`. -/
theorem execDecoder_next {i : Instr} {s t : State} (hi : i = .fdec ∨ i = .fdecnl) (h : exec i s = .next t) :
    ∃ u, u = { s with pbuf := u.pbuf, len := u.len } ∧ Ends i u t := by
  rcases hi with rfl | rfl
  · refine guarded_ends h rfl fun _ h => ?_
    simp only [Host.Outcome.next.injEq] at h
    split at h
    · exact ⟨_, rfl, h ▸ formatError_ends ..⟩
    · split at h
      · exact ⟨_, rfl, h ▸ formatError_ends ..⟩
      · exact ⟨_, rfl, h ▸ deliver_ends ..⟩
  · simp only [exec, execFdecnl, frameReady, guarded_none, Host.Outcome.next.injEq] at h
    split at h
    · exact ⟨_, rfl, h ▸ formatError_ends ..⟩
    · exact ⟨_, rfl, h ▸ deliver_ends ..⟩

/-- What a command other than `INIT` may have written before it ends (30_encoding.md R103). -/
structure CommandFrame (i : Instr) (s u : State) : Prop where
  same : u = { s with
    phase := u.phase, blk := u.blk, k := u.k, nfreqs := u.nfreqs, freqs := u.freqs
    len := u.len, elen := u.elen, pbuf := u.pbuf, ebuf := u.ebuf, coef := u.coef }
  scan : i ≠ .embed → i ≠ .extract → u.phase = s.phase ∧ u.blk = s.blk ∧ u.k = s.k
  coef : i ∉ [.pack, .lenwr, .embed] → u.coef = s.coef
  pbuf : i ∉ [.fdec, .fdecnl, .extract] → u.pbuf = s.pbuf ∧ u.len = s.len
  ebuf : i ∉ [.fenc, .fencnl, .embed, .extract] → u.ebuf = s.ebuf ∧ u.elen = s.elen
  freqs : i ∉ [.selfreq, .embed, .extract] → u.freqs = s.freqs ∧ u.nfreqs = s.nfreqs
  kept : CoefKept (slots u) s.coef u.coef

/-- What every command other than `INIT` can leave. -/
theorem exec_next {i : Instr} {s t : State} (hi : i ≠ .init) (h : exec i s = .next t) :
    ∃ u, CommandFrame i s u ∧ Ends i u t := by
  have ro (hr : i ∈ [.qual, .unpack, .ecclen, .eccceil, .capecc, .rawcap, .cap, .lenrd]) :
      ∃ u, CommandFrame i s u ∧ Ends i u t :=
    ⟨s, ⟨rfl, fun _ _ => ⟨rfl, rfl, rfl⟩, fun _ => rfl, fun _ => ⟨rfl, rfl⟩, fun _ => ⟨rfl, rfl⟩,
      fun _ => ⟨rfl, rfl⟩, .refl ..⟩, execReadOnly_next hr h⟩
  cases i with
  | init => exact absurd rfl hi
  | qual | unpack | ecclen | eccceil | capecc | rawcap | cap | lenrd => exact ro (by simp)
  | selfreq =>
    obtain ⟨u, h1, h2⟩ := execSelfreq_next h
    refine ⟨u, ?_, h2⟩
    rcases h1 with rfl | rfl <;>
      exact ⟨rfl, by simp, by simp, by simp, by simp, by simp, .refl ..⟩
  | pack =>
    obtain ⟨u, ⟨h1, h3⟩, h2⟩ := execPack_next h
    have : slots u = slots s := by rw [h1]; rfl
    refine ⟨u, ⟨?_, ?_, ?_, ?_, ?_, ?_, this ▸ h3⟩, h2⟩ <;> rw [h1] <;> simp
  | lenwr =>
    obtain ⟨u, ⟨h1, h3⟩, h2⟩ := execLenwr_next h
    have : slots u = slots s := by rw [h1]; rfl
    refine ⟨u, ⟨?_, ?_, ?_, ?_, ?_, ?_, this ▸ h3⟩, h2⟩ <;> rw [h1] <;> simp
  | fenc | fencnl =>
    obtain ⟨u, h1, h2⟩ := execEncoder_next (by simp) h
    refine ⟨u, ?_, h2⟩
    rcases h1 with rfl | ⟨e, rfl⟩ <;>
      exact ⟨rfl, by simp, by simp, by simp, by simp, by simp, .refl ..⟩
  | fdec | fdecnl =>
    obtain ⟨u, h1, h2⟩ := execDecoder_next (by simp) h
    refine ⟨u, ?_, h2⟩
    rw [h1]
    exact ⟨rfl, by simp, by simp, by simp, by simp, by simp, .refl ..⟩
  | embed =>
    obtain ⟨u, h1, h2⟩ := execEmbed_next h
    have e : u = { embedMask u with
      phase := u.phase, blk := u.blk, k := u.k, nfreqs := u.nfreqs, freqs := u.freqs
      elen := u.elen, ebuf := u.ebuf, coef := u.coef } := rfl
    rw [h1.same] at e
    refine ⟨u, ⟨by rw [e]; rfl, by simp, by simp, fun _ => ?_, by simp, by simp, h1.coef⟩, h2⟩
    rw [e]; exact ⟨rfl, rfl⟩
  | extract =>
    obtain ⟨u, h1, h2⟩ := execExtract_next h
    have e : u = { extractMask u with
      phase := u.phase, blk := u.blk, k := u.k, nfreqs := u.nfreqs, freqs := u.freqs
      elen := u.elen, ebuf := u.ebuf, pbuf := u.pbuf, len := u.len } := rfl
    rw [h1.same] at e
    have hc : u.coef = s.coef := by rw [e]; rfl
    exact ⟨u, ⟨by rw [e]; rfl, by simp, fun _ => hc, by simp, by simp, by simp, hc ▸ .refl ..⟩, h2⟩

end Sys2Proof.Machine
end

