-- ==== Sys2Proof/Laws/Framing.lean ====
section
/-! SUPPORT. What the framing functions and the Reed-Solomon port can do, said once: sizes, the message regions
of the encoded blocks, and how a buffer of blocks is cut. -/

namespace Sys2Proof.Machine

/-- A concatenation of `n` blocks of `b` bytes: its length, and where block `i` stands. -/
theorem flatMap_block {b : Nat} (f : Nat → List Byte) (n : Nat) (h : ∀ i < n, (f i).length = b) :
    ((List.range n).flatMap f).length = n * b ∧
    ∀ i < n, ∀ j < b, ((List.range n).flatMap f)[i * b + j]? = (f i)[j]? := by
  induction n with
  | zero => simp
  | succ n ih =>
    obtain ⟨h1, h2⟩ := ih fun i hi => h i (by omega)
    rw [List.range_succ, List.flatMap_append]
    have hl := h n (by omega)
    refine ⟨by simp [h1, hl]; ring, fun i hi j hj => ?_⟩
    by_cases hin : i = n
    · subst hin
      rw [List.getElem?_append_right (by rw [h1]; omega), h1]
      simp
    · have : i * b + j < n * b := by
        have : (i + 1) * b ≤ n * b := Nat.mul_le_mul_right b (by omega)
        rw [Nat.add_mul] at this; omega
      rw [List.getElem?_append_left (by rw [h1]; exact this)]
      exact h2 i (by omega) j hj

/-- Block `i` of such a concatenation. -/
theorem slice_block {b : Nat} (f : Nat → List Byte) (n : Nat) (h : ∀ i < n, (f i).length = b) {i : Nat} (hi : i < n) :
    slice ((List.range n).flatMap f) (i * b) b = f i := by
  obtain ⟨h1, h2⟩ := flatMap_block f n h
  apply List.ext_getElem?
  intro j
  unfold slice
  by_cases hj : j < b
  · rw [List.getElem?_take_of_lt hj, List.getElem?_drop]
    exact h2 i hi j hj
  · rw [List.getElem?_take_eq_none (by omega), List.getElem?_eq_none (by rw [h i hi]; omega)]

/-- Cutting such a concatenation gives its blocks back. -/
theorem eccBlocks_flatMap {b : Nat} (hb : 0 < b) (f : Nat → List Byte) (n : Nat) (h : ∀ i < n, (f i).length = b) :
    eccBlocks b ((List.range n).flatMap f) = (List.range n).map f := by
  unfold eccBlocks
  rw [(flatMap_block f n h).1, Nat.mul_div_cancel _ hb]
  exact List.map_congr_left fun i hi => slice_block f n h (List.mem_range.1 hi)

/-- The size of an encoded block (P1 of 42_ecc_framer.md R163). -/
theorem rsEnc_length (b npar : Nat) (m : List Byte) : (rsEnc b npar m).length = b := by simp [rsEnc]
/-- The size of a decoded region (P1 of 42_ecc_framer.md R163). -/
theorem rsDec_length (b npar : Nat) (m : List Byte) : (rsDec b npar m).length = b - npar := by simp [rsDec]

/-- How many of the first `b` bytes of two sequences differ, counted over the bytes in order. -/
theorem changedBytes_eq (b : Nat) (f g : Nat → Byte) :
    changedBytes (b := b) (fun i => f i) (fun i => g i) = ((List.range b).filter fun j => f j ≠ g j).length := by
  have h := List.toFinset_card_of_nodup ((List.nodup_range (n := b)).filter fun j => decide (f j ≠ g j))
  rw [← h, changedBytes, ← Finset.card_map Fin.valEmbedding]
  congr 1
  ext j
  simp only [Finset.mem_map, Finset.mem_filter, Finset.mem_univ, true_and, Fin.valEmbedding_apply, List.mem_toFinset,
    List.mem_filter, List.mem_range, decide_eq_true_eq]
  exact ⟨fun ⟨i, h, e⟩ => e ▸ ⟨i.isLt, h⟩, fun ⟨h1, h2⟩ => ⟨⟨j, h1⟩, h2, rfl⟩⟩

/-- P3 of the port (42_ecc_framer.md R163). -/
theorem rsDec_corrects {b npar : Nat} (hb : b ≤ 255) {m : List Byte} (hm : m.length = b - npar) {c : List Byte}
    (h : ((List.range b).filter fun j => c.getD j 0 ≠ (rsEnc b npar m).getD j 0).length ≤ npar / 2) :
    rsDec b npar c = m := by
  have hc : changedBytes (fun i : Fin b => c.getD i 0) ((Config.rsPort b npar).encode fun i => m.getD i 0) ≤ npar / 2 := by
    have he : (fun i : Fin b => (rsEnc b npar m).getD i 0) = (Config.rsPort b npar).encode fun i => m.getD i 0 := by
      funext i; simp [rsEnc]
    rw [← he]
    exact (changedBytes_eq b (fun j => c.getD j 0) fun j => (rsEnc b npar m).getD j 0).trans_le h
  rw [rsDec, (Config.rsPort b npar).corrects hb _ _ hc]
  exact List.ext_getElem (by simp [hm]) fun i h1 h2 => by simp [List.getElem?_eq_getElem h2]

/-- P2 of the port (42_ecc_framer.md R163). -/
theorem rsDec_rsEnc {b npar : Nat} (hb : b ≤ 255) {m : List Byte} (hm : m.length = b - npar) :
    rsDec b npar (rsEnc b npar m) = m := rsDec_corrects hb hm (by simp)

/-- The message region of block `i` of the length-carrying encoding (30_encoding.md R107). -/
def lcRegion (m : Nat) (p : List Byte) (i : Nat) : List Byte :=
  let c := m - 1
  let nb := p.length / c + 1
  let n := if i < nb - 1 then c else p.length - (nb - 1) * c
  BitVec.ofNat 8 n :: (slice p (i * c) n ++ zeros (c - n))

/-- The length-carrying encoding is the encoding of its regions. -/
theorem lcEncode_eq (enc : List Byte → List Byte) (m : Nat) (p : List Byte) :
    lcEncode enc m p = (List.range (p.length / (m - 1) + 1)).flatMap fun i => enc (lcRegion m p i) := rfl

/-- A length-carrying region: its size, its length byte, its data and its zeros. -/
theorem lcRegion_facts {m : Nat} (hm : 2 ≤ m) (p : List Byte) {i : Nat}
    (hi : i < p.length / (m - 1) + 1) :
    (lcRegion m p i).length = m ∧
    lcRegion m p i = BitVec.ofNat 8 (min (m - 1) (p.length - i * (m - 1))) :: (slice p (i * (m - 1)) (m - 1) ++ zeros (m - 1 - (p.length - i * (m - 1)))) := by
  have hc : 0 < m - 1 := by omega
  have hmod := Nat.div_add_mod p.length (m - 1)
  have hlt := Nat.mod_lt p.length hc
  have key : (if i < p.length / (m - 1) + 1 - 1 then m - 1 else p.length - (p.length / (m - 1) + 1 - 1) * (m - 1)) = min (m - 1) (p.length - i * (m - 1)) := by
    simp only [Nat.add_sub_cancel]
    split
    · have : (i + 1) * (m - 1) ≤ p.length / (m - 1) * (m - 1) := Nat.mul_le_mul_right _ (by omega)
      rw [Nat.add_mul] at this
      rw [Nat.mul_comm] at hmod
      omega
    · have : i = p.length / (m - 1) := by omega
      subst this
      rw [Nat.mul_comm] at hmod
      omega
  have e : lcRegion m p i = BitVec.ofNat 8 (min (m - 1) (p.length - i * (m - 1))) :: (slice p (i * (m - 1)) (m - 1) ++ zeros (m - 1 - (p.length - i * (m - 1)))) := by
    simp only [lcRegion, key]
    congr 1
    congr 1
    · unfold slice
      apply List.ext_getElem?
      intro j
      by_cases h1 : j < min (m - 1) (p.length - i * (m - 1))
      · rw [List.getElem?_take_of_lt h1, List.getElem?_take_of_lt (by omega)]
      · rw [List.getElem?_take_eq_none (by omega)]
        by_cases h2 : j < m - 1
        · rw [List.getElem?_take_of_lt h2, List.getElem?_drop, List.getElem?_eq_none (by omega)]
        · rw [List.getElem?_take_eq_none (by omega)]
    · congr 1; omega
  refine ⟨?_, e⟩
  rw [e]
  simp [slice, zeros]; omega

/-- The message region of block `i` of the length-omitting encoding (30_encoding.md R108). -/
def nlRegion (m : Nat) (p : List Byte) (i : Nat) : List Byte :=
  slice p (i * m) m ++ zeros (m - (slice p (i * m) m).length)

/-- A length-omitting region has `M` bytes. -/
theorem nlRegion_length (m : Nat) (p : List Byte) (i : Nat) : (nlRegion m p i).length = m := by
  simp [nlRegion, slice, zeros]

/-- The length-omitting encoding is the encoding of its regions. -/
theorem nlEncode_eq (enc : List Byte → List Byte) (m : Nat) (p : List Byte) :
    nlEncode enc m p = (List.range (ceilDiv p.length m)).flatMap fun i => enc (nlRegion m p i) := rfl

/-- A length-omitting decode that needs every block gives the bytes of every block. -/
theorem nlDecode_all {dec : List Byte → List Byte} {m t : Nat} (l : List (List Byte)) (out : List Byte)
    (hd : ∀ b ∈ l, (dec b).length = m) (ht : l = [] ∨ out.length + (l.length - 1) * m < t) :
    nlDecode dec t l out = out ++ l.flatMap dec := by
  induction l generalizing out with
  | nil => simp [nlDecode]
  | cons b l ih =>
    simp only [reduceCtorEq, false_or, List.length_cons, Nat.add_sub_cancel] at ht
    simp only [nlDecode]
    rw [if_pos (by omega), ih _ (fun b hb => hd b (by simp [hb]))]
    · simp
    · cases l with
      | nil => exact .inl rfl
      | cons c l =>
        right
        simp [hd b (by simp)] at ht ⊢
        rw [Nat.add_mul] at ht; omega

end Sys2Proof.Machine
end

