-- ==== Sys2Proof/Laws/Units.lean ====
section
/-! SUPPORT. What the selector and the packer compute, said once, and the ends of a command in the terms of
`Safety`. -/

namespace Sys2Proof.Machine

/-- An error of a command that is no scan. -/
theorem failed_eq (i : Instr) (hi : isScan (some i) = false) (c : Cause) (s : State) :
    raise (some i) c s = failed c.errClass.code c.detail s := by
  simp only [raise, hi, failed]
  cases c <;> rfl

/-- An error of a scan. -/
theorem scanFailed_eq (i : Instr) (hi : isScan (some i) = true) (c : Cause) (s : State) :
    raise (some i) c s = scanFailed c.errClass.code c.detail s := by
  simp only [raise, hi, failed, scanFailed]
  cases c <;> rfl

/-- The end of a command with a value. -/
theorem finish_eq (v : Nat) (s : State) : finish v s = succeeded v s := rfl

/-! ### The selector -/

/-- The table is loaded where every entry has been written. -/
theorem qtLoaded_iff (s : State) : qtLoaded s = true ↔ s.tableLoaded := by
  simp only [qtLoaded, State.tableLoaded, List.all_eq_true, Vector.get_eq_getElem]
  constructor
  · intro h p
    exact h _ (by simp)
  · intro h x hx
    obtain ⟨n, hn, rfl⟩ := List.getElem_of_mem hx
    simp at hn
    simpa using h ⟨n, hn⟩

/-- The selector's loop keeps the first admissible positions of those still to scan. -/
theorem selectLoop_eq (qt : Slot → Nat) (n m : Nat) (l out : List Slot) (h : out.length ≤ n) :
    selectLoop qt n m l out = out ++ (l.filter (fun p => admissible (qt p) m)).take (n - out.length) := by
  induction l generalizing out with
  | nil => simp [selectLoop]
  | cons p l ih =>
    simp only [selectLoop]
    split
    · rename_i h; simp [h]
    · split
      · rename_i h1 h2
        rw [ih _ (by simp; omega)]
        have : n - out.length = (n - (out.length + 1)) + 1 := by omega
        simp [h2, this]
      · rename_i h1 h2
        rw [ih _ h]; simp [h2]

/-- The selector keeps the highest admissible positions. -/
theorem select_eq (qt : Slot → Nat) (n m : Nat) :
    select qt n m = (positionsDown.filter (fun p => admissible (qt p) m)).take n := by
  simp [select, selectLoop_eq]

/-! ### The packer -/

/-- The check of the four commands that pack or unpack passes. -/
theorem packReady_none {n : Nat} {s : State} (h : s.slotsReady) (hn : n < blockProduct s) : packReady n s = none := by
  obtain ⟨h1, h2⟩ := h
  rw [packReady, if_neg (by omega), if_neg (by omega), if_neg (by omega)]

/-- A group as a number. -/
theorem group_val (v : Byte) (i : Nat) : group v i = ((v.toNat / 2 ^ (2 * i) % 4 : Nat) : Int) := by
  simp [group, BitVec.extractLsb'_toNat, Nat.shiftRight_eq_div_pow]

/-- What packing leaves in each slot: the last write to it wins. -/
theorem packBlock_get (sl : Vector Slot 4) (v : Byte) (blk : CoefBlock) (p : Slot) :
    (packBlock sl v blk).get p =
      if p = sl[3] then group v 3 else if p = sl[2] then group v 2 else if p = sl[1] then group v 1
      else if p = sl[0] then group v 0 else blk.get p := by
  simp only [packBlock, Vector.get_eq_getElem, Vector.getElem_set, Fin.val_inj, eq_comm (b := p)]

/-- Four groups put together. -/
theorem lo_or (a b c d : Nat) (ha : a < 4) (hb : b < 4) (hc : c < 4) (hd : d < 4) :
    (a ||| b <<< 2 ||| c <<< 4 ||| d <<< 6) = a + 4 * b + 16 * c + 64 * d := by
  interval_cases a <;> interval_cases b <;> interval_cases c <;> interval_cases d <;> rfl

/-- A group is below 4. -/
theorem lo2_lt (c : Int) : lo2 c < 4 := by unfold lo2; omega

/-- The byte a block carries, as a number. -/
theorem unpackBlock_toNat (sl : Vector Slot 4) (blk : CoefBlock) :
    (unpackBlock sl blk).toNat =
      lo2 (blk.get sl[0]) + 4 * lo2 (blk.get sl[1]) + 16 * lo2 (blk.get sl[2]) +
        64 * lo2 (blk.get sl[3]) := by
  have h0 := lo2_lt (blk.get sl[0])
  have h1 := lo2_lt (blk.get sl[1])
  have h2 := lo2_lt (blk.get sl[2])
  have h3 := lo2_lt (blk.get sl[3])
  rw [unpackBlock, lo_or _ _ _ _ h0 h1 h2 h3, BitVec.toNat_ofNat]; omega

/-- When a coefficient is read. -/
theorem coefRead_ok {n : Nat} {p : Slot} {s : State} {c : Int} : coefRead n p s = .ok c ↔ ∃ blk, s.coef[n]? = some blk ∧ blk.get p = c := by
  simp only [coefRead, coefBlock]
  cases s.coef[n]? <;> simp

/-- With four different slots, a packed block carries the byte. -/
theorem unpackBlock_packBlock {sl : Vector Slot 4} (h : sl.toList.Nodup) (v : Byte) (blk : CoefBlock) :
    unpackBlock sl (packBlock sl v blk) = v := by
  have hne : ∀ i j : Fin 4, i ≠ j → sl[i] ≠ sl[j] := by
    intro i j hij
    have := List.pairwise_iff_getElem.1 h
    rcases lt_or_gt_of_ne hij with hl | hl
    · have := this i j (by simp) (by simp) hl; simpa using this
    · have := this j i (by simp) (by simp) hl; simpa [eq_comm] using this
  have a := hne 0 1 (by decide); have b := hne 0 2 (by decide); have c := hne 0 3 (by decide)
  have d := hne 1 2 (by decide); have e := hne 1 3 (by decide); have f := hne 2 3 (by decide)
  simp at a b c d e f
  apply BitVec.eq_of_toNat_eq
  rw [unpackBlock_toNat]
  simp only [packBlock_get, a, b, c, d, e, f, if_true, if_false, group_val, lo2]
  have := v.isLt
  simp; omega

/-- Packing keeps every coefficient a `CW`-bit number (10_state.md R53). -/
theorem CoefKept.inRange {sl : Vector Slot 4} {old new : List CoefBlock} {cw : Nat} (h : CoefKept sl old new)
    (hcw : 3 ≤ cw) (ho : ∀ blk ∈ old, coefInRange cw blk) : ∀ blk ∈ new, coefInRange cw blk := by
  intro blk hb p
  obtain ⟨n, hn⟩ := List.getElem?_of_mem hb
  rcases h.values n p blk hn with ⟨h1, h2⟩ | ⟨blk', h1, h2⟩
  · have : (2 : Int) ^ 2 ≤ 2 ^ (cw - 1) := pow_le_pow_right₀ (by norm_num) (by omega)
    omega
  · rw [h2]; exact ho blk' (List.mem_of_getElem? h1) p

/-! ### The scans and the framer -/

/-- A resolved selection of four slots passes. -/
theorem ensure_resolved {s : State} (h : 4 ≤ s.nfreqs.toNat) : ensureSelection s = (s, none) := by
  have h0 : s.nfreqs ≠ 0 := by intro h'; rw [h'] at h; simp at h
  rcases ensureSelection_cases s with ⟨h1, _⟩ | ⟨_, h2⟩ | ⟨h1, _⟩
  · exact absurd h1 h0
  · rw [h2, if_neg (by omega)]
  · exact absurd h1 h0

/-- `SelectFrequencies` passes where four slots are selected. -/
theorem selectCheck_ready {s : State} (h : s.slotsReady) :
    selectCheck (scanStart s) = none ∧ ensureSelection (scanStart s) = (scanStart s, none) := by
  have := ensure_resolved (s := scanStart s) h.1
  refine ⟨?_, this⟩
  have h2 := h.2
  unfold selectCheck
  rw [this]
  simp [nblkCheck, h2]

/-- The bytes of a length, least significant first (20_memory.md R80). -/
theorem lengthBytes_get (t n : Nat) (h : n < 4) : (lengthBytes t)[n]? = some (BitVec.ofNat 8 (t / 256 ^ n)) := by
  interval_cases n <;> simp [lengthBytes, lengthByte, Nat.shiftRight_eq_div_pow]

/-- The length of a length-carrying encoding (42_ecc_framer.md R171). -/
theorem lcEncode_length {enc : List Byte → List Byte} {b m : Nat} (h : ∀ r, (enc r).length = b) (p : List Byte) :
    (lcEncode enc m p).length = (p.length / (m - 1) + 1) * b := by
  rw [lcEncode_eq]; exact (flatMap_block _ _ fun i _ => h _).1
/-- The length of a length-omitting encoding (42_ecc_framer.md R178). -/
theorem nlEncode_length {enc : List Byte → List Byte} {b m : Nat} (h : ∀ r, (enc r).length = b) (p : List Byte) :
    (nlEncode enc m p).length = ceilDiv p.length m * b := by
  rw [nlEncode_eq]; exact (flatMap_block _ _ fun i _ => h _).1

/-- So many bytes of `PBUF`. -/
theorem pbufBytes_length (s : State) (n : Nat) : (pbufBytes s n).length = n := by simp [pbufBytes]

/-- The check of an encode computes the length of its result. -/
theorem encodedPayload_length (v : Framing) (s : State) : (encodedPayload v s).length = encodedLength v s := by
  cases v
  · simp only [encodedPayload, encodedLength, eccLengthForMessage]
    rw [lcEncode_length (b := blockLen s) (fun r => by simp [encoder, rsEnc_length]), pbufBytes_length]
  · simp only [encodedPayload, encodedLength, nlEncodedLength]
    rw [nlEncode_length (b := blockLen s) (fun r => by simp [encoder, rsEnc_length]), pbufBytes_length]

/-- What the checks of an encode ensure where they pass. -/
theorem encodeCheck_none {v : Framing} {s : State} (h : encodeCheck v s = none) :
    encodedLength v s ≤ lenMax ∧ encodedLength v s ≤ s.params.ebufSize.val := by
  unfold encodeCheck at h
  split at h
  · cases h
  · unfold fitsEbuf at h
    split at h
    · cases h
    · split at h
      · cases h
      · omega


end Sys2Proof.Machine
end

