-- ==== Sys2Proof/Laws/Engines.lean ====
section
/-! SUPPORT. What `EMBED` and `EXTRACT` leave when they complete: the blocks written, the bytes read, and the
delivery. -/

namespace Sys2Proof.Machine

/-! ### EMBED -/

/-- The scan of `EMBED` completes where the store has the blocks. -/
theorem embed_run {v : State} {d : List Byte} {n : Nat} (hb : v.blk = 0) (hk : v.k = 0) (hn : n < 2 ^ 32)
    (hc : n ≤ v.coef.length) :
    ∃ u, settle (embedScan n d v) = .next (embedResult d.length u) ∧
     u = { v with
        phase := .done, coef := u.coef
        blk := BitVec.ofNat 32 ((prefixWritten v n d.length).length +
          min d.length (n - (prefixWritten v n d.length).length))
        k := BitVec.ofNat 32 (min d.length (n - (prefixWritten v n d.length).length)) } ∧
      Packed (slots v) 0 (prefixWritten v n d.length ++ d.take (n - (prefixWritten v n d.length).length)) v.coef u.coef := by
  cases h : embedScan n d v with
  | error f =>
    have := (embedScan_error hb hn).1 h
    omega
  | ok t =>
    obtain ⟨u, rfl, h1, h2⟩ := embedScan_ok h hb hk hn
    exact ⟨u, rfl, h1, h2⟩

/-- Block by block: the prefix bytes, then the raw bytes, then the blocks as they were. -/
theorem packed_blocks {v : State} {n : Nat} {d : List Byte} {old new : List CoefBlock} (sl)
    (h : Packed sl 0 (prefixWritten v n d.length ++ d.take (n - (prefixWritten v n d.length).length)) old new) (k : Nat) :
    let pre := min (prefixBlocks v) n
    let cnt := min d.length (n - pre)
    new[k]? =
        if k < pre then (old[k]?).map (packBlock sl (BitVec.ofNat 8 (d.length / 256 ^ k)))
        else if k < pre + cnt then (old[k]?).map (packBlock sl (d.getD (k - pre) 0))
        else old[k]? := by
  intro pre cnt
  have hp : (prefixWritten v n d.length).length = pre := prefixWritten_length ..
  rw [h.blocks k]
  simp only [List.length_append, hp, List.length_take, Nat.zero_le, true_and, Nat.zero_add, Nat.sub_zero]
  by_cases h1 : k < pre
  · rw [if_pos (by omega), if_pos h1]
    have he : v.embedLength = true := by
      by_contra hne; simp [pre, prefixBlocks, hne] at h1
    have h4 : k < 4 := by simp [pre, prefixBlocks, he] at h1; omega
    congr 2
    rw [List.getD_eq_getElem?_getD, List.getElem?_append_left (by omega)]
    simp only [prefixWritten, he, if_true]
    rw [List.getElem?_take_of_lt (by simp [pre] at h1; omega), lengthBytes_get _ _ h4]; rfl
  · rw [if_neg h1]
    by_cases h2 : k < pre + cnt
    · rw [if_pos (by omega), if_pos h2]
      congr 2
      rw [List.getD_eq_getElem?_getD, List.getElem?_append_right (by omega), hp, List.getElem?_take_of_lt (by omega), List.getD_eq_getElem?_getD]
    · rw [if_neg (by omega), if_neg h2]

/-! ### EXTRACT -/

/-- The bytes that a scan reads are those the blocks carry. -/
theorem unpack_bytes {s : State} {b count : Nat} {bytes : List Byte} (hl : bytes.length = count)
   (h : ∀ j < count, ∃ blk, s.coef[b + j]? = some blk ∧ bytes[j]? = some (unpackBlock (slots s) blk)) :
   bytes = (List.range count).map fun j => carried s (b + j) := by
  apply List.ext_getElem?
  intro j
  by_cases hj : j < count
  · obtain ⟨blk, h1, h2⟩ := h j hj
    simp [h2, carried, h1, hj]
  · rw [List.getElem?_eq_none (by omega), List.getElem?_eq_none (by simp; omega)]

/-- `read_prefix` where the store has four blocks. -/
theorem readPrefix_run {s : State} (hb : s.blk = 0) (h4 : 4 ≤ s.coef.length) :
    readPrefix 4 s = .ok ([carried s 0, carried s 1, carried s 2, carried s 3], { s with blk := 4 }) := by
  obtain ⟨⟨bytes, t⟩, h⟩ := readPrefix_complete 4 s (by simp [hb]; exact h4) (by simp [hb])
  obtain ⟨h1, h2, h3⟩ := readPrefix_ok h (by simp [hb])
  rw [h]
  have := unpack_bytes h2 h3
  simp [hb] at this h1
  rw [this, h1]
  simp [List.range_succ]

/-- `read_payload` where the store has the blocks. -/
theorem readPayload_run {s : State} {n : Nat} (hk : s.k = 0) (h4 : s.blk.toNat + n ≤ s.coef.length)
    (h32 : s.blk.toNat + n < 2 ^ 32) :
    readPayload n s = .ok ((List.range n).map fun j => carried s (s.blk.toNat + j),
      { s with blk := BitVec.ofNat 32 (s.blk.toNat + n), k := BitVec.ofNat 32 n }) := by
  obtain ⟨⟨bytes, t⟩, h⟩ := readPayload_complete n s h4 h32
  obtain ⟨h1, h2, h3⟩ := readPayload_ok h h32
  rw [h]
  have := unpack_bytes h2 h3
  rw [this, h1, hk]
  simp

/-- `EXTRACT` from a known target to its end. -/
theorem extractScan_run {v : State} {p t : Nat} (hp : v.blk = BitVec.ofNat 32 p) (hk : v.k = 0)
    (hpn : p ≤ blockProduct v) (hn : blockProduct v ≤ lenMax) (hc : blockProduct v ≤ v.coef.length)
    (hf : extractFitCheck t v = none) :
    let n := min t (blockProduct v - p)
    extractScan t v = .next (extractEnd ((List.range n).map fun j => carried v (p + j))
      { v with phase := .scanReadPayload, blk := BitVec.ofNat 32 (p + n), k := BitVec.ofNat 32 n }) := by
  intro n
  have hpt : v.blk.toNat = p := by rw [hp]; simp [lenMax] at hn ⊢; omega
  have hr : readableBytes t v = n := by simp [readableBytes, hpt, n]
  have hle : p + n ≤ blockProduct v := by omega
  unfold extractScan
  rw [hf, guarded_none, hr, readPayload_run (by simp [hk]) (by simp [hpt]; omega) (by simp [hpt, lenMax] at hn ⊢; omega)]
  simp only [settle, setPhase_blk, hpt]
  rfl

/-- `EXTRACT` with four slots reaches `DetermineTargetLength`. -/
theorem extract_target {s : State} (hr : s.slotsReady) (hfr : extractFrameCheck (scanStart s) = none) :
    execExtract s = extractTarget (setPhase .determineTargetLength (scanStart s)) := by
  obtain ⟨c1, c2⟩ := selectCheck_ready hr
  simp only [execExtract, c1, guarded_none, c2, hfr]

/-- The raw target of `EXTRACT`. -/
def extractGoal (s : State) : Nat :=
  if s.embedLength then min (carriedLength s) s.maxlen.toNat else callerTarget s

/-- The raw bytes that `EXTRACT` reads. -/
def extractCount (s : State) : Nat := min (extractGoal s) (blockProduct s - prefixBlocks s)

/-- The state of `EXTRACT` after its scan. -/
def extractAfter (s : State) : State :=
  { s with
    phase := .scanReadPayload
    blk := BitVec.ofNat 32 (prefixBlocks s + extractCount s)
    k := BitVec.ofNat 32 (extractCount s) }

/-- The raw bytes read. -/
def extractRaw (s : State) : List Byte := (List.range (extractCount s)).map fun j => carried s (prefixBlocks s + j)

/-- `EXTRACT` with four slots whose checks pass and whose blocks the store has. -/
theorem extract_run {s : State} (hr : s.slotsReady) (hg : s.geometryFits) (hp : prefixBlocks s ≤ blockProduct s)
    (hfr : extractFrameCheck (scanStart s) = none)
    (hct : s.embedLength = false → callerTargetCheck s = none)
    (hfit : s.eccMethod = .reedSolomon → fitsEbuf (eccBlockCeiling (blockLen s) (extractCount s)) s = none) :
    execExtract s = .next (extractEnd (extractRaw s) (extractAfter s)) := by
  rw [extract_target hr hfr]
  have hN := hr.2
  have fit : ∀ v : State, v.eccMethod = s.eccMethod → v.params = s.params →
      v.eccBlockLength = s.eccBlockLength → readableBytes (extractGoal s) v = extractCount s →
      extractFitCheck (extractGoal s) v = none := by
    intro v h1 h2 h3 h4
    unfold extractFitCheck
    rw [h1]
    cases hm : s.eccMethod with
    | none => rfl
    | reedSolomon =>
      have := hfit hm
      simp only [fitsEbuf, blockLen, h2, h3, h4] at this ⊢
      exact this
  by_cases hel : s.embedLength = true
  · have hp4 : prefixBlocks s = 4 := by simp [prefixBlocks, hel]
    unfold extractTarget
    rw [if_pos (show (setPhase .determineTargetLength (scanStart s)).embedLength = true from hel)]
    have hlen : 4 ≤ s.coef.length := by unfold State.geometryFits at hg; omega
    rw [if_neg (by simp; omega), guarded_none, readPrefix_run (s := setPhase .determineTargetLength (scanStart s)) rfl hlen]
    have ht : extractGoal s = min (carriedLength s) s.maxlen.toNat := by
        simp [extractGoal, hel]
    have key := extractScan_run (v := { setPhase .determineTargetLength (scanStart s) with blk := 4 }) (p := 4)
      (t := extractGoal s) rfl rfl (by rw [← hp4]; exact hp) hN hg
      (fit _ rfl rfl rfl (by simp [readableBytes, extractCount, hp4]; rfl))
    simp only
    refine Eq.trans (congrArg (fun x => extractScan x _) ht.symm) (key.trans ?_)
    simp only [extractRaw, extractAfter, extractCount, hp4]; rfl
  · have hp4 : prefixBlocks s = 0 := by simp [prefixBlocks, hel]
    have hel' : s.embedLength = false := by simpa using hel
    unfold extractTarget
    rw [if_neg (show ¬ (setPhase .determineTargetLength (scanStart s)).embedLength = true from hel)]
    have hcc : callerTargetCheck (setPhase .determineTargetLength (scanStart s)) = none := hct hel'
    rw [hcc, guarded_none]
    have ht : extractGoal s = callerTarget s := by simp [extractGoal, hel]
    have key := extractScan_run (v := setPhase .determineTargetLength (scanStart s)) (p := 0)
      (t := extractGoal s) rfl rfl (Nat.zero_le _) hN hg
      (fit _ rfl rfl rfl (by simp [readableBytes, extractCount, hp4]))
    refine Eq.trans (congrArg (fun x => extractScan x _) ht.symm) (key.trans ?_)
    simp only [extractRaw, extractAfter, extractCount, hp4, Nat.zero_add, Nat.sub_zero]; rfl

/-- What `deliver` leaves in `PBUF`. -/
theorem deliver_pbuf (i : Instr) (d : List Byte) (w : State) (a : Nat) :
    pbufByte (deliver i d w) a = pbufByte (storePbuf (d.take w.maxlen.toNat) w) a := by
  by_cases h : d.length ≤ w.maxlen.toNat
  · rw [deliver_fits h, List.take_of_length_le h]; rfl
  · rw [deliver_cut (by omega)]; rfl

/-- Rounding up to whole blocks. -/
theorem ceil_ge (b n : Nat) (hb : 1 ≤ b) : n ≤ eccBlockCeiling b n := by
  unfold eccBlockCeiling ceilDiv
  have := Nat.div_add_mod' (n + b - 1) b
  have := Nat.mod_lt (n + b - 1) (show 0 < b by omega)
  omega

/-- Rounding whole blocks up changes nothing. -/
theorem ceil_mul (b k : Nat) (hb : 1 ≤ b) : eccBlockCeiling b (k * b) = k * b := by
  unfold eccBlockCeiling ceilDiv
  congr 1
  rw [show k * b + b - 1 = b - 1 + k * b by omega, Nat.add_mul_div_right _ _ (by omega), Nat.div_eq_of_lt (by omega)]; simp

/-! ### Decoding what was encoded -/

/-- Blocks that decode to the regions of an encoding decode to its message. -/
theorem lcDecode_regions {dec : List Byte → List Byte} {m : Nat} (hm : 2 ≤ m) (hm' : m ≤ 255) (p : List Byte)
    (k : Nat) (l : List (List Byte)) (hl : l.length = p.length / (m - 1) + 1 - k) (hk : k ≤ p.length / (m - 1))
    (h : ∀ j (hj : j < l.length), dec l[j] = lcRegion m p (k + j)) :
    lcDecode dec m l = some (p.drop (k * (m - 1))) := by
  induction l generalizing k with
  | nil => simp at hl; omega
  | cons b l ih =>
    have h0 := h 0 (by simp)
    simp at h0
    have hc : 0 < m - 1 := by omega
    have hmod := Nat.div_add_mod p.length (m - 1)
    have hlt := Nat.mod_lt p.length hc
    rw [Nat.mul_comm] at hmod
    have f := (lcRegion_facts hm p (i := k) (by omega)).2
    simp only [lcDecode, h0, f, List.headD_cons]
    have hmin : (BitVec.ofNat 8 (min (m - 1) (p.length - k * (m - 1)))).toNat = min (m - 1) (p.length - k * (m - 1)) := by
      simp; omega
    rw [hmin, if_neg (by omega)]
    have hdata : slice (BitVec.ofNat 8 (min (m - 1) (p.length - k * (m - 1))) ::
        (slice p (k * (m - 1)) (m - 1) ++ zeros (m - 1 - (p.length - k * (m - 1))))) 1
        (min (m - 1) (p.length - k * (m - 1))) = slice p (k * (m - 1)) (m - 1) := by
      have : (slice p (k * (m - 1)) (m - 1)).length = min (m - 1) (p.length - k * (m - 1)) := by simp [slice]
      generalize slice p (k * (m - 1)) (m - 1) = x at this ⊢
      simp [slice, ← this]
    rw [hdata]
    by_cases hlast : k = p.length / (m - 1)
    · subst hlast
      rw [if_pos (by omega)]
      congr 1
      unfold slice
      exact List.take_of_length_le (by simp; omega)
    · have : (k + 1) * (m - 1) ≤ p.length / (m - 1) * (m - 1) := Nat.mul_le_mul_right _ (by omega)
      rw [Nat.add_mul] at this
      rw [if_neg (by omega), ih (k + 1) (by simp at hl; omega) (by omega) fun j hj => by
        have := h (j + 1) (by simpa using hj)
        simp at this; rw [this]; congr 1; omega]
      simp only [Option.map_some, Option.some.injEq]
      unfold slice
      rw [Nat.add_mul, ← List.drop_drop]
      simp

/-- Byte `j` of block `i` of a length-carrying encoding by the port. -/
theorem lcEncode_getD {b npar m : Nat} (p : List Byte) {i j : Nat} (hi : i < p.length / (m - 1) + 1) (hj : j < b) :
    (lcEncode (rsEnc b npar) m p).getD (i * b + j) 0 = (rsEnc b npar (lcRegion m p i)).getD j 0 := by
  rw [lcEncode_eq, List.getD_eq_getElem?_getD, List.getD_eq_getElem?_getD,
    (flatMap_block (b := b) _ _ fun _ _ => rsEnc_length ..).2 i hi j hj]

/-- A buffer that differs from the length-carrying encoding of `p` by no more bytes in each block than the port
corrects decodes to `p`. -/
theorem lcDecode_received {b npar m : Nat} (hb : b ≤ 255) (hm : m = b - npar) (h2 : 2 ≤ m) (p received : List Byte)
    (hl : received.length = (p.length / (m - 1) + 1) * b)
    (h : ∀ i < p.length / (m - 1) + 1,
      ((List.range b).filter fun j => received.getD (i * b + j) 0 ≠
        (lcEncode (rsEnc b npar) m p).getD (i * b + j) 0).length ≤ npar / 2) :
    lcDecode (rsDec b npar) m (eccBlocks b received) = some p := by
  have hk : received.length / b = p.length / (m - 1) + 1 := by rw [hl]; exact Nat.mul_div_cancel _ (by omega)
  have hblocks : (eccBlocks b received).length = p.length / (m - 1) + 1 := by simp [eccBlocks, hk]
  rw [lcDecode_regions h2 (by omega) p 0 _ (by rw [hblocks]; omega) (Nat.zero_le _) fun i hi => ?_]
  · simp
  · rw [hblocks] at hi
    have hs : (eccBlocks b received)[i]'(by omega) = slice received (i * b) b := by simp [eccBlocks]
    rw [hs, Nat.zero_add]
    refine rsDec_corrects hb (by rw [(lcRegion_facts h2 p hi).1, hm]) ?_
    refine le_trans (le_of_eq ?_) (h i hi)
    congr 1
    refine List.filter_congr fun j hj => ?_
    have hj := List.mem_range.1 hj
    rw [lcEncode_getD p hi hj, slice, List.getD_eq_getElem?_getD, List.getElem?_take_of_lt hj, List.getElem?_drop,
      ← List.getD_eq_getElem?_getD]

end Sys2Proof.Machine
end

