-- ==== Sys2Proof/Laws/PerInstr.lean ====
section
/-! SUPPORT. Laws of the commands as syntax, one lemma per command. -/

namespace Sys2Proof.Laws

/-- A command is one byte, selected by the whole byte: its unit in the high nibble is one of seven, and the
byte alone decodes to it (30_encoding.md R100, R102). -/
def OneByte.Statement (i : Instr) : Prop :=
  (encode i).length = 1 ∧ decodeByte (opcode i) = some i ∧ (opcode i).toNat / 16 ≤ 6

theorem OneByte.init : OneByte.Statement .init := ⟨rfl, rfl, by decide⟩
theorem OneByte.qual : OneByte.Statement .qual := ⟨rfl, rfl, by decide⟩
theorem OneByte.selfreq : OneByte.Statement .selfreq := ⟨rfl, rfl, by decide⟩
theorem OneByte.pack : OneByte.Statement .pack := ⟨rfl, rfl, by decide⟩
theorem OneByte.unpack : OneByte.Statement .unpack := ⟨rfl, rfl, by decide⟩
theorem OneByte.fenc : OneByte.Statement .fenc := ⟨rfl, rfl, by decide⟩
theorem OneByte.fdec : OneByte.Statement .fdec := ⟨rfl, rfl, by decide⟩
theorem OneByte.fencnl : OneByte.Statement .fencnl := ⟨rfl, rfl, by decide⟩
theorem OneByte.fdecnl : OneByte.Statement .fdecnl := ⟨rfl, rfl, by decide⟩
theorem OneByte.ecclen : OneByte.Statement .ecclen := ⟨rfl, rfl, by decide⟩
theorem OneByte.eccceil : OneByte.Statement .eccceil := ⟨rfl, rfl, by decide⟩
theorem OneByte.capecc : OneByte.Statement .capecc := ⟨rfl, rfl, by decide⟩
theorem OneByte.rawcap : OneByte.Statement .rawcap := ⟨rfl, rfl, by decide⟩
theorem OneByte.cap : OneByte.Statement .cap := ⟨rfl, rfl, by decide⟩
theorem OneByte.lenwr : OneByte.Statement .lenwr := ⟨rfl, rfl, by decide⟩
theorem OneByte.lenrd : OneByte.Statement .lenrd := ⟨rfl, rfl, by decide⟩
theorem OneByte.embed : OneByte.Statement .embed := ⟨rfl, rfl, by decide⟩
theorem OneByte.extract : OneByte.Statement .extract := ⟨rfl, rfl, by decide⟩

end Sys2Proof.Laws
end

