-- ==== Sys2Proof/Tests/Slice0.lean ====
section
/-! SUPPORT. Tests: ill-formed terms, the opcode words written out in bits, vectors of 95_test_vectors.md, one step
each, and for every statement with hypotheses a witness that meets them. -/

namespace Sys2Proof.Tests

open Sys2Proof Sys2Proof.Machine

/-! ### The states of the tests -/

/-- The instance of the vectors (95_test_vectors.md, section 2): `NPAR = 4`, `CW = QW = 16`. -/
def instance4 : Params where
  npar := 4
  qw := 16
  cwAboveThree := 13
  pbufSize := 64
  ebufSize := 140
  idxOrder := .zigzag
  embedLengthReset := true
  eccMethodReset := .none
  framingReset := .lengthCarrying
  poolReset := 4
  nlevelsReset := 4

/-- Four selected positions. -/
def slots4 (a b c d : Slot) : Vector Slot 64 := ((((Vector.replicate 64 0).set 0 a).set 1 b).set 2 c).set 3 d

/-- A block whose coefficients are all -7. -/
def oldBlock : CoefBlock := Vector.replicate 64 (-7)

/-- After reset: the slots 63, 62, 61, 60 by override, 8 blocks, the payload `48 69 21`, `MAXLEN = 16`, no ECC,
length embedded. -/
def sample : State :=
  { State.powerOn instance4 with
    nfreqs := 4, freqs := slots4 63 62 61 60, wb := 4, hb := 2, coef := List.replicate 8 oldBlock
    len := 3, maxlen := 16, pbuf := [(0, 0x48), (1, 0x69), (2, 0x21)] }

/-- The table `QT[p] = p + 1`. -/
def rising : Vector (Option Nat) 64 := ⟨((List.range 64).map fun p => some (p + 1)).toArray, rfl⟩

/-- The numbers a test looks at of a next state. -/
def seen (r : Host.Outcome State Fault Refusal) (f : State → List Int) : Option (List Int) :=
  match r with
  | .next t => some (f t)
  | .fault _ => none
  | .refused _ => none

/-- The next state of an outcome. -/
def stateOf (r : Host.Outcome State Fault Refusal) : State :=
  match r with
  | .next t => t
  | .fault _ => sample
  | .refused _ => sample

/-- Registers, in the order named. -/
def regs (l : List RegName) (t : State) : List Int := l.map fun r => regValue r t

/-- `RESULT`, `ERR` and `ERRINFO`. -/
def ending (t : State) : List Int := regs [.result, .err, .errinfo] t

/-- The bytes that the first `n` blocks carry. -/
def spelled (n : Nat) (t : State) : List Int := (List.range n).map fun j => (carried t j).toNat

/-- The coefficients of a block at given positions. -/
def at_ (n : Nat) (l : List Slot) (t : State) : List Int := l.map fun p => (t.coef.getD n oldBlock).get p

/-- The coefficients of a block at the slots 63, 62, 61, 60. -/
def groups (n : Nat) (t : State) : List Int := at_ n [63, 62, 61, 60] t

/-- The first valid entries of `FREQS`. -/
def chosen (t : State) : List Int := (t.freqs.toList.take t.nfreqs.toNat).map fun f => f.val

/-! ### Well-formed terms (30_encoding.md R113, R114) -/

theorem test_ill_formed_register_by_number : (ScriptLine.wr .reg 0x12 20).wellFormed = false := by decide
theorem test_ill_formed_register_read : (ScriptLine.rd .reg 0x03).wellFormed = false := by decide
theorem test_ill_formed_short_table : (ScriptLine.qt [16, 16]).wellFormed = false := by decide
theorem test_ill_formed_long_override : (ScriptLine.freqs (List.replicate 65 1)).wellFormed = false := by decide
theorem test_ill_formed_call : (ScriptLine.call .embed 3).wellFormed = false := by decide
theorem test_well_formed_lines :
    (ScriptLine.freqs [63, 62, 61, 60]).wellFormed = true ∧ (ScriptLine.call .lenwr 60).wellFormed = true ∧
    (ScriptLine.qt (List.replicate 64 16)).wellFormed = true ∧ (ScriptLine.wr .ebuf 0 1).wellFormed = true := by
  decide

/-! ### Decoding: each opcode's word, written out from 30_encoding.md R102 -/

theorem test_decode_init : decode [0b00000001#8] = .ok (.init, []) := rfl
theorem test_decode_qual : decode [0b00010000#8] = .ok (.qual, []) := rfl
theorem test_decode_selfreq : decode [0b00010001#8] = .ok (.selfreq, []) := rfl
theorem test_decode_pack : decode [0b00100000#8] = .ok (.pack, []) := rfl
theorem test_decode_unpack : decode [0b00100001#8] = .ok (.unpack, []) := rfl
theorem test_decode_fenc : decode [0b00110000#8] = .ok (.fenc, []) := rfl
theorem test_decode_fdec : decode [0b00110001#8] = .ok (.fdec, []) := rfl
theorem test_decode_fencnl : decode [0b00110010#8] = .ok (.fencnl, []) := rfl
theorem test_decode_fdecnl : decode [0b00110011#8] = .ok (.fdecnl, []) := rfl
theorem test_decode_ecclen : decode [0b00111000#8] = .ok (.ecclen, []) := rfl
theorem test_decode_eccceil : decode [0b00111001#8] = .ok (.eccceil, []) := rfl
theorem test_decode_capecc : decode [0b00111010#8] = .ok (.capecc, []) := rfl
theorem test_decode_rawcap : decode [0b01000000#8] = .ok (.rawcap, []) := rfl
theorem test_decode_cap : decode [0b01000001#8] = .ok (.cap, []) := rfl
theorem test_decode_lenwr : decode [0b01010000#8] = .ok (.lenwr, []) := rfl
theorem test_decode_lenrd : decode [0b01010001#8] = .ok (.lenrd, []) := rfl
theorem test_decode_embed : decode [0b01100000#8] = .ok (.embed, []) := rfl
theorem test_decode_extract : decode [0b01100001#8] = .ok (.extract, []) := rfl
/-- 30_encoding.md R110: 238 of the 256 values are no opcode; how many of each unit's sixteen. -/
theorem test_decode_illegal_count :
    ((List.range 16).map fun u => ((List.range 16).filter fun o =>
      (decodeByte (BitVec.ofNat 8 (16 * u + o))).isNone).length) =
    [15, 14, 14, 9, 14, 14, 14, 16, 16, 16, 16, 16, 16, 16, 16, 16] := by decide

/-- The first command after reset runs (30_encoding.md R101). -/
theorem test_first_command_runs : ∀ i : Instr,
    step (State.reset.withFetchWord 8 (opcode i).toNat) =
      exec i { State.reset with cmd := opcode i, reply := .written } := by
  intro i; cases i <;> rfl

/-! ### Errors (60_exceptions.md R282) -/

/-- The nineteen rows: class and detail. -/
theorem test_causes :
    ([.unmappedRegister, .illegalBlockLength, .illegalValue, .zeroTableEntry, .readOnlyRegister, .illegalOpcode,
      .tableNotLoaded, .messageTooShort, .positionOutOfRange, .addressOutOfRange, .tooFewFrequencies,
      .nonPositiveCapacity, .nothingEmbedded, .noSuchBlock, .lengthNotMultiple, .chunkLengthTooLarge,
      .bufferTooSmall, .ebufTooSmall, .overflow] : List Cause).map (fun c => (c.errClass.code, c.detail.toNat)) =
    [(1, 0x11), (1, 0x12), (1, 0x13), (1, 0x14), (1, 0x15), (1, 0x16), (1, 0x17), (1, 0x18), (1, 0x19),
      (1, 0x1A), (2, 0x21), (2, 0x22), (2, 0x23), (2, 0x24), (3, 0x31), (3, 0x32), (4, 0x41), (5, 0x51),
      (5, 0x52)] := by decide

/-! ### Vectors of 95_test_vectors.md -/

/-- V-H-18: `INIT` after an error. -/
theorem test_init : seen (exec .init (failed 1 0x16 { sample with qt := rising })) (fun t =>
    ending t ++ regs [.esticky, .phase, .eccBlockLength, .nfreqs, .wb] t ++ [if t.qt = rising then 1 else 0]) =
    some [0, 0, 0, 0, 0, 20, 0, 0, 1] := by decide

/-- V-Q-2, V-Q-3, V-Q-5, V-Q-7, V-Q-8. -/
theorem test_qual : [(63, 4), (64, 4), (256, 1), (1, 256), (9999, 0)].map (fun (q, l) =>
    seen (exec .qual { sample with qt := rising.set 7 (some q), arg0 := 7, nlevels := l }) (regs [.result])) =
    [some [1], some [0], some [0], some [0], some [1]] := by decide

/-- V-Q-9, V-Q-10: the position first, then the table. -/
theorem test_qual_errors :
    [{ sample with arg0 := 64 }, { sample with qt := rising.set 5 none, arg0 := 3 }].map (fun s =>
      seen (exec .qual s) ending) = [some [-1, 1, 0x19], some [-1, 1, 0x17]] := by decide

/-- V-SEL-1, V-SEL-10, V-SEL-11, V-SEL-13. -/
theorem test_selfreq : [(4, 4), (6, 8), (64, 64), (0, 4)].map (fun (p, l) =>
    seen (exec .selfreq { sample with qt := rising, pool := p, nlevels := l }) (fun t => regs [.result] t ++ chosen t)) =
    [some [4, 62, 61, 60, 59], some [6, 30, 29, 28, 27, 26, 25], some [3, 2, 1, 0], some [0]] := by decide

/-- V-SEL-14. -/
theorem test_selfreq_unloaded : seen (exec .selfreq { sample with qt := rising.set 0 none }) (fun t =>
    ending t ++ chosen t) = some [-1, 1, 0x17, 63, 62, 61, 60] := by decide

/-- V-P-1, V-P-3, V-P-9. -/
theorem test_pack : [0xB4, 0x1B, 0x12345678].map (fun v =>
    seen (exec .pack { sample with arg0 := v, arg1 := 1 }) (fun t => groups 1 t ++ groups 0 t ++ ending t)) =
    [some [0, 1, 3, 2, -7, -7, -7, -7, 1, 0, 0], some [3, 2, 1, 0, -7, -7, -7, -7, 1, 0, 0],
      some [0, 2, 3, 1, -7, -7, -7, -7, 1, 0, 0]] := by decide

/-- V-P-14: the last write to a slot wins. -/
theorem test_pack_equal_slots : seen (exec .pack { sample with freqs := slots4 10 10 11 12, arg0 := 0xB4 }) (fun t =>
    at_ 0 [10, 11, 12] t ++ spelled 1 t) = some [1, 3, 2, 0xB5] := by decide

/-- V-U-2, V-U-4: `lo2` of coefficients outside 0..3. -/
theorem test_unpack : [(-1, -2, -4, 7), (1023, -1024, 2, 1)].map (fun (a, b, c, d) =>
    seen (exec .unpack { sample with
      coef := [(((oldBlock.set 63 a).set 62 b).set 61 c).set 60 d] }) ending) =
    [some [0xCB, 0, 0], some [0x63, 0, 0]] := by decide

/-- V-P-10, V-P-11, V-P-12. -/
theorem test_unpack_errors :
    [{ sample with nfreqs := 3 }, { sample with arg1 := 8 }, { sample with wb := 65536, hb := 65536 }].map (fun s =>
      seen (exec .unpack s) ending) = [some [-2, 2, 0x21], some [-2, 2, 0x24], some [-5, 5, 0x52]] := by decide

/-- V-F-1 to V-F-5: the lengths; the regions are `test_fenc_regions`. -/
theorem test_fenc : [0, 14, 15, 30, 31].map (fun l => seen (exec .fenc { sample with len := l }) (regs [.result, .elen])) =
    [some [20, 20], some [20, 20], some [40, 40], some [60, 60], some [60, 60]] := by decide

/-- V-F-5: the message regions, shown through a port that changes nothing. -/
theorem test_fenc_regions : lcEncode id 16 ((List.range 31).map fun i => BitVec.ofNat 8 (i + 1)) =
    [0x0F, 1, 2, 3, 4, 5, 6, 7, 8, 9, 10, 11, 12, 13, 14, 15] ++
    [0x0F, 16, 17, 18, 19, 20, 21, 22, 23, 24, 25, 26, 27, 28, 29, 30] ++
    [0x01, 31, 0, 0, 0, 0, 0, 0, 0, 0, 0, 0, 0, 0, 0, 0] := by decide

/-- V-F-6, V-F-7, V-F-13. -/
theorem test_fdec : [sample, { sample with elen := 59 }, { sample with eccBlockLength := 5 }].map (fun s =>
    seen (exec .fdec s) (fun t => ending t ++ regs [.len] t)) =
    [some [0, 0, 0, 0], some [-3, 3, 0x31, 0], some [-1, 1, 0x18, 3]] := by decide

/-- V-F-10, V-F-12, V-F-11: no terminator, bytes after it, a length byte above `M - 1`, through a port that
changes nothing. -/
theorem test_fdec_regions :
    lcDecode id 4 [[3, 1, 2, 3], [3, 4, 5, 6]] = some [1, 2, 3, 4, 5, 6] ∧
    lcDecode id 4 [[3, 1, 2, 3], [1, 4, 5, 6], [9, 9, 9, 9]] = some [1, 2, 3, 4] ∧
    lcDecode id 4 [[4, 1, 2, 3]] = none := by decide

/-- V-N-1, V-N-2, V-N-4, V-N-5. -/
theorem test_fencnl : [0, 16, 32, 33].map (fun l => seen (exec .fencnl { sample with len := l }) (regs [.result, .elen])) =
    [some [0, 0], some [20, 20], some [40, 40], some [60, 60]] := by decide

/-- V-N-3: a short last chunk is filled with zeros. -/
theorem test_fencnl_regions : nlEncode id 4 [1, 2, 3, 4, 5, 6] = [1, 2, 3, 4, 5, 6, 0, 0] := by decide

/-- V-N-12, and V-N-9: a target of 0 reads nothing. -/
theorem test_fdecnl : [{ sample with elen := 41 }, { sample with elen := 40, arg0 := 0 }].map (fun s =>
    seen (exec .fdecnl s) (fun t => ending t ++ regs [.len] t)) = [some [-3, 3, 0x31, 0], some [0, 0, 0, 0]] := by
  decide

/-- V-N-7, V-N-8, V-N-10: the target is compared before each block. -/
theorem test_fdecnl_targets : [4, 5, 100].map (fun t => (nlDecode id t [[1, 2, 3, 4], [5, 6, 7, 8]] []).length) =
    [4, 8, 8] := by decide

/-- V-ARI. -/
theorem test_ecclen : [0, 14, 15, 71, 100, 2147483647].map (fun a => seen (exec .ecclen { sample with arg0 := a }) ending) =
    [some [20, 0, 0], some [20, 0, 0], some [40, 0, 0], some [100, 0, 0], some [140, 0, 0], some [-5, 5, 0x52]] := by
  decide

/-- V-ARI. -/
theorem test_eccceil : [0, 1, 20, 21, 99, 2147483647].map (fun a => seen (exec .eccceil { sample with arg0 := a }) ending) =
    [some [0, 0, 0], some [20, 0, 0], some [20, 0, 0], some [40, 0, 0], some [100, 0, 0], some [-5, 5, 0x52]] := by
  decide

/-- V-ARI. -/
theorem test_capecc : [19, 20, 99, 2147483647, 4294967295].map (fun a =>
    seen (exec .capecc { sample with arg0 := a }) ending) =
    [some [0, 0, 0], some [15, 0, 0], some [60, 0, 0], some [1610612730, 0, 0], some [-5, 5, 0x52]] := by decide

/-- Section 2.7. -/
theorem test_rawcap : [(10, 10), (0, 7), (65536, 65536)].map (fun (w, h) =>
    seen (exec .rawcap { sample with wb := w, hb := h }) ending) =
    [some [100, 0, 0], some [0, 0, 0], some [-5, 5, 0x52]] := by decide

/-- Section 2.7, the row of 20 blocks, and of 4 with the length embedded. -/
theorem test_cap : [(EccMethod.none, false, 20), (.none, true, 20), (.reedSolomon, false, 20), (.reedSolomon, true, 20),
    (.none, true, 4)].map (fun (m, e, w) =>
    seen (exec .cap { sample with eccMethod := m, embedLength := e, wb := w, hb := 1 }) ending) =
    [some [20, 0, 0], some [16, 0, 0], some [15, 0, 0], some [11, 0, 0], some [-2, 2, 0x22]] := by decide

/-- V-LEN-1. -/
theorem test_lenwr : seen (exec .lenwr { sample with arg0 := 0x12345678 }) (fun t =>
    ending t ++ spelled 4 t ++ groups 0 t ++ groups 3 t ++ groups 4 t) =
    some ([4, 0, 0] ++ [0x78, 0x56, 0x34, 0x12] ++ [0, 2, 3, 1] ++ [2, 0, 1, 0] ++ [-7, -7, -7, -7]) := by decide

/-- Section 2.8: the length back, the overflow, and too few blocks. -/
theorem test_lenrd : [stateOf (exec .lenwr { sample with arg0 := 0x12345678 }),
    stateOf (exec .lenwr { sample with arg0 := 0x80000000 }), { sample with wb := 3, hb := 1 }].map (fun s =>
      seen (exec .lenrd s) ending) = [some [305419896, 0, 0], some [-5, 5, 0x52], some [-2, 2, 0x24]] := by decide

/-- V-EMB-1. -/
theorem test_embed : seen (exec .embed sample) (fun t =>
    spelled 7 t ++ groups 7 t ++ ending t ++ regs [.blk, .k, .phase] t) =
    some ([3, 0, 0, 0, 0x48, 0x69, 0x21] ++ [-7, -7, -7, -7] ++ [3, 0, 0] ++ [7, 3, 8]) := by decide

/-- V-EMB-4, V-EMB-5, V-EMB-9. -/
theorem test_embed_errors : [{ sample with hb := 1, len := 1 }, { sample with wb := 3, hb := 1, len := 1 },
    { sample with nfreqs := 0 }].map (fun s => seen (exec .embed s) (fun t =>
      ending t ++ regs [.blk, .k, .phase] t ++ spelled 1 t)) =
    [some [-2, 2, 0x23, 4, 0, 8, 1], some [-2, 2, 0x23, 3, 0, 8, 1], some [-1, 1, 0x17, 0, 0, 8, 0x55]] := by
  decide

/-- V-EMB-1, V-EMB-10: the payload back, whole and clamped by `MAXLEN`. -/
theorem test_extract : [16, 2].map (fun m =>
    seen (exec .extract { stateOf (exec .embed sample) with pbuf := [], maxlen := m }) (fun t =>
      (t.pbuf.map fun c => (c.2.toNat : Int)) ++ ending t ++ regs [.len, .blk, .k] t)) =
    [some [0x48, 0x69, 0x21, 3, 0, 0, 3, 7, 3], some [0x48, 0x69, 2, 0, 0, 2, 6, 2]] := by decide

/-- V-EMB-7 with `ARG0 = 5`, `MAXLEN = 2`; V-EMB-5. -/
theorem test_extract_errors :
    [{ stateOf (exec .embed { sample with embedLength := false }) with arg0 := 5, maxlen := 2 },
      { sample with wb := 3, hb := 1 }].map (fun s => seen (exec .extract s) (fun t =>
        ending t ++ regs [.len, .blk] t)) = [some [-4, 4, 0x41, 2, 5], some [-2, 2, 0x24, 3, 0]] := by decide

/-- V-H-1, V-H-5, V-H-8, V-H-10, V-H-11, V-H-12, V-H-17: refused accesses. -/
theorem test_refused_accesses : [Input.write .reg 0x12 4, .write .reg 0x14 4, .write .reg 0x03 0, .read .reg 0x0A,
    .write .qt 64 1, .write .qt 3 0, .write .reg 0x00 0x100].map (fun x =>
      seen (step { sample with pending := [x] }) (regs [.errinfo, .err, .esticky, .result])) =
    [0x12, 0x13, 0x15, 0x11, 0x1A, 0x14, 0x13].map fun d => some [d, 1, 2, 0] := by decide

/-- V-H-3, V-H-16, and the side effect of a table write (section 2.2). -/
theorem test_accepted_writes : [Input.write .reg 0x12 255, .write .reg 0x00 0x02, .write .qt 0 1].map (fun x =>
    seen (step { sample with pending := [x] }) (fun t => regs [.eccBlockLength, .cmd, .nfreqs] t ++ ending t)) =
    [some [255, 0, 4, 0, 0, 0], some [20, 2, 4, -1, 1, 0x16], some [20, 0, 0, 0, 0, 0]] := by decide

/-- V-H-19, and `RESULT` read as a signed number (45_config_access.md R260). -/
theorem test_reads :
    step { sample with pending := [.read .reg 0x12] } = .next { sample with reply := .value 20 } ∧
    step { failed 2 0x21 sample with pending := [.read .reg 0x03] } =
      .next { failed 2 0x21 sample with reply := .value (-2) } := ⟨rfl, rfl⟩

/-- 30_encoding.md R114: a pseudo-instruction. -/
theorem test_script : expandLine (.pack 0xB4 1) = [.write .reg 0x01 0xB4, .write .reg 0x02 1, .write .reg 0x00 0x20] := by
  decide

/-! ### Witnesses: for each statement with hypotheses, states that meet them -/

/-- `sample` with a selection, and the whole table. -/
def loaded : State := { sample with qt := rising, nfreqs := 0 }

/-- A `Legal` state from another that differs in the named fields only. -/
theorem legal_of {s : State} (hp : s.params = instance4) (hb : s.eccBlockLength = 20) (h1 : s.bitsPerFreq = 2)
    (h2 : s.bytesPerMcu = 1) (h3 : s.comp = 0) (h4 : s.pool = 4) (h5 : s.nfreqs = 4) (h6 : s.len.toNat ≤ 64)
    (h7 : s.maxlen.toNat ≤ 64) (h8 : s.elen.toNat ≤ 140) (h9 : s.vsamp = 1) (h10 : s.qt = sample.qt)
    (h11 : Memory.wf s.pbuf = true) (h12 : ∀ c ∈ s.pbuf, c.1 < 64) (h13 : Memory.wf s.ebuf = true)
    (h14 : ∀ c ∈ s.ebuf, c.1 < 140) (h15 : ∀ blk ∈ s.coef, coefInRange 16 blk) (h16 : s.err = 0)
    (h17 : s.errinfo = 0) (h18 : s.esticky = 0) (h19 : s.result = 0) (h20 : s.phase = .idle) (h21 : s.k = 0)
    (h22 : s.blk = 0) : s.Legal where
  blockLength := by rw [hp, hb]; decide
  bitsPerFreq := h1
  bytesPerMcu := h2
  comp := h3
  pool := by rw [h4]; decide
  nfreqs := by rw [h5]; decide
  len := by rw [hp]; exact h6
  maxlen := by rw [hp]; exact h7
  elen := by rw [hp]; exact h8
  vsamp := by rw [h9]; decide
  qt := fun p v h => by
    rw [h10] at h
    simp [sample, State.powerOn, Vector.get_eq_getElem] at h
  pbufForm := h11
  pbufRange := by rw [hp]; exact h12
  ebufForm := h13
  ebufRange := by rw [hp]; exact h14
  coef := by rw [hp]; exact h15
  err := by rw [h16]; decide
  errinfo := by rw [h16, h17]
  esticky := by rw [h18]; decide
  result := by rw [h19]; decide
  phase := .inl h20
  counters := by rw [h21, h22]; decide

/-- The old blocks are in range. -/
theorem old_in_range (n : Nat) : ∀ blk ∈ List.replicate n oldBlock, coefInRange 16 blk := by
  intro blk h p
  rw [List.eq_of_mem_replicate h]
  simp [oldBlock, Vector.get_eq_getElem]

theorem sample_legal : sample.Legal :=
  legal_of rfl rfl rfl rfl rfl rfl rfl (by decide) (by decide) (by decide) rfl rfl (by decide) (by decide)
    (by decide) (by decide) (old_in_range 8) rfl rfl rfl rfl rfl rfl rfl

/-- A legal state that is about to run `EMBED`. -/
theorem witness_StepKeepsTheStateLegal :
    ∃ s t, s.Legal ∧ s.pending = [command .embed] ∧ step s = .next t :=
  ⟨{ sample with pending := [command .embed] }, _,
    legal_of rfl rfl rfl rfl rfl rfl rfl (by decide) (by decide) (by decide) rfl rfl (by decide) (by decide)
      (by decide) (by decide) (old_in_range 8) rfl rfl rfl rfl rfl rfl rfl, rfl, rfl⟩

theorem witness_InitDiffersFromResetInWhatItKeeps : ∃ s : State, s.pending = .reset :: [] :=
  ⟨{ sample with pending := [.reset] }, rfl⟩

theorem witness_StepRunsTheDecodedCommand : ∃ s : State,
    s.pending = .write .reg 0x00 0x61 :: [] ∧ 0x61 ≤ 255 ∧
    decode [BitVec.ofNat 8 0x61] = .ok (.extract, []) ∧ Instr.extract.wellFormed = true :=
  ⟨{ sample with pending := [.write .reg 0x00 0x61] }, rfl, by decide, rfl, rfl⟩

theorem witness_IllegalOpcodeRaises : ∃ s : State,
    s.pending = .write .reg 0x00 255 :: [] ∧ 255 ≤ 255 ∧ decodeByte (BitVec.ofNat 8 255) = none :=
  ⟨{ sample with pending := [.write .reg 0x00 255] }, rfl, by decide, rfl⟩

/-- A command that succeeds and one that fails, from a legal state. -/
theorem witness_ResultIsNegativeExactlyOnFailure : sample.Legal ∧
    (∃ t, exec .pack sample = .next t ∧ t.err = 0) ∧ (∃ t, exec .qual sample = .next t ∧ t.err ≠ 0) :=
  ⟨sample_legal, ⟨_, rfl, rfl⟩, ⟨_, rfl, by decide⟩⟩

theorem witness_StickyBitsAccumulate :
    (∃ t, Instr.qual ≠ .init ∧ exec .qual sample = .next t ∧ t.err ≠ 0) ∧
    (∃ t, Instr.pack ≠ .init ∧ exec .pack sample = .next t ∧ t.err = 0) ∧ ∃ t, exec .init sample = .next t :=
  ⟨⟨_, by decide, rfl, by decide⟩, ⟨_, by decide, rfl, rfl⟩, ⟨_, rfl⟩⟩

theorem witness_OnlyScansAndInitMoveTheScanState :
    (∃ t, Instr.pack ∉ [.embed, .extract, .init] ∧ exec .pack sample = .next t) ∧
    (∃ t, exec .embed sample = .next t) ∧ ∃ t, exec .extract { sample with nfreqs := 0 } = .next t :=
  ⟨⟨_, by decide, rfl⟩, ⟨_, rfl⟩, ⟨_, rfl⟩⟩

theorem witness_CommandsKeepOperandsAndConfiguration :
    ∃ t, Instr.embed ≠ .init ∧ exec .embed sample = .next t := ⟨_, by decide, rfl⟩

theorem witness_StoresAreWrittenOnlyByTheirCommands :
    (∃ t, exec .selfreq loaded = .next t) ∧ (∃ t, exec .pack sample = .next t) ∧ ∃ t, exec .fenc sample = .next t :=
  ⟨⟨_, rfl⟩, ⟨_, rfl⟩, ⟨_, rfl⟩⟩

/-- Position 59 is outside the slots. -/
theorem witness_CoefficientsOutsideTheSlotsStay :
    ∃ t, exec .embed sample = .next t ∧ 59 ∉ (slots t).toList := ⟨_, rfl, by decide⟩

theorem witness_StoredOnlyRegistersHaveNoEffect :
    ∃ t, Instr.embed ≠ .init ∧ exec .embed sample = .next t := ⟨_, by decide, rfl⟩

/-- The geometry names exactly the blocks there are; and one block too many. -/
theorem witness_CommandsStopOnlyAtMissingBlocks :
    sample.geometryFits ∧ blockProduct sample = sample.coef.length ∧
    exec .pack { sample with arg1 := 7, coef := List.replicate 7 oldBlock } = .fault (.noSuchCoefBlock 7) :=
  ⟨by show _ ≤ _; decide, by decide, rfl⟩

/-- A state for each clause, where the clause on `EXTRACT` after the prefix and with ECC each have the first missing
block as the last that is reached. -/
theorem witness_MissingBlocksStopTheCommand :
    let a := { sample with arg1 := 7, coef := List.replicate 7 oldBlock }
    let b := { sample with wb := 2, hb := 2, coef := List.replicate 3 oldBlock }
    let c := { sample with coef := List.replicate 6 oldBlock }
    let d := { sample with embedLength := false, arg0 := 8, coef := List.replicate 7 oldBlock }
    let e := { c with eccMethod := .reedSolomon, maxlen := 3 }
    let f := { d with eccMethod := .reedSolomon, arg0 := 0, wb := 20, hb := 1, coef := List.replicate 19 oldBlock }
    let rounded := fun (s : State) (n : Nat) => (n + blockLen s - 1) / blockLen s * blockLen s
    (a.slotsReady ∧ a.arg1.toNat < blockProduct a ∧ a.coef.length ≤ a.arg1.toNat) ∧
    (b.slotsReady ∧ 4 ≤ blockProduct b ∧ b.coef.length < 4 ∧ b.eccMethod = .none ∧ b.embedLength = true) ∧
    (c.slotsReady ∧ c.encodable ∧ c.coef.length < blockProduct c ∧
      c.coef.length < prefixBlocks c + (rawBytes c).length) ∧
    (e.slotsReady ∧ e.embedLength = true ∧ e.eccMethod = .reedSolomon ∧ 2 ≤ msgCap e ∧
      rounded e (min (min (carriedLength e) e.maxlen.toNat) (blockProduct e - 4)) ≤ e.params.ebufSize.val ∧
      4 ≤ e.coef.length ∧ e.coef.length < blockProduct e ∧
      e.coef.length < 4 + min (carriedLength e) e.maxlen.toNat) ∧
    (d.slotsReady ∧ d.eccMethod = .none ∧ d.embedLength = false ∧ d.coef.length < blockProduct d ∧
      d.coef.length < d.arg0.toNat) ∧
    (f.slotsReady ∧ f.embedLength = false ∧ f.eccMethod = .reedSolomon ∧ 2 ≤ msgCap f ∧
      (f.arg0.toNat / (msgCap f - 1) + 1) * blockLen f ≤ lenMax ∧
      rounded f (min ((f.arg0.toNat / (msgCap f - 1) + 1) * blockLen f) (blockProduct f)) ≤ f.params.ebufSize.val ∧
      f.coef.length < blockProduct f ∧ f.coef.length < (f.arg0.toNat / (msgCap f - 1) + 1) * blockLen f) :=
  ⟨⟨⟨by decide, by decide⟩, by decide, by decide⟩,
    ⟨⟨by decide, by decide⟩, by decide, by decide, rfl, rfl⟩,
    ⟨⟨by decide, by decide⟩, fun h => EccMethod.noConfusion h, by decide, by decide⟩,
    ⟨⟨by decide, by decide⟩, rfl, rfl, by decide, by decide, by decide, by decide, by decide⟩,
    ⟨⟨by decide, by decide⟩, rfl, rfl, by decide, by decide⟩,
    ⟨⟨by decide, by decide⟩, rfl, rfl, by decide, by decide, by decide, by decide, by decide⟩⟩

/-- The table of `loaded` is loaded; that of `sample` is not. -/
theorem loaded_tableLoaded : loaded.tableLoaded := by
  show ∀ p : Slot, (loaded.qt.get p).isSome = true
  decide

theorem sample_not_tableLoaded : ¬ sample.tableLoaded := fun h => absurd (h 0) (by decide)

/-- The last position, the first address above it, and a table not loaded. -/
theorem witness_QualTestsOnePosition :
    (let s := { loaded with arg0 := 63 }
     s.arg0.toNat = (63 : Slot).val ∧ s.tableLoaded ∧ s.qt.get 63 = some 64) ∧
    63 < { loaded with arg0 := 64 }.arg0.toNat ∧
    ({ sample with arg0 := 63 }.arg0.toNat ≤ 63 ∧ ¬ { sample with arg0 := 63 }.tableLoaded) :=
  ⟨⟨rfl, loaded_tableLoaded, rfl⟩, by decide, by decide, sample_not_tableLoaded⟩

theorem witness_SelfreqKeepsTheHighestAdmissible : loaded.tableLoaded ∧ ¬ sample.tableLoaded :=
  ⟨loaded_tableLoaded, sample_not_tableLoaded⟩

/-- The last valid entry, and the last two. -/
theorem witness_SelectionIsAdmissibleAndDecreasing : loaded.tableLoaded ∧
    ∃ t, exec .selfreq loaded = .next t ∧ 3 < t.nfreqs.toNat ∧ (2 : Fin 64) < 3 :=
  ⟨loaded_tableLoaded, _, rfl, by decide, by decide⟩

theorem witness_LazySelectionIsSelfreqFirst :
    loaded.nfreqs = 0 ∧ loaded.tableLoaded ∧ ∃ u, exec .selfreq loaded = .next u :=
  ⟨rfl, loaded_tableLoaded, _, rfl⟩

theorem witness_ResolvedSelectionNeedsNoTable :
    sample.nfreqs ≠ 0 ∧ (∃ t, exec .embed sample = .next t) ∧ ∃ t, exec .extract sample = .next t :=
  ⟨by decide, ⟨_, rfl⟩, ⟨_, rfl⟩⟩

/-- No table; three slots by override; three slots by selection; one block too many. -/
theorem witness_ScansStopWithoutFourSlots :
    let a := { sample with nfreqs := 0 }
    let b := { sample with nfreqs := 3 }
    let c := { loaded with pool := 3 }
    let d := { sample with wb := 0x80000000, hb := 1 }
    (a.nfreqs = 0 ∧ ¬ a.tableLoaded) ∧ (b.nfreqs ≠ 0 ∧ b.nfreqs.toNat < 4) ∧
    (c.nfreqs = 0 ∧ c.tableLoaded ∧ ∃ u, exec .selfreq c = .next u ∧ u.nfreqs.toNat < 4) ∧
    (4 ≤ d.nfreqs.toNat ∧ lenMax < blockProduct d) :=
  ⟨⟨rfl, sample_not_tableLoaded⟩, ⟨by decide, by decide⟩, ⟨rfl, loaded_tableLoaded, _, rfl, by decide⟩,
    by decide, by decide⟩

/-- The last block of the image. -/
theorem witness_PackStoresTheFourGroups :
    let s := { sample with arg0 := 0xB4, arg1 := 7 }
    s.slotsReady ∧ s.arg1.toNat < blockProduct s ∧ s.arg1.toNat < s.coef.length :=
  ⟨⟨by decide, by decide⟩, by decide, by decide⟩

theorem witness_UnpackReadsTheFourGroups :
    let s := { sample with arg1 := 7 }
    s.slotsReady ∧ s.arg1.toNat < blockProduct s ∧ coefRead s.arg1.toNat s.freqs[0] s = .ok (-7) ∧
    coefRead s.arg1.toNat s.freqs[1] s = .ok (-7) ∧ coefRead s.arg1.toNat s.freqs[2] s = .ok (-7) ∧
    coefRead s.arg1.toNat s.freqs[3] s = .ok (-7) :=
  ⟨⟨by decide, by decide⟩, by decide, rfl, rfl, rfl, rfl⟩

theorem witness_UnpackInvertsPack : sample.slotsReady ∧ sample.distinctSlots ∧
    ∃ t, exec .pack sample = .next t ∧ t.err = 0 ∧ ∃ u : State, u.arg1 = t.arg1 ∧ u.nfreqs = t.nfreqs ∧
      u.freqs = t.freqs ∧ u.wb = t.wb ∧ u.hb = t.hb ∧
      ∀ p ∈ (slots t).toList, coefRead t.arg1.toNat p u = coefRead t.arg1.toNat p t :=
  ⟨⟨by decide, by decide⟩, by show List.Nodup _; decide, _, rfl, rfl,
    { stateOf (exec .pack sample) with arg0 := 9 }, rfl, rfl, rfl, rfl, rfl, fun _ _ => rfl⟩

/-- Three slots; too many blocks; the first block number that is none. -/
theorem witness_PackReadyErrorsInOrder :
    let a := { sample with nfreqs := 3 }
    let b := { sample with wb := 65536, hb := 65536 }
    let c := { sample with arg1 := 8 }
    let d := { sample with wb := 3, hb := 1 }
    a.nfreqs.toNat < 4 ∧ (4 ≤ b.nfreqs.toNat ∧ lenMax < blockProduct b) ∧
    (4 ≤ c.nfreqs.toNat ∧ blockProduct c ≤ lenMax ∧ blockProduct c ≤ c.arg1.toNat) ∧
    (4 ≤ d.nfreqs.toNat ∧ blockProduct d ≤ lenMax ∧ blockProduct d ≤ 3) := by decide

/-- The store holds exactly the encoded bytes. -/
theorem witness_FencFramesThePayload :
    let s := { sample with len := 64, eccBlockLength := 28 }
    2 ≤ msgCap s ∧ (s.len.toNat / (msgCap s - 1) + 1) * blockLen s ≤ s.params.ebufSize.val ∧
    Memory.wf s.ebuf = true := by decide

theorem witness_FencnlFramesThePayload :
    let s := { sample with len := 64, eccBlockLength := 5, params := { instance4 with ebufSize := 320 } }
    1 ≤ msgCap s ∧ (s.len.toNat + msgCap s - 1) / msgCap s * blockLen s ≤ s.params.ebufSize.val ∧
    Memory.wf s.ebuf = true := by decide

/-- A message region of 16 bytes with one data byte. -/
def region (c : Byte) : List Byte := c :: 5 :: zeros 14

/-- `sample` with one encoded block in `EBUF`. -/
def framed (c : Byte) (maxlen : Word) : State :=
  { storeEbuf (rsEnc 20 4 (region c)) sample with maxlen := maxlen }

theorem framed_elen (c : Byte) (maxlen : Word) : (framed c maxlen).elen = 20 := by
  simp [framed, storeEbuf, rsEnc_length]

/-- Its one block decodes to its message region. -/
theorem framed_decodes (c : Byte) (maxlen : Word) :
    (eccBlocks (blockLen (framed c maxlen)) (ebufBytes (framed c maxlen) (framed c maxlen).elen.toNat)).map
      (decoder (framed c maxlen)) = [region c] := by
  have hl : (rsEnc 20 4 (region c)).length = 20 := rsEnc_length ..
  have h := ebufBytes_storeEbuf (s := sample) rfl (rsEnc 20 4 (region c))
  have he : (framed c maxlen).elen.toNat = (rsEnc 20 4 (region c)).length := by
    rw [framed_elen, hl]; rfl
  have hm : ∀ (s : State) (m : Word) (n : Nat), ebufBytes { s with maxlen := m } n = ebufBytes s n :=
    fun _ _ _ => rfl
  have hb : ebufBytes (framed c maxlen) (framed c maxlen).elen.toNat = rsEnc 20 4 (region c) := by
    rw [he]; exact (hm _ _ _).trans h
  have hd : decoder (framed c maxlen) = rsDec 20 4 := rfl
  rw [hb, hd]
  show (eccBlocks 20 _).map _ = _
  simp only [eccBlocks, hl, slice]
  simp only [Nat.div_self (by omega : 0 < 20), List.range_one, List.map_cons, List.map_nil, Nat.zero_mul,
    List.drop_zero]
  rw [List.take_of_length_le (by omega), rsDec_rsEnc (by decide) (by simp [region, zeros])]

/-- What the length-carrying decode of one block answers. -/
theorem lcDecode_one {dec : List Byte → List Byte} {blocks : List (List Byte)} {c : Byte}
    (h : blocks.map dec = [region c]) :
    lcDecode dec 16 blocks = if c.toNat > 15 then none else
      if c.toNat < 15 then some ((region c).tail.take c.toNat) else some ((region c).tail.take c.toNat ++ []) := by
  obtain ⟨b, rfl, hb⟩ : ∃ b, blocks = [b] ∧ dec b = region c := by
    cases blocks with
    | nil => cases h
    | cons b l => cases l with
      | nil => exact ⟨b, rfl, by simpa using h⟩
      | cons _ _ => simp at h
  simp only [lcDecode, hb, region, List.headD_cons, slice, List.drop_succ_cons, List.drop_zero, List.tail_cons,
    Option.map_some]

/-- A full block with none, a malformed one (length byte 16) and a short one (14) after it; and one data byte, decoded
whole (`MAXLEN = 1`) and cut (`MAXLEN = 0`). -/
theorem witness_FdecDeliversTheDecodedBytes :
    ((∀ x ∈ [region 15], ((id x).headD 0).toNat = 16 - 1) ∧ 16 - 1 < ((id (region 16)).headD 0).toNat ∧
      ((id (region 14)).headD 0).toNat < 16 - 1) ∧
    ∀ maxlen : Word, maxlen = 1 ∨ maxlen = 0 →
    let s := framed 1 maxlen
    2 ≤ msgCap s ∧ s.elen.toNat % blockLen s = 0 ∧
    lcDecode (decoder s) (msgCap s) (eccBlocks (blockLen s) (ebufBytes s s.elen.toNat)) = some [5] ∧
    Memory.wf s.pbuf = true := by
  refine ⟨by decide, fun maxlen _ => ?_⟩
  refine ⟨by show 2 ≤ 16; decide, ?_, ?_, rfl⟩
  · show (framed 1 maxlen).elen.toNat % 20 = 0
    rw [framed_elen]; rfl
  · exact (lcDecode_one (framed_decodes 1 maxlen)).trans rfl

/-- Two regions of 16 bytes; and a target of one byte. -/
theorem witness_FdecnlDeliversTheDecodedBytes :
    (1 ≤ 16 ∧ ∀ x ∈ [region 1, region 2], (id x).length = 16) ∧
    let s := { sample with elen := 20, arg0 := 1 }
    s.elen.toNat % blockLen s = 0 ∧ Memory.wf s.pbuf = true ∧
    (nlDecode (decoder s) s.arg0.toNat (eccBlocks (blockLen s) (ebufBytes s s.elen.toNat)) []).length = 16 := by
  refine ⟨by decide, rfl, rfl, ?_⟩
  have h : eccBlocks 20 (ebufBytes { sample with elen := 20, arg0 := 1 } 20) =
      [ebufBytes { sample with elen := 20, arg0 := 1 } 20] := rfl
  show (nlDecode _ 1 (eccBlocks 20 (ebufBytes _ 20)) []).length = 16
  rw [h]
  exact rsDec_length 20 4 _

/-- `M = 1`; each encoder past `LEN_MAX` and past `EBUF`; an uneven input; a length byte of 16. -/
theorem witness_FramingErrorsInOrder :
    msgCap { sample with eccBlockLength := 5 } < 2 ∧
    (let s := { sample with len := 0x80000000 }
     2 ≤ msgCap s ∧ lenMax < (s.len.toNat / (msgCap s - 1) + 1) * blockLen s ∧
     1 ≤ msgCap s ∧ lenMax < (s.len.toNat + msgCap s - 1) / msgCap s * blockLen s) ∧
    (let s := { sample with len := 30, params := { instance4 with ebufSize := 39 } }
     2 ≤ msgCap s ∧ (s.len.toNat / (msgCap s - 1) + 1) * blockLen s ≤ lenMax ∧
     s.params.ebufSize.val < (s.len.toNat / (msgCap s - 1) + 1) * blockLen s ∧
     (s.len.toNat + msgCap s - 1) / msgCap s * blockLen s ≤ lenMax ∧
     s.params.ebufSize.val < (s.len.toNat + msgCap s - 1) / msgCap s * blockLen s) ∧
    (let s := { sample with elen := 59 }
     s.elen.toNat % blockLen s ≠ 0 ∧ 2 ≤ msgCap s) ∧
    (let s := framed 16 1
     2 ≤ msgCap s ∧ s.elen.toNat % blockLen s = 0 ∧
     lcDecode (decoder s) (msgCap s) (eccBlocks (blockLen s) (ebufBytes s s.elen.toNat)) = none) := by
  refine ⟨by decide, by decide, by decide, by decide, by show 2 ≤ 16; decide, ?_, ?_⟩
  · show (framed 16 1).elen.toNat % 20 = 0
    rw [framed_elen]; rfl
  · exact (lcDecode_one (framed_decodes 16 1)).trans rfl

/-- At most one byte differs. -/
theorem changedCount_le_one {n k : Nat} {f g : Nat → Byte} (h : ∀ j, j ≠ k → f j = g j) : changedCount n f g ≤ 1 := by
  have hs : (List.range n).filter (fun j => f j ≠ g j) ⊆ [k] := fun j hj => by
    by_contra hk
    have := (List.mem_filter.1 hj).2
    simp [h j (by simpa using hk)] at this
  exact ((List.nodup_range.filter _).subperm hs).length_le

/-- A code block with one byte changed, of two that may be. -/
theorem witness_ReedSolomonPortInverts :
    let c := (rsEnc 20 4 (region 1)).set 3 ((rsEnc 20 4 (region 1)).getD 3 0 + 1)
    4 ≤ 20 ∧ 20 ≤ 255 ∧ (region 1).length = 20 - 4 ∧ c.length = 20 ∧
    changedCount 20 (c.getD · 0) ((rsEnc 20 4 (region 1)).getD · 0) ≤ 4 / 2 := by
  refine ⟨by decide, by decide, by decide, by simp [rsEnc_length], ?_⟩
  refine (changedCount_le_one (k := 3) fun j hj => ?_).trans (by decide)
  simp only [List.getD_eq_getElem?_getD, List.getElem?_set_ne (Ne.symm hj)]

/-- The smallest and the largest region size. -/
theorem witness_LengthCarryingRoundTrip : ∀ m ∈ [2, 255], 2 ≤ m ∧ m ≤ 255 ∧ 0 < m ∧
    ∀ r : List Byte, r.length = m → (id r).length = m ∧ id (id r) = r := by
  intro m hm
  refine ⟨?_, ?_, ?_, fun r h => ⟨h, rfl⟩⟩ <;> simp at hm <;> omega

/-- Every byte of a region three times. -/
def thrice (r : List Byte) : List Byte := r ++ r ++ r

/-- The byte that at least two of three say. -/
def vote (a b c : Byte) : Byte := if a = b then a else if a = c then a else b

/-- The region of six bytes that `thrice` made, one of them perhaps changed. -/
def voted (c : List Byte) : List Byte :=
  [vote (c.getD 0 0) (c.getD 2 0) (c.getD 4 0), vote (c.getD 1 0) (c.getD 3 0) (c.getD 5 0)]

theorem voted_corrects (r c : List Byte) (hr : r.length = 2) (hc : c.length = 6)
    (h : ((c.zip (thrice r)).filter fun x => x.1 != x.2).length ≤ 1) : voted c = r := by
  match r, hr with
  | [x, y], _ =>
    match c, hc with
    | [c0, c1, c2, c3, c4, c5], _ =>
      simp only [thrice, List.cons_append, List.nil_append, List.zip_cons_cons, List.zip_nil_right,
        List.filter_cons, List.filter_nil, bne_iff_ne] at h
      simp only [voted, vote, List.getD_cons_zero, List.getD_cons_succ]
      by_cases a0 : c0 = x <;> by_cases a1 : c1 = y <;> by_cases a2 : c2 = x <;> by_cases a3 : c3 = y <;>
        by_cases a4 : c4 = x <;> by_cases a5 : c5 = y <;> simp_all

/-- A port that corrects one byte, and a received buffer with one byte changed in the first block. -/
theorem witness_LengthCarryingSurvivesChangedBytes :
    let p : List Byte := [5]
    let received := (lcEncode thrice 2 p).set 3 9
    2 ≤ 2 ∧ 2 ≤ 255 ∧ 0 < 6 ∧ (∀ r : List Byte, r.length = 2 → (thrice r).length = 6) ∧
    (∀ r c : List Byte, r.length = 2 → c.length = 6 →
      ((c.zip (thrice r)).filter fun x => x.1 != x.2).length ≤ 1 → voted c = r) ∧
    received.length = (lcEncode thrice 2 p).length ∧ received ≠ lcEncode thrice 2 p ∧
    ∀ j < received.length / 6,
      (((slice received (j * 6) 6).zip (slice (lcEncode thrice 2 p) (j * 6) 6)).filter
        fun x => x.1 != x.2).length ≤ 1 :=
  ⟨by decide, by decide, by decide, fun r h => by simp [thrice, h], voted_corrects, rfl, by decide, by decide⟩

theorem witness_LengthOmittingRoundTrip : 1 ≤ 1 ∧ 0 < 1 ∧
    ∀ r : List Byte, r.length = 1 → (id r).length = 1 ∧ id (id r) = r :=
  ⟨by decide, by decide, fun _ h => ⟨h, rfl⟩⟩

/-- `sample` with bytes stored in `EBUF` is legal. -/
theorem stored_legal (e : List Byte) (h : e.length ≤ 140) : (storeEbuf e sample).Legal :=
  legal_of rfl rfl rfl rfl rfl rfl rfl (by show 3 ≤ 64; decide) (by show 16 ≤ 64; decide)
    (by simp [storeEbuf]; omega) rfl rfl rfl (show ∀ c ∈ sample.pbuf, c.1 < 64 by decide)
    (Memory.wf_writeBytes (m := sample.ebuf) rfl 0 e)
    (fun c hc => by
      rcases Memory.mem_writeBytes hc with h | h
      · omega
      · exact absurd h List.not_mem_nil)
    (old_in_range 8) rfl rfl rfl rfl rfl rfl rfl

/-- The encoded payload of `sample`, with its byte 3 changed. -/
def garbled : List Byte :=
  (encodedPayload .lengthCarrying sample).set 3 ((encodedPayload .lengthCarrying sample).getD 3 0 + 1)

theorem garbled_length : garbled.length = (encodedPayload .lengthCarrying sample).length := List.length_set ..

/-- The buffer as `FENC` left it, and with one byte changed. -/
theorem witness_FdecInvertsFenc : sample.Legal ∧ 2 ≤ msgCap sample ∧
    (sample.len.toNat / (msgCap sample - 1) + 1) * blockLen sample ≤ sample.params.ebufSize.val ∧
    ∃ t, exec .fenc sample = .next t ∧
      ∀ e, e = encodedPayload .lengthCarrying sample ∨ e = garbled →
        ∃ v : State, v.ebuf = Memory.writeBytes [] 0 e ∧ v.Legal ∧ v.params = t.params ∧
          v.eccBlockLength = t.eccBlockLength ∧ v.elen = t.elen ∧
          (∀ i < 1, changedCount 20 (fun j => ebufByte v (i * 20 + j)) (fun j => ebufByte t (i * 20 + j)) ≤ 4 / 2) ∧
          sample.len.toNat ≤ v.maxlen.toNat := by
  have hfin : ∀ (n : Nat) (s : State) a, ebufByte (finish n s) a = ebufByte s a := fun _ _ _ => rfl
  refine ⟨sample_legal, by decide, by decide,
    finish _ (storeEbuf (encodedPayload .lengthCarrying sample) sample), rfl, fun e he => ?_⟩
  have hl : e.length = (encodedPayload .lengthCarrying sample).length := by
    rcases he with rfl | rfl
    · rfl
    · exact garbled_length
  have h20 : (encodedPayload .lengthCarrying sample).length = 20 := encodedPayload_length ..
  refine ⟨storeEbuf e sample, rfl, stored_legal _ (by omega), rfl, rfl, by simp [storeEbuf, finish, hl], ?_,
    by show 3 ≤ 16; decide⟩
  intro i hi
  refine (changedCount_le_one (k := 3) fun j hj => ?_).trans (by decide)
  rw [hfin, ebufByte_storeEbuf rfl, ebufByte_storeEbuf rfl, hl]
  rcases he with rfl | rfl
  · rfl
  · obtain rfl : i = 0 := by omega
    simp only [garbled, List.getD_eq_getElem?_getD, List.getElem?_set_ne (show 3 ≠ 0 * 20 + j by omega)]

/-- `M = 1` and `M = 2`, each with an `ARG0` below and one above what `RESULT` can hold. -/
theorem witness_CapacityCommandsCompute :
    (1 ≤ msgCap { sample with eccBlockLength := 5 } ∧ msgCap { sample with eccBlockLength := 5 } < 2) ∧
    (let s := { sample with eccBlockLength := 6, arg0 := 14 }
     let x := s.arg0.toNat; let b := blockLen s; let m := msgCap s
     2 ≤ m ∧ (x / (m - 1) + 1) * b ≤ lenMax ∧ (x + b - 1) / b * b ≤ lenMax ∧ x / b * (m - 1) ≤ lenMax) ∧
    (let s := { sample with arg0 := 0xFFFFFFFF }
     let x := s.arg0.toNat; let b := blockLen s; let m := msgCap s
     2 ≤ m ∧ lenMax < (x / (m - 1) + 1) * b ∧ lenMax < (x + b - 1) / b * b ∧ lenMax < x / b * (m - 1)) := by decide

theorem witness_CapacityArithmeticLaws : 1 ≤ 2 ∧ 2 ≤ 6 ∧ 5 ≤ 6 ∧ 0 < 1 ∧ 2 ≤ 2 := by decide

/-- Too many blocks, exactly none left after the prefix, and one left. -/
theorem witness_CapacityOfTheImage :
    lenMax < 65536 * 65536 ∧ (4 * 1 ≤ lenMax ∧ ((4 : Nat) : Int) - 4 ≤ 0) ∧ (5 * 1 ≤ lenMax ∧ 0 < ((5 : Nat) : Int) - 4) := by
  decide

theorem witness_LenwrWritesThePrefix :
    let s := { sample with hb := 1, coef := List.replicate 4 oldBlock }
    s.slotsReady ∧ 4 ≤ blockProduct s ∧ 4 ≤ s.coef.length := ⟨⟨by decide, by decide⟩, by decide, by decide⟩

/-- The old blocks carry the length 0x55555555, blocks of 3 carry 0xFFFFFFFF. -/
theorem witness_LenrdReadsThePrefix :
    let s := { sample with hb := 1, coef := List.replicate 4 oldBlock }
    let u := { s with coef := List.replicate 4 (Vector.replicate 64 3) }
    let v := fun s => (carried s 0).toNat + 256 * (carried s 1).toNat + 256 ^ 2 * (carried s 2).toNat +
      256 ^ 3 * (carried s 3).toNat
    (s.slotsReady ∧ 4 ≤ blockProduct s ∧ 4 ≤ s.coef.length ∧ v s ≤ lenMax) ∧
    (u.slotsReady ∧ 4 ≤ blockProduct u ∧ 4 ≤ u.coef.length ∧ lenMax < v u) :=
  ⟨⟨⟨by decide, by decide⟩, by decide, by decide, by decide⟩,
    ⟨⟨by decide, by decide⟩, by decide, by decide, by decide⟩⟩

theorem witness_LenrdInvertsLenwr :
    let s := { sample with arg0 := 0x7FFFFFFF }
    s.slotsReady ∧ s.distinctSlots ∧ 4 ≤ blockProduct s ∧ 4 ≤ s.coef.length ∧ s.arg0.toNat ≤ lenMax :=
  ⟨⟨by decide, by decide⟩, by show List.Nodup _; decide, by decide, by decide, by decide⟩

/-- `sample` with ECC and `n` blocks. -/
def protectedBy (framing : Framing) (n : Nat) : State :=
  { sample with
    eccMethod := .reedSolomon, framing := framing, wb := BitVec.ofNat 32 n, hb := 1
    coef := List.replicate n oldBlock, maxlen := 64 }

/-- Without ECC; with ECC and exactly enough blocks; with ECC and one block too few. -/
theorem witness_EmbedWritesPrefixThenRawBytes :
    (sample.slotsReady ∧ sample.geometryFits ∧ sample.encodable ∧ Memory.wf sample.ebuf = true) ∧
    ∀ n, n = 24 ∨ n = 23 →
      let s := protectedBy .lengthCarrying n
      s.slotsReady ∧ s.geometryFits ∧ s.encodable ∧ Memory.wf s.ebuf = true ∧ (rawBytes s).length = 20 ∧
      min (prefixBlocks s) (blockProduct s) = 4 ∧ blockProduct s = n := by
  refine ⟨⟨⟨by decide, by decide⟩, by show _ ≤ _; decide, fun h => EccMethod.noConfusion h, rfl⟩, fun n hn => ?_⟩
  rcases hn with rfl | rfl <;>
    exact ⟨⟨by decide, by decide⟩, by show _ ≤ _; decide, fun _ => rfl, rfl, rfl, rfl, rfl⟩

/-- Four blocks, and three; without ECC and with it. -/
theorem witness_EmbedOfNothingFails : ∀ n, n = 4 ∨ n = 3 →
    (let s := { sample with wb := BitVec.ofNat 32 n, hb := 1, len := 1 }
     s.slotsReady ∧ s.geometryFits ∧ s.encodable ∧ 0 < (rawBytes s).length ∧
     blockProduct s = min (prefixBlocks s) (blockProduct s)) ∧
    (let s := protectedBy .lengthCarrying n
     s.slotsReady ∧ s.geometryFits ∧ s.encodable ∧ Memory.wf s.ebuf = true ∧ (rawBytes s).length = 20 ∧
     blockProduct s = min (prefixBlocks s) (blockProduct s)) := by
  intro n hn
  rcases hn with rfl | rfl <;>
    exact ⟨⟨⟨by decide, by decide⟩, by show _ ≤ _; decide, fun h => EccMethod.noConfusion h, by decide, by decide⟩,
      ⟨by decide, by decide⟩, by show _ ≤ _; decide, fun _ => rfl, rfl, rfl, by decide⟩

/-- The bytes fit exactly; one too many; none left after the prefix. -/
theorem witness_ExtractDeliversTheCarriedBytes :
    let a := { sample with embedLength := false, arg0 := 5, maxlen := 5 }
    let b := { sample with embedLength := false, arg0 := 5, maxlen := 4 }
    let c := { sample with hb := 1 }
    ∀ s ∈ [a, b, c], s.slotsReady ∧ s.geometryFits ∧ s.eccMethod = .none ∧ Memory.wf s.pbuf = true ∧
      prefixBlocks s ≤ blockProduct s := by
  intro a b c s hs
  simp only [List.mem_cons, List.not_mem_nil, or_false] at hs
  rcases hs with rfl | rfl | rfl <;>
    exact ⟨⟨by decide, by decide⟩, by show _ ≤ _; decide, rfl, rfl, by decide⟩

/-- An image of 20 blocks that carry one encoded block, read without a prefix. -/
def carrying (c : Byte) (maxlen : Word) (framing : Framing) : State :=
  { sample with
    eccMethod := .reedSolomon, framing := framing, embedLength := false, wb := 20, hb := 1, maxlen := maxlen
    coef := (rsEnc 20 4 (region c)).map fun v => packBlock (slots sample) v oldBlock }

theorem carrying_carried (c : Byte) (maxlen : Word) (framing : Framing) :
    (List.range 20).map (fun j => carried (carrying c maxlen framing) (0 + j)) = rsEnc 20 4 (region c) := by
  have hs : slots (carrying c maxlen framing) = slots sample := rfl
  have hd : (slots sample).toList.Nodup := by decide
  have hl : (rsEnc 20 4 (region c)).length = 20 := rsEnc_length ..
  apply List.ext_getElem
  · simp [hl]
  · intro i h1 h2
    have h3 : (carrying c maxlen framing).coef[i]? =
        some (packBlock (slots sample) (rsEnc 20 4 (region c))[i] oldBlock) := by
      simp [carrying, h2]
    simp [carried, h3, hs, unpackBlock_packBlock hd]

/-- A length byte of 16; one data byte with and without room for it; and the other framing. -/
theorem witness_ExtractDecodesTheCarriedBytes : ∀ (c : Byte) (maxlen : Word) (framing : Framing),
    let s := carrying c maxlen framing
    let raw := (List.range 20).map (fun j => carried s (prefixBlocks s + j)) ++ zeros (20 - 20)
    (s.slotsReady ∧ s.geometryFits ∧ s.eccMethod = .reedSolomon ∧ Memory.wf s.pbuf = true ∧
      Memory.wf s.ebuf = true ∧ 1 ≤ blockLen s ∧ 2 ≤ msgCap s ∧ prefixBlocks s ≤ blockProduct s ∧
      (s.arg0.toNat / (msgCap s - 1) + 1) * blockLen s = 20 ∧ blockProduct s - prefixBlocks s = 20 ∧
      eccBlockCeiling (blockLen s) 20 = 20 ∧ 20 ≤ lenMax ∧ 20 ≤ s.params.ebufSize.val) ∧
    (c = 16 → lcDecode (decoder s) (msgCap s) (eccBlocks (blockLen s) raw) = none) ∧
    (c = 1 → lcDecode (decoder s) (msgCap s) (eccBlocks (blockLen s) raw) = some [5]) := by
  intro c maxlen framing s raw
  have hl : (rsEnc 20 4 (region c)).length = 20 := rsEnc_length ..
  have hraw : raw = rsEnc 20 4 (region c) := (List.append_nil _).trans (carrying_carried c maxlen framing)
  have hblocks : eccBlocks 20 raw = [raw] := by
    rw [hraw]
    simp only [eccBlocks, hl, slice, Nat.div_self (by omega : 0 < 20), List.range_one, List.map_cons, List.map_nil,
      Nat.zero_mul, List.drop_zero]
    rw [List.take_of_length_le (by omega)]
  have hmap : (eccBlocks 20 raw).map (rsDec 20 4) = [region c] := by
    rw [hblocks, hraw, List.map_cons, List.map_nil, rsDec_rsEnc (by decide) (by simp [region, zeros])]
  have hdec := lcDecode_one hmap
  refine ⟨⟨⟨by show 4 ≤ 4; decide, by show 20 * 1 ≤ 2 ^ 31 - 1; decide⟩, ?_, rfl, rfl, rfl, by show 1 ≤ 20; decide,
    by show 2 ≤ 16; decide, Nat.zero_le _,
    by show (0 / (16 - 1) + 1) * 20 = 20; decide, rfl, by show eccBlockCeiling 20 20 = 20; decide, by decide, by show 20 ≤ 140; decide⟩,
    fun h => ?_, fun h => ?_⟩
  · show 20 * 1 ≤ List.length _
    simp [s, carrying, hl]
  · exact hdec.trans (by rw [h]; rfl)
  · exact hdec.trans (by rw [h]; rfl)

/-- `M = 1`; an encoding past `LEN_MAX`; one past `EBUF`. -/
theorem witness_EmbedEncodeErrorsInOrder :
    let a := { protectedBy .lengthCarrying 24 with eccBlockLength := 5 }
    let b := { protectedBy .lengthCarrying 24 with len := 0x80000000 }
    let c := { protectedBy .lengthOmitting 24 with len := 60, params := { instance4 with ebufSize := 79 } }
    (a.slotsReady ∧ a.eccMethod = .reedSolomon ∧ a.framing = .lengthCarrying ∧ msgCap a < 2) ∧
    (b.slotsReady ∧ b.eccMethod = .reedSolomon ∧ b.framing = .lengthCarrying ∧ 2 ≤ msgCap b ∧
      lenMax < (b.len.toNat / (msgCap b - 1) + 1) * blockLen b) ∧
    (c.slotsReady ∧ c.eccMethod = .reedSolomon ∧ c.framing = .lengthOmitting ∧
      (c.len.toNat + msgCap c - 1) / msgCap c * blockLen c ≤ lenMax ∧
      c.params.ebufSize.val < (c.len.toNat + msgCap c - 1) / msgCap c * blockLen c) :=
  ⟨⟨⟨by decide, by decide⟩, rfl, rfl, by decide⟩, ⟨⟨by decide, by decide⟩, rfl, rfl, by decide, by decide⟩,
    ⟨⟨by decide, by decide⟩, rfl, rfl, by decide, by decide⟩⟩

/-- One state for each of the six errors. -/
theorem witness_ExtractErrorsInOrder :
    let p := protectedBy .lengthCarrying 24
    let a := { p with eccBlockLength := 5 }
    let b := { sample with wb := 3, hb := 1 }
    let c := { p with embedLength := false, arg0 := 0x80000000 }
    let d := { p with embedLength := false, arg0 := 19, params := { instance4 with ebufSize := 39 } }
    let e := { p with
      coef := List.replicate 4 (Vector.replicate 64 3), wb := 0x7FFFFFFF, maxlen := 0xFFFFFFFF, eccBlockLength := 255 }
    let f := { p with params := { instance4 with ebufSize := 19 } }
    let rounded := fun (s : State) (n : Nat) => (n + blockLen s - 1) / blockLen s * blockLen s
    let fromPrefix := fun s => min (min (carriedLength s) s.maxlen.toNat) (blockProduct s - 4)
    (a.slotsReady ∧ a.eccMethod = .reedSolomon ∧ a.framing = .lengthCarrying ∧ msgCap a < 2) ∧
    (b.slotsReady ∧ b.eccMethod ≠ .reedSolomon ∧ b.embedLength = true ∧ blockProduct b < 4) ∧
    (c.slotsReady ∧ c.eccMethod = .reedSolomon ∧ c.embedLength = false ∧ 2 ≤ msgCap c ∧
      lenMax < (c.arg0.toNat / (msgCap c - 1) + 1) * blockLen c) ∧
    (d.slotsReady ∧ d.eccMethod = .reedSolomon ∧ d.embedLength = false ∧ 2 ≤ msgCap d ∧
      (d.arg0.toNat / (msgCap d - 1) + 1) * blockLen d ≤ lenMax ∧
      d.params.ebufSize.val < rounded d (min ((d.arg0.toNat / (msgCap d - 1) + 1) * blockLen d) (blockProduct d))) ∧
    (e.slotsReady ∧ e.eccMethod = .reedSolomon ∧ e.embedLength = true ∧ 2 ≤ msgCap e ∧ 4 ≤ blockProduct e ∧
      4 ≤ e.coef.length ∧ 1 ≤ blockLen e ∧ lenMax < rounded e (fromPrefix e)) ∧
    (f.slotsReady ∧ f.eccMethod = .reedSolomon ∧ f.embedLength = true ∧ 2 ≤ msgCap f ∧ 4 ≤ blockProduct f ∧
      4 ≤ f.coef.length ∧ 1 ≤ blockLen f ∧ rounded f (fromPrefix f) ≤ lenMax ∧
      f.params.ebufSize.val < rounded f (fromPrefix f)) :=
  ⟨⟨⟨by decide, by decide⟩, rfl, rfl, by decide⟩, ⟨⟨by decide, by decide⟩, by decide, rfl, by decide⟩,
    ⟨⟨by decide, by decide⟩, rfl, rfl, by decide, by decide⟩,
    ⟨⟨by decide, by decide⟩, rfl, rfl, by decide, by decide, by decide⟩,
    ⟨⟨by decide, by decide⟩, rfl, rfl, by decide, by decide, by decide, by decide, by decide⟩,
    ⟨⟨by decide, by decide⟩, rfl, rfl, by decide, by decide, by decide, by decide, by decide, by decide⟩⟩

/-- The image after `EMBED` is still in range. -/
theorem embedded_in_range {s t : State} (h : exec .embed s = .next t)
    (hs : ∀ blk ∈ s.coef, coefInRange 16 blk) : ∀ blk ∈ t.coef, coefInRange 16 blk := by
  obtain ⟨u, fr, en⟩ := exec_next (by decide) h
  have hu : t.coef = u.coef := by rcases en with ⟨c, rfl⟩ | ⟨v, rfl⟩ <;> rfl
  rw [hu]
  exact fr.kept.inRange (by decide) hs

/-- `sample` with `n` blocks. -/
def sized (n : Nat) : State :=
  { sample with wb := BitVec.ofNat 32 n, hb := 1, coef := List.replicate n oldBlock }

/-- A session that reads what another embedded, with a `MAXLEN` of its own. -/
def reader (s : State) (maxlen : Word) : State :=
  { s with coef := (stateOf (exec .embed s)).coef, maxlen := maxlen, pbuf := [] }

theorem sized_legal (n : Nat) : (sized n).Legal :=
  legal_of rfl rfl rfl rfl rfl rfl rfl (by show 3 ≤ 64; decide) (by show 16 ≤ 64; decide) (by show 0 ≤ 140; decide)
    rfl rfl rfl (show ∀ c ∈ sample.pbuf, c.1 < 64 by decide) rfl (show ∀ c ∈ sample.ebuf, c.1 < 140 by decide)
    (old_in_range n) rfl rfl rfl rfl rfl rfl rfl

theorem protectedBy_legal (framing : Framing) (n : Nat) : (protectedBy framing n).Legal :=
  legal_of rfl rfl rfl rfl rfl rfl rfl (by show 3 ≤ 64; decide) (by show 64 ≤ 64; decide) (by show 0 ≤ 140; decide)
    rfl rfl rfl (show ∀ c ∈ sample.pbuf, c.1 < 64 by decide) rfl (show ∀ c ∈ sample.ebuf, c.1 < 140 by decide)
    (old_in_range n) rfl rfl rfl rfl rfl rfl rfl

/-- Exactly enough blocks, and a `MAXLEN` that fits exactly. -/
theorem witness_ExtractInvertsEmbedWithoutEcc :
    let s := sized 7
    (s.Legal ∧ s.slotsReady ∧ s.geometryFits ∧ s.distinctSlots ∧ s.eccMethod = .none ∧ s.embedLength = true ∧
      s.len.toNat + 4 ≤ blockProduct s) ∧
    ∃ t, exec .embed s = .next t ∧ ∃ v : State, v.Legal ∧ t.sameChannel v ∧ s.len.toNat ≤ v.maxlen.toNat :=
  ⟨⟨sized_legal 7, ⟨by decide, by decide⟩, by show _ ≤ _; decide, by show List.Nodup _; decide, rfl, rfl, by decide⟩,
    stateOf (exec .embed (sized 7)), rfl, reader (sized 7) 3,
    legal_of rfl rfl rfl rfl rfl rfl rfl (by decide) (by decide) (by decide) rfl rfl rfl (fun _ h => nomatch h) rfl
      (fun _ h => nomatch h) (embedded_in_range (s := sized 7) (t := stateOf (exec .embed (sized 7))) rfl (old_in_range 7)) rfl rfl rfl rfl rfl rfl rfl,
    ⟨⟨rfl, rfl, rfl, rfl, rfl, rfl, rfl, rfl, rfl⟩, rfl⟩, by decide⟩

/-- What `EMBED` leaves of a protected payload. -/
def embedded : State := stateOf (exec .embed (protectedBy .lengthCarrying 24))

/-- A reading session on an image whose block 4 may have been packed anew. -/
def damaged (change : CoefBlock → CoefBlock) : State :=
  { reader (protectedBy .lengthCarrying 24) 20 with coef := embedded.coef.modify 4 change }

theorem embedded_legal_blocks : ∀ blk ∈ embedded.coef, coefInRange 16 blk :=
  embedded_in_range (s := protectedBy .lengthCarrying 24) rfl (old_in_range 24)

theorem embedded_length : embedded.coef.length = 24 := by
  obtain ⟨u, fr, en⟩ := exec_next (i := .embed) (s := protectedBy .lengthCarrying 24) (t := embedded) (by decide) rfl
  have hu : embedded.coef = u.coef := by rcases en with ⟨c, h⟩ | ⟨v, h⟩ <;> rw [h] <;> rfl
  rw [hu]
  exact fr.kept.length.trans (by decide)

theorem damaged_carried (change : CoefBlock → CoefBlock) {n : Nat} (h : n ≠ 4) :
    carried (damaged change) n = carried embedded n := by
  have hs : slots (damaged change) = slots embedded := rfl
  have hc : (damaged change).coef[n]? = embedded.coef[n]? := by
    simp [damaged, Ne.symm h]
  simp only [carried, hs, hc]

theorem damaged_legal (v : Byte) (change : CoefBlock → CoefBlock)
    (h : change = id ∨ change = packBlock (slots sample) v) : (damaged change).Legal :=
  legal_of rfl rfl rfl rfl rfl rfl rfl (by show 3 ≤ 64; decide) (by show 20 ≤ 64; decide) (by show 0 ≤ 140; decide)
    rfl rfl rfl (fun _ h => nomatch h) rfl (fun _ h => nomatch h)
    (fun blk hb => by
      obtain ⟨n, hn⟩ := List.getElem?_of_mem hb
      have hn : (embedded.coef.modify 4 change)[n]? = some blk := hn
      rw [List.getElem?_modify] at hn
      obtain ⟨old, ho, rfl⟩ := Option.map_eq_some_iff.1 hn
      have hr := embedded_legal_blocks old (List.mem_of_getElem? ho)
      split
      · rcases h with rfl | rfl
        · exact hr
        · intro p
          rcases packBlock_values (slots sample) v old p with ⟨h1, h2⟩ | h1
          · have : (2 : Int) ^ 2 ≤ 2 ^ (16 - 1) := by decide
            omega
          · rw [h1]; exact hr p
      · exact hr)
    rfl rfl rfl rfl rfl rfl rfl

/-- Exactly enough blocks, and a `MAXLEN` that fits the encoded bytes exactly; the image as it was, and with one
block that carries another byte. -/
theorem witness_ExtractInvertsEmbedWithEcc :
    let s := protectedBy .lengthCarrying 24
    (s.Legal ∧ s.slotsReady ∧ s.geometryFits ∧ s.distinctSlots ∧ s.eccMethod = .reedSolomon ∧
      s.framing = .lengthCarrying ∧ s.embedLength = true ∧ 2 ≤ msgCap s ∧
      s.len.toNat / (msgCap s - 1) + 1 = 1 ∧ 4 + 1 * blockLen s ≤ blockProduct s ∧
      1 * blockLen s ≤ s.params.ebufSize.val) ∧
    exec .embed s = .next embedded ∧
    ∀ change, change = id ∨ change = packBlock (slots sample) (carried embedded 4 + 1) →
      (damaged change).Legal ∧ embedded.sameSettings (damaged change) ∧ (damaged change).geometryFits ∧
      (∀ n < 4, carried (damaged change) n = carried embedded n) ∧
      (∀ i < 1, changedCount (blockLen s) (fun j => carried (damaged change) (4 + i * blockLen s + j))
        (fun j => carried embedded (4 + i * blockLen s + j)) ≤ s.params.npar.val / 2) ∧
      1 * blockLen s ≤ (damaged change).maxlen.toNat := by
  refine ⟨⟨protectedBy_legal .lengthCarrying 24, ⟨by decide, by decide⟩, by show _ ≤ _; decide,
    by show List.Nodup _; decide, rfl, rfl, rfl, by decide, by decide, by decide, by decide⟩, rfl, fun change hc => ?_⟩
  refine ⟨damaged_legal _ change hc, ⟨rfl, rfl, rfl, rfl, rfl, rfl, rfl, rfl, rfl⟩, ?_,
    fun n hn => damaged_carried change (by omega), fun i hi => ?_, by show 20 ≤ 20; decide⟩
  · show 24 * 1 ≤ (embedded.coef.modify 4 change).length
    rw [List.length_modify, embedded_length]
  · refine (changedCount_le_one (k := 0) fun j hj => damaged_carried change ?_).trans (by decide)
    omega

/-- One block after the prefix, and a payload of three bytes. -/
theorem witness_TruncatedEmbedExtractsItsLeadingBytes :
    let s := sized 5
    (s.Legal ∧ s.slotsReady ∧ s.geometryFits ∧ s.distinctSlots ∧ s.eccMethod = .none ∧ s.embedLength = true ∧
      4 < blockProduct s ∧ blockProduct s < s.len.toNat + 4) ∧
    ∃ t, exec .embed s = .next t ∧ ∃ v : State, v.Legal ∧ t.sameChannel v ∧
      blockProduct s - 4 ≤ v.maxlen.toNat :=
  ⟨⟨sized_legal 5, ⟨by decide, by decide⟩, by show _ ≤ _; decide, by show List.Nodup _; decide, rfl, rfl, by decide,
      by decide⟩,
    stateOf (exec .embed (sized 5)), rfl, reader (sized 5) 1,
    legal_of rfl rfl rfl rfl rfl rfl rfl (by decide) (by decide) (by decide) rfl rfl rfl (fun _ h => nomatch h) rfl
      (fun _ h => nomatch h) (embedded_in_range (s := sized 5) (t := stateOf (exec .embed (sized 5))) rfl (old_in_range 5)) rfl rfl rfl rfl rfl rfl rfl,
    ⟨⟨rfl, rfl, rfl, rfl, rfl, rfl, rfl, rfl, rfl⟩, rfl⟩, by decide⟩

/-- A run that ends and one that stops. -/
theorem witness_EmbedRunsItsStateMachine : (∃ t, exec .embed sample = .next t) ∧
    exec .embed { sample with coef := [] } = .fault (.noSuchCoefBlock 0) := ⟨⟨_, rfl⟩, rfl⟩

theorem witness_ExtractRunsItsStateMachine : (∃ t, exec .extract sample = .next t) ∧
    exec .extract { sample with coef := [] } = .fault (.noSuchCoefBlock 0) := ⟨⟨_, rfl⟩, rfl⟩

/-- The last address of each space that a clause names, and the first slot that is not valid. -/
theorem witness_HostReadAnswersTheElement :
    (∃ s : State, s.pending = .read .reg RegName.npar.number :: []) ∧
    (∃ s : State, (3 : Slot).val < s.nfreqs.toNat ∧ s.pending = .read .freq (3 : Slot).val :: []) ∧
    (∃ s : State, s.nfreqs.toNat ≤ (4 : Slot).val ∧ s.pending = .read .freq (4 : Slot).val :: []) ∧
    (∃ s : State, s.qt.get 63 = none ∧ s.pending = .read .qt (63 : Slot).val :: []) ∧
    (∃ s : State, s.qt.get 63 = some 64 ∧ s.pending = .read .qt (63 : Slot).val :: []) ∧
    (∃ s : State, 63 < s.params.pbufSize.val ∧ s.pending = .read .pbuf 63 :: []) ∧
    ∃ s : State, 139 < s.params.ebufSize.val ∧ s.pending = .read .ebuf 139 :: [] :=
  ⟨⟨{ sample with pending := [.read .reg 0x3F] }, rfl⟩, ⟨{ sample with pending := [.read .freq 3] }, by decide, rfl⟩,
    ⟨{ sample with pending := [.read .freq 4] }, by decide, rfl⟩, ⟨{ sample with pending := [.read .qt 63] }, rfl, rfl⟩,
    ⟨{ loaded with pending := [.read .qt 63] }, rfl, rfl⟩, ⟨{ sample with pending := [.read .pbuf 63] }, by decide, rfl⟩,
    ⟨{ sample with pending := [.read .ebuf 139] }, by decide, rfl⟩⟩

/-- Each kind of refused access at the first value that is refused. -/
theorem witness_RefusedAccessesOnlyRecordTheirCause :
    (∀ x : Input, ∃ s : State, s.pending = x :: [] ∧ s.params = instance4) ∧
    Refused instance4 (.read .reg 0x0A) 0x11 ∧ Refused instance4 (.write .reg 0x40 1) 0x11 ∧
    Refused instance4 (.read .freq 64) 0x1A ∧ Refused instance4 (.write .qt 64 0) 0x1A ∧
    Refused instance4 (.read .pbuf 64) 0x1A ∧ Refused instance4 (.write .ebuf 140 256) 0x1A ∧
    Refused instance4 (.write .reg 0x3F 4) 0x15 ∧ Refused instance4 (.write .qt 63 0) 0x14 ∧
    Refused instance4 (.write .reg 0x12 4) 0x12 ∧ Refused instance4 (.write .reg 0x12 256) 0x12 ∧
    Refused instance4 (.write .reg 0x00 256) 0x13 ∧ Refused instance4 (.write .reg 0x32 (2 ^ 32)) 0x13 ∧
    Refused instance4 (.write .reg 0x11 2) 0x13 ∧ Refused instance4 (.write .reg 0x14 1) 0x13 ∧
    Refused instance4 (.write .reg 0x15 2) 0x13 ∧ Refused instance4 (.write .reg 0x1C 1) 0x13 ∧
    Refused instance4 (.write .reg 0x19 65) 0x13 ∧ Refused instance4 (.write .reg 0x17 65536) 0x13 ∧
    Refused instance4 (.write .reg 0x20 65) 0x13 ∧ Refused instance4 (.write .reg 0x22 141) 0x13 ∧
    Refused instance4 (.write .reg 0x32 0) 0x13 ∧ Refused instance4 (.write .qt 63 65536) 0x13 ∧
    Refused instance4 (.write .freq 63 64) 0x13 ∧ Refused instance4 (.write .pbuf 63 256) 0x13 ∧
    Refused instance4 (.write .ebuf 139 256) 0x13 :=
  ⟨fun x => ⟨{ sample with pending := [x] }, rfl, rfl⟩,
    .unmapped 0x0A _ rfl .read, .unmapped 0x40 _ rfl (.write 1),
    .freqAddress 64 _ (by decide) .read, .qtAddress 64 _ (by decide) (.write 0),
    .pbufAddress 64 _ (by decide) .read, .ebufAddress 140 _ (by decide) (.write 256),
    .readOnly .npar 4 (by decide), .zeroEntry 63, .blockLength 4 (by decide), .blockLength 256 (by decide),
    .cmd 256 (by decide), .word .vsamp _ (by decide) (by decide), .flag .eccMethod 2 (by decide) (by decide),
    .bitsPerFreq 1 (by decide), .bytesPerMcu 2 (by decide), .comp 1 (by decide),
    .count .nfreqs 65 (by decide) (by decide), .nlevels 65536 (by decide),
    .payloadLength .len 65 (by decide) (by decide), .encodedLength 141 (by decide), .noSampling,
    .wideEntry 63 65536 (by decide), .slotIndex 63 64 (by decide), .payloadByte 63 256 (by decide) (by decide),
    .encodedByte 139 256 (by decide) (by decide)⟩

/-- Each kind of legal value at its bounds. -/
theorem witness_RegisterWriteIsReadBack :
    (∀ (r : RegName) (v : Nat), ∃ s : State, s.params = instance4 ∧ s.pending = .write .reg r.number v :: []) ∧
    LegalWrite instance4 .hb (2 ^ 32 - 1) ∧ LegalWrite instance4 .framing 1 ∧
    LegalWrite instance4 .eccBlockLength 5 ∧ LegalWrite instance4 .eccBlockLength 255 ∧
    LegalWrite instance4 .bitsPerFreq 2 ∧ LegalWrite instance4 .bytesPerMcu 1 ∧ LegalWrite instance4 .comp 0 ∧
    LegalWrite instance4 .nfreqs 64 ∧ LegalWrite instance4 .nlevels 65535 ∧ LegalWrite instance4 .maxlen 64 ∧
    LegalWrite instance4 .elen 140 ∧ LegalWrite instance4 .vsamp 1 ∧ LegalWrite instance4 .vsamp (2 ^ 32 - 1) :=
  ⟨fun r v => ⟨{ sample with pending := [.write .reg r.number v] }, rfl, rfl⟩,
    .word _ _ (by decide) (by decide), .flag _ _ (by decide) (by decide), .blockLength _ (by decide) (by decide),
    .blockLength _ (by decide) (by decide), .bitsPerFreq, .bytesPerMcu, .comp, .count _ _ (by decide) (by decide),
    .nlevels _ (by decide), .payloadLength _ _ (by decide) (by decide), .encodedLength _ (by decide),
    .sampling _ (by decide) (by decide), .sampling _ (by decide) (by decide)⟩

/-- The largest value and the last address of each space. -/
theorem witness_ElementWritesTakeEffect :
    (∃ s : State, 65535 < 2 ^ s.params.qw ∧ s.pending = .write .qt (63 : Slot).val 65535 :: []) ∧
    (∃ s : State, s.pending = .write .freq (63 : Slot).val (63 : Slot).val :: []) ∧
    (∃ s : State, 63 < s.params.pbufSize.val ∧ Memory.wf s.pbuf = true ∧
      s.pending = .write .pbuf 63 (255 : Byte).toNat :: []) ∧
    ∃ s : State, 139 < s.params.ebufSize.val ∧ Memory.wf s.ebuf = true ∧
      s.pending = .write .ebuf 139 (255 : Byte).toNat :: [] :=
  ⟨⟨{ sample with pending := [.write .qt 63 65535] }, by decide, rfl⟩,
    ⟨{ sample with pending := [.write .freq 63 63] }, rfl⟩,
    ⟨{ sample with pending := [.write .pbuf 63 255] }, by decide, rfl, rfl⟩,
    ⟨{ sample with pending := [.write .ebuf 139 255] }, by decide, rfl, rfl⟩⟩

end Sys2Proof.Tests
end

/-! ### The state after reset -/

namespace Sys2Proof.Machine

/-- `POOL_RESET` fits the register (10_state.md R37). -/
theorem powerOn_pool (p : Params) : (State.powerOn p).pool.toNat = p.poolReset.val := by
  have := p.poolReset.isLt
  simp only [State.powerOn, BitVec.toNat_ofNat]
  omega

/-- No table entry is written (10_state.md R55). -/
theorem powerOn_qt (p : Params) (q : Slot) : (State.powerOn p).qt.get q = none := by
  simp [State.powerOn, Vector.get_eq_getElem]

/-- The state after reset is legal, whatever the parameters. -/
theorem powerOn_legal (p : Params) : (State.powerOn p).Legal where
  blockLength := p.npar.isLt
  bitsPerFreq := rfl
  bytesPerMcu := rfl
  comp := rfl
  pool := by rw [powerOn_pool]; exact Nat.le_of_lt_succ p.poolReset.isLt
  nfreqs := Nat.zero_le _
  len := Nat.zero_le _
  maxlen := Nat.zero_le _
  elen := Nat.zero_le _
  vsamp := Nat.le_refl 1
  qt := fun q v h => by simp [powerOn_qt] at h
  pbufForm := rfl
  pbufRange := fun _ h => nomatch h
  ebufForm := rfl
  ebufRange := fun _ h => nomatch h
  coef := fun _ h => nomatch h
  err := Nat.zero_le _
  errinfo := Iff.rfl
  esticky := by simp [State.powerOn]
  result := by simp [State.powerOn]
  phase := .inl rfl
  counters := ⟨Nat.le_refl 0, Nat.zero_le _⟩

/-- Settles O1: each row of the reset table is a field of `State.powerOn`. -/
theorem resetLeavesTheResetTable : Obligations.ResetLeavesTheResetTable :=
  ⟨rfl, fun p => ⟨rfl, rfl, rfl, rfl, rfl, rfl, rfl, rfl, rfl, rfl, rfl, rfl, rfl, rfl, rfl, rfl, powerOn_pool p,
    rfl, rfl, rfl, rfl, rfl, rfl, rfl, rfl, rfl, powerOn_qt p⟩⟩

/-- Settles O2. -/
theorem resetStateIsLegal : Obligations.ResetStateIsLegal := powerOn_legal Config.params

end Sys2Proof.Machine

/-! ### The selection -/

namespace Sys2Proof.Machine

/-- The scan order of the selector is strictly decreasing (40_frequency_selector.md R122). -/
theorem positionsDown_decreasing : positionsDown.Pairwise (· > ·) :=
  List.pairwise_reverse.2 (List.pairwise_lt_finRange 64)

/-- A selection is part of the scan order. -/
theorem selected_sublist (s : State) : (selected s).Sublist positionsDown := by
  rw [selected, select_eq]
  exact (List.take_sublist ..).trans List.filter_sublist

/-- A selection is strictly decreasing. -/
theorem selected_decreasing (s : State) : (selected s).Pairwise (· > ·) :=
  positionsDown_decreasing.sublist (selected_sublist s)

/-- A selection fits `FREQS`. -/
theorem selected_length_le (s : State) : (selected s).length ≤ 64 := by
  simpa [positionsDown] using (selected_sublist s).length_le

/-- Every selected position is admissible. -/
theorem admissible_of_mem_selected {s : State} {p : Slot} (h : p ∈ selected s) :
    s.nlevels.toNat ≤ 255 / qtEntry s p := by
  rw [selected, select_eq] at h
  have hadm := (List.mem_filter.1 (List.mem_of_mem_take h)).2
  simpa [admissible] using hadm

/-- `NFREQS` after storing a selection counts it. -/
theorem storeSelection_nfreqs_toNat (s t : State) :
    (storeSelection (selected s) t).nfreqs.toNat = (selected s).length := by
  have := selected_length_le s
  simp only [storeSelection_nfreqs, BitVec.toNat_ofNat]
  omega

/-- A valid entry of `FREQS` after storing a list is the entry of the list. -/
theorem storeSelection_freqs_get {out : List Slot} {s : State} {j : Fin 64} (h : j.val < out.length) :
    (storeSelection out s).freqs.get j = out[j.val] := by
  simp [storeSelection, Vector.get_eq_getElem, h]

/-- `SELFREQ` with a loaded table. -/
theorem exec_selfreq_of_tableLoaded {s : State} (h : s.tableLoaded) :
    exec .selfreq s = .next (finish (selected s).length (storeSelection (selected s) s)) := by
  have hcheck : qtCheck s = none := by simp [qtCheck, (qtLoaded_iff s).2 h]
  change execSelfreq s = _
  rw [execSelfreq, hcheck, guarded_none]

/-- Settles O22: the selection is a sublist of the strictly decreasing scan order, filtered for admissibility. -/
theorem selectionIsAdmissibleAndDecreasing : Obligations.SelectionIsAdmissibleAndDecreasing := by
  intro s t hloaded h
  rw [exec_selfreq_of_tableLoaded hloaded, Host.Outcome.next.injEq] at h
  subst h
  simp only [finish_nfreqs, finish_freqs, finish_qt, finish_nlevels, storeSelection_nfreqs_toNat]
  constructor
  · intro j hj
    rw [storeSelection_freqs_get hj]
    obtain ⟨q, hq⟩ := Option.isSome_iff_exists.1 (hloaded (selected s)[j.val])
    have hadm := admissible_of_mem_selected (List.getElem_mem hj)
    rw [qtEntry, hq] at hadm
    exact ⟨q, hq, hadm⟩
  · intro j l hjl hl
    have hj : j.val < (selected s).length := by omega
    rw [storeSelection_freqs_get hj, storeSelection_freqs_get hl]
    exact List.pairwise_iff_getElem.1 (selected_decreasing s) _ _ hj hl hjl

end Sys2Proof.Machine

/-! ### The sticky bits and the scan state -/

namespace Sys2Proof.Machine

/-- `ERR` of a class is its number. -/
theorem ErrClass.err_toNat (c : ErrClass) : c.err.toNat = c.code := by cases c <;> rfl

/-- `ERR` of a class is not 0 (60_exceptions.md R281). -/
theorem ErrClass.err_ne_zero (c : ErrClass) : c.err ≠ 0 := by cases c <;> decide

/-- What the end of a command does to `ESTICKY`, told by the `ERR` it leaves (60_exceptions.md R284). -/
theorem Ends.esticky {i : Instr} {u t : State} (h : Ends i u t) :
    t.esticky = if t.err = 0 then u.esticky else u.esticky ||| (1#8 <<< t.err.toNat) := by
  rcases h with ⟨c, rfl⟩ | ⟨v, rfl⟩
  · rw [raise_err, if_neg (ErrClass.err_ne_zero _), ErrClass.err_toNat]
    rfl
  · simp

/-- What a command other than `INIT` does to `ESTICKY`. -/
theorem exec_esticky {i : Instr} {s t : State} (hi : i ≠ .init) (h : exec i s = .next t) :
    t.esticky = if t.err = 0 then s.esticky else s.esticky ||| (1#8 <<< t.err.toNat) := by
  obtain ⟨u, hframe, hends⟩ := exec_next hi h
  have hu : u.esticky = s.esticky := by rw [hframe.same]
  rw [hends.esticky, hu]

/-- Settles O12. -/
theorem stickyBitsAccumulate : Obligations.StickyBitsAccumulate := by
  refine ⟨fun i s t => exec_esticky, fun s t h => ?_⟩
  obtain rfl : finish 0 (initRegisters s) = t := Host.Outcome.next.inj h
  rfl

/-- The end of a command that is no scan leaves the scan registers. -/
theorem Ends.scanState {i : Instr} {u t : State} (h : Ends i u t) (hi : isScan (some i) = false) :
    t.phase = u.phase ∧ t.blk = u.blk ∧ t.k = u.k := by
  rcases h with ⟨c, rfl⟩ | ⟨v, rfl⟩
  · simp [hi]
  · simp

/-- A scan that is in `Done` when it reports, or that reports an error, is in `Done` after it. -/
theorem Ends.phase_done {i : Instr} {u t : State} (h : Ends i u t) (hi : isScan (some i) = true)
    (hu : u.phase = .done) : t.phase = .done := by
  rcases h with ⟨c, rfl⟩ | ⟨v, rfl⟩
  · simp [hi]
  · simpa using hu

/-- A check of a scan either ends it in `Done` or lets it go on. -/
theorem guarded_phase_done {i : Instr} {check : Option Cause} {s t : State}
    {go : Host.Outcome State Fault Refusal} (h : guarded i check s go = .next t) (hi : isScan (some i) = true)
    (hgo : go = .next t → t.phase = .done) : t.phase = .done := by
  rcases guarded_next h with ⟨c, -, rfl⟩ | ⟨-, h⟩
  · simp [hi]
  · exact hgo h

/-- The scan of `EMBED` ends in `Done`. -/
theorem embedScan_phase {n : Nat} {d : List Byte} {s t : State} (h : embedScan n d s = .ok t) : t.phase = .done := by
  simp only [embedScan] at h
  split at h
  · cases h
  · split at h
    · cases h
    · rename_i u _
      obtain rfl : embedResult d.length (setPhase .done u) = t := Except.ok.inj h
      exact (embedResult_ends ..).phase_done rfl rfl

/-- `EMBED` ends in `Done`. -/
theorem execEmbed_phase {s t : State} (h : execEmbed s = .next t) : t.phase = .done := by
  refine guarded_phase_done h rfl fun h => ?_
  unfold embedRaw at h
  split at h
  · exact embedScan_phase ((settle_next _ _).1 h)
  · exact guarded_phase_done h rfl fun h => embedScan_phase ((settle_next _ _).1 h)

/-- The decode of `EXTRACT` ends in `Done`, also where the format is wrong. -/
theorem extractDecode_phase (n2 : Nat) (s : State) : (extractDecode n2 s).phase = .done := by
  simp only [extractDecode]
  split
  · split
    · exact raise_phase ..
    · exact (deliver_ends ..).phase_done rfl rfl
  · exact (deliver_ends ..).phase_done rfl rfl

/-- The end of `EXTRACT` is in `Done`. -/
theorem extractEnd_phase (r : List Byte) (s : State) : (extractEnd r s).phase = .done := by
  unfold extractEnd
  split
  · exact (deliver_ends ..).phase_done rfl rfl
  · exact extractDecode_phase ..

/-- `EXTRACT` ends in `Done` once its target is known. -/
theorem extractScan_phase {n : Nat} {s t : State} (h : extractScan n s = .next t) : t.phase = .done := by
  refine guarded_phase_done h rfl fun h => ?_
  rw [settle_next] at h
  split at h
  · cases h
  · rename_i r u _
    obtain rfl : extractEnd r u = t := Except.ok.inj h
    exact extractEnd_phase r u

/-- `EXTRACT` ends in `Done`. -/
theorem execExtract_phase {s t : State} (h : execExtract s = .next t) : t.phase = .done := by
  refine guarded_phase_done h rfl fun h => guarded_phase_done h rfl fun h => ?_
  unfold extractTarget at h
  split at h
  · refine guarded_phase_done h rfl fun h => ?_
    split at h
    · cases h
    · exact extractScan_phase h
  · exact guarded_phase_done h rfl extractScan_phase

/-- Settles O13. -/
theorem onlyScansAndInitMoveTheScanState : Obligations.OnlyScansAndInitMoveTheScanState := by
  constructor
  · intro i s t hembed hextract hinit h
    obtain ⟨u, hframe, hends⟩ := exec_next hinit h
    obtain ⟨hphase, hblk, hk⟩ := hframe.scan hembed hextract
    rw [← hphase, ← hblk, ← hk]
    exact hends.scanState (by simp [isScan, hembed, hextract])
  · rintro i s t (rfl | rfl) h
    · rw [execEmbed_phase h]; rfl
    · rw [execExtract_phase h]; rfl

end Sys2Proof.Machine

/-! ### The stored-only registers -/

namespace Sys2Proof.Machine

/-- Values for the four registers that only hold what is written to them (10_state.md R39, R42, R43, 20_memory.md
R79). -/
structure StoredOnly where
  seed : Word
  quality : Word
  ethresh : Word
  vsamp : Word

/-- The state with other values in the stored-only registers. -/
def withStored (w : StoredOnly) (s : State) : State :=
  { s with seed := w.seed, quality := w.quality, ethresh := w.ethresh, vsamp := w.vsamp }

/-- An outcome with its next state changed by `g`; a stop stays as it is. -/
def mapNext (g : State → State) : Host.Outcome State Fault Refusal → Host.Outcome State Fault Refusal
  | .next s => .next (g s)
  | .fault f => .fault f
  | .refused r => .refused r

/-! No operation reads a stored-only register: each lemma says that an operation commutes with `withStored w`. -/

section

variable (w : StoredOnly) (s : State)

@[simp] theorem withStored_blk : (withStored w s).blk = s.blk := rfl
@[simp] theorem withStored_embedLength : (withStored w s).embedLength = s.embedLength := rfl
@[simp] theorem withStored_eccMethod : (withStored w s).eccMethod = s.eccMethod := rfl
@[simp] theorem withStored_framing : (withStored w s).framing = s.framing := rfl
@[simp] theorem withStored_arg0 : (withStored w s).arg0 = s.arg0 := rfl
@[simp] theorem withStored_elen : (withStored w s).elen = s.elen := rfl
@[simp] theorem blockLen_withStored : blockLen (withStored w s) = blockLen s := rfl
@[simp] theorem msgCap_withStored : msgCap (withStored w s) = msgCap s := rfl
@[simp] theorem ebufBytes_withStored (n : Nat) : ebufBytes (withStored w s) n = ebufBytes s n := rfl
@[simp] theorem decoder_withStored : decoder (withStored w s) = decoder s := rfl
@[simp] theorem unpackByte_withStored (n : Nat) : unpackByte n (withStored w s) = unpackByte n s := rfl

theorem setPhase_withStored (p : Phase) : setPhase p (withStored w s) = withStored w (setPhase p s) := rfl
theorem scanStart_withStored : scanStart (withStored w s) = withStored w (scanStart s) := rfl

variable {w s}

/-- A guarded command commutes where its body does. -/
theorem guarded_withStored {i : Instr} {check : Option Cause} {go go' : Host.Outcome State Fault Refusal}
    (hgo : go' = mapNext (withStored w) go) :
    guarded i check (withStored w s) go' = mapNext (withStored w) (guarded i check s go) := by
  cases check with
  | none => exact hgo
  | some c => rfl

/-- A choice commutes where its condition is kept and both its branches commute. -/
theorem ite_commutes {α β : Type} (g : α → β) {p p' : Prop} [Decidable p] [Decidable p'] {a b : α} {a' b' : β}
    (hp : p' ↔ p) (ha : a' = g a) (hb : b' = g b) : (if p' then a' else b') = g (if p then a else b) := by
  rw [apply_ite g, ha, hb]
  exact if_congr hp rfl rfl

/-- Settling a computation commutes where the computation does. -/
theorem settle_withStored {r r' : Except Fault State} (h : r' = r.map (withStored w)) :
    settle r' = mapNext (withStored w) (settle r) := by
  subst h
  cases r <;> rfl

theorem finishBounded_withStored {i : Instr} {v : Nat} :
    finishBounded i v (withStored w s) = mapNext (withStored w) (finishBounded i v s) :=
  guarded_withStored rfl

theorem deliver_withStored (i : Instr) (d : List Byte) (s : State) :
    deliver i d (withStored w s) = withStored w (deliver i d s) := by
  by_cases h : d.length ≤ s.maxlen.toNat
  · rw [deliver_fits h, deliver_fits (s := withStored w s) h]; rfl
  · have hcut := Nat.lt_of_not_le h
    rw [deliver_cut hcut, deliver_cut (s := withStored w s) hcut]; rfl

theorem packByte_withStored (v : Byte) (n : Nat) (s : State) :
    packByte v n (withStored w s) = (packByte v n s).map (withStored w) := by
  have hblock : coefBlock n (withStored w s) = coefBlock n s := rfl
  simp only [packByte, hblock]
  cases coefBlock n s <;> rfl

theorem packBytes_withStored (d : List Byte) (n : Nat) (s : State) :
    packBytes d n (withStored w s) = (packBytes d n s).map (withStored w) := by
  induction d generalizing n s with
  | nil => rfl
  | cons v d ih =>
    simp only [packBytes, packByte_withStored]
    cases packByte v n s with
    | error f => rfl
    | ok u => exact ih (n + 1) u

theorem unpackBytes_withStored (count n : Nat) (s : State) :
    unpackBytes count n (withStored w s) = unpackBytes count n s := by
  induction count generalizing n with
  | zero => rfl
  | succ count ih => simp only [unpackBytes, unpackByte_withStored, ih]

/-! #### The scan loops -/

theorem writePrefix_withStored (n : Nat) (d : List Byte) (s : State) :
    writePrefix n d (withStored w s) = (writePrefix n d s).map (withStored w) := by
  induction d generalizing s with
  | nil => rfl
  | cons v d ih =>
    simp only [writePrefix, packByte_withStored, withStored_blk]
    split
    · rfl
    · cases packByte v s.blk.toNat s with
      | error f => rfl
      | ok u => exact ih (nextBlock u)

theorem writePayload_withStored (n : Nat) (d : List Byte) (s : State) :
    writePayload n d (withStored w s) = (writePayload n d s).map (withStored w) := by
  induction d generalizing s with
  | nil => rfl
  | cons v d ih =>
    simp only [writePayload, packByte_withStored, withStored_blk]
    split
    · cases packByte v s.blk.toNat s with
      | error f => rfl
      | ok u => exact ih (nextByte u)
    · rfl

theorem readPrefix_withStored (count : Nat) (s : State) :
    readPrefix count (withStored w s) = (readPrefix count s).map (Prod.map id (withStored w)) := by
  induction count generalizing s with
  | zero => rfl
  | succ count ih =>
    have hnext : nextBlock (withStored w s) = withStored w (nextBlock s) := rfl
    simp only [readPrefix, unpackByte_withStored, withStored_blk, hnext, ih]
    cases unpackByte s.blk.toNat s with
    | error f => rfl
    | ok v => cases readPrefix count (nextBlock s) <;> rfl

theorem readPayload_withStored (count : Nat) (s : State) :
    readPayload count (withStored w s) = (readPayload count s).map (Prod.map id (withStored w)) := by
  induction count generalizing s with
  | zero => rfl
  | succ count ih =>
    have hnext : nextByte (withStored w s) = withStored w (nextByte s) := rfl
    simp only [readPayload, unpackByte_withStored, withStored_blk, hnext, ih]
    cases unpackByte s.blk.toNat s with
    | error f => rfl
    | ok v => cases readPayload count (nextByte s) <;> rfl

/-! #### The selection -/

theorem ensureSelection_withStored (s : State) :
    ensureSelection (withStored w s) = Prod.map (withStored w) id (ensureSelection s) := by
  have hstored : (if selectionResolved (withStored w s) then withStored w s
      else storeSelection (selected (withStored w s)) (withStored w s)) =
      withStored w (if selectionResolved s then s else storeSelection (selected s) s) :=
    ite_commutes (withStored w) Iff.rfl rfl rfl
  refine ite_commutes (Prod.map (withStored w) id) Iff.rfl rfl ?_
  rw [hstored]
  rfl

theorem selectCheck_withStored (s : State) : selectCheck (withStored w s) = selectCheck s := by
  simp only [selectCheck, ensureSelection_withStored, Prod.map_fst, Prod.map_snd, id]
  rfl

/-! #### EMBED -/

theorem embedResult_withStored (t : Nat) (s : State) :
    embedResult t (withStored w s) = withStored w (embedResult t s) := by
  refine ite_commutes (withStored w) Iff.rfl rfl ?_
  simp only [withStored_eccMethod]
  cases s.eccMethod with
  | none => rfl
  | reedSolomon => exact ite_commutes (withStored w) Iff.rfl rfl rfl

theorem embedScan_withStored (n : Nat) (d : List Byte) (s : State) :
    embedScan n d (withStored w s) = (embedScan n d s).map (withStored w) := by
  have hprefix : (if (withStored w s).embedLength then
        writePrefix n (lengthBytes d.length) (setPhase .scanWriteLength (withStored w s))
      else .ok (setPhase .scanWriteLength (withStored w s))) = Except.map (withStored w)
        (if s.embedLength then writePrefix n (lengthBytes d.length) (setPhase .scanWriteLength s)
        else .ok (setPhase .scanWriteLength s)) :=
    ite_commutes (Except.map (withStored w)) Iff.rfl
      (writePrefix_withStored _ _ (setPhase .scanWriteLength s)) rfl
  simp only [embedScan]
  rw [hprefix]
  generalize ite (s.embedLength = true) _ _ = r
  cases r with
  | error f => rfl
  | ok u =>
    simp only [Except.map, setPhase_withStored, writePayload_withStored]
    cases writePayload n d (setPhase .scanWritePayload u) with
    | error f => rfl
    | ok v => exact congrArg Except.ok (embedResult_withStored _ (setPhase .done v))

theorem embedRaw_withStored (s : State) : embedRaw (withStored w s) = mapNext (withStored w) (embedRaw s) := by
  simp only [embedRaw, withStored_eccMethod]
  split
  · exact settle_withStored (embedScan_withStored ..)
  · exact guarded_withStored (s := setPhase .eccEncode s) (settle_withStored (embedScan_withStored _ _
      (storeEbuf (encodedPayload s.framing (setPhase .eccEncode s)) (setPhase .eccEncode s))))

theorem execEmbed_withStored (s : State) : execEmbed (withStored w s) = mapNext (withStored w) (execEmbed s) := by
  simp only [execEmbed, scanStart_withStored, selectCheck_withStored, ensureSelection_withStored, Prod.map_fst]
  exact guarded_withStored (embedRaw_withStored _)

/-! #### EXTRACT -/

theorem extractDecode_withStored (n2 : Nat) (s : State) :
    extractDecode n2 (withStored w s) = withStored w (extractDecode n2 s) := by
  simp only [extractDecode, withStored_framing, decoder_withStored, msgCap_withStored, blockLen_withStored,
    ebufBytes_withStored, setPhase_withStored, deliver_withStored]
  split
  · split <;> rfl
  · rfl

theorem extractEnd_withStored (r : List Byte) (s : State) :
    extractEnd r (withStored w s) = withStored w (extractEnd r s) := by
  simp only [extractEnd, withStored_eccMethod]
  split
  · exact deliver_withStored _ _ (setPhase .done s)
  · exact extractDecode_withStored _ (storeRaw r (setPhase .eccDecode s))

theorem extractScan_withStored (t : Nat) (s : State) :
    extractScan t (withStored w s) = mapNext (withStored w) (extractScan t s) := by
  refine guarded_withStored (settle_withStored ?_)
  have hread : readPayload (readableBytes t (withStored w s)) (setPhase .scanReadPayload (withStored w s)) =
      (readPayload (readableBytes t s) (setPhase .scanReadPayload s)).map (Prod.map id (withStored w)) :=
    readPayload_withStored _ (setPhase .scanReadPayload s)
  rw [hread]
  cases readPayload (readableBytes t s) (setPhase .scanReadPayload s) with
  | error f => rfl
  | ok r => exact congrArg Except.ok (extractEnd_withStored ..)

theorem extractTarget_withStored (s : State) :
    extractTarget (withStored w s) = mapNext (withStored w) (extractTarget s) := by
  simp only [extractTarget, withStored_embedLength, readPrefix_withStored]
  split
  · refine guarded_withStored ?_
    cases readPrefix 4 s with
    | error f => rfl
    | ok r => exact extractScan_withStored ..
  · exact guarded_withStored (extractScan_withStored ..)

theorem execExtract_withStored (s : State) :
    execExtract (withStored w s) = mapNext (withStored w) (execExtract s) := by
  simp only [execExtract, scanStart_withStored, selectCheck_withStored, ensureSelection_withStored, Prod.map_fst]
  exact guarded_withStored (guarded_withStored
    (extractTarget_withStored (setPhase .determineTargetLength (ensureSelection (scanStart s)).1)))

/-! #### The other commands -/

theorem execQual_withStored (s : State) : execQual (withStored w s) = mapNext (withStored w) (execQual s) := by
  unfold execQual
  by_cases h : s.arg0.toNat < 64
  · rw [dif_pos h, dif_pos (show (withStored w s).arg0.toNat < 64 from h)]
    exact guarded_withStored rfl
  · rw [dif_neg h, dif_neg (show ¬ (withStored w s).arg0.toNat < 64 from h)]
    rfl

theorem execFdec_withStored (s : State) : execFdec (withStored w s) = mapNext (withStored w) (execFdec s) := by
  refine guarded_withStored (congrArg Host.Outcome.next ?_)
  simp only [decoder_withStored, msgCap_withStored, blockLen_withStored, ebufBytes_withStored, withStored_elen,
    deliver_withStored]
  split
  · rfl
  · split <;> rfl

theorem execFdecnl_withStored (s : State) : execFdecnl (withStored w s) = mapNext (withStored w) (execFdecnl s) := by
  refine guarded_withStored (congrArg Host.Outcome.next ?_)
  simp only [decoder_withStored, blockLen_withStored, ebufBytes_withStored, withStored_elen, withStored_arg0,
    deliver_withStored]
  split <;> rfl

theorem execPack_withStored (s : State) : execPack (withStored w s) = mapNext (withStored w) (execPack s) := by
  refine guarded_withStored ?_
  have hpack : packByte (byteOperand (withStored w s)) (withStored w s).arg1.toNat (withStored w s) =
      (packByte (byteOperand s) s.arg1.toNat s).map (withStored w) := packByte_withStored ..
  rw [hpack]
  cases packByte (byteOperand s) s.arg1.toNat s <;> rfl

theorem execUnpack_withStored (s : State) : execUnpack (withStored w s) = mapNext (withStored w) (execUnpack s) := by
  refine guarded_withStored ?_
  have hread : unpackByte (withStored w s).arg1.toNat (withStored w s) = unpackByte s.arg1.toNat s := rfl
  rw [hread]
  cases unpackByte s.arg1.toNat s <;> rfl

theorem execLenwr_withStored (s : State) : execLenwr (withStored w s) = mapNext (withStored w) (execLenwr s) := by
  refine guarded_withStored ?_
  simp only [packBytes_withStored, withStored_arg0]
  cases packBytes (lengthBytes s.arg0.toNat) 0 s <;> rfl

theorem execLenrd_withStored (s : State) : execLenrd (withStored w s) = mapNext (withStored w) (execLenrd s) := by
  refine guarded_withStored ?_
  simp only [unpackBytes_withStored]
  cases unpackBytes 4 0 s with
  | error f => rfl
  | ok bytes => exact finishBounded_withStored

/-- No command but `INIT` reads or writes a stored-only register. -/
theorem exec_withStored {i : Instr} (hi : i ≠ .init) (s : State) :
    exec i (withStored w s) = mapNext (withStored w) (exec i s) := by
  cases i with
  | init => exact absurd rfl hi
  | qual => exact execQual_withStored s
  | selfreq | fenc | fencnl => exact guarded_withStored rfl
  | pack => exact execPack_withStored s
  | unpack => exact execUnpack_withStored s
  | fdec => exact execFdec_withStored s
  | fdecnl => exact execFdecnl_withStored s
  | ecclen => exact guarded_withStored finishBounded_withStored
  | eccceil | capecc => exact finishBounded_withStored
  | rawcap => exact guarded_withStored rfl
  | cap => exact guarded_withStored (guarded_withStored rfl)
  | lenwr => exact execLenwr_withStored s
  | lenrd => exact execLenrd_withStored s
  | embed => exact execEmbed_withStored s
  | extract => exact execExtract_withStored s

end

/-- A command but `INIT` that has a next state has it with any values in the stored-only registers. -/
theorem exec_next_withStored (w : StoredOnly) {i : Instr} {s t : State} (hi : i ≠ .init) (h : exec i s = .next t) :
    exec i (withStored w s) = .next (withStored w t) := by
  rw [exec_withStored hi, h]; rfl

/-- A command but `INIT` keeps the stored-only registers. -/
theorem exec_keeps_stored {i : Instr} {s t : State} (hi : i ≠ .init) (h : exec i s = .next t) :
    t.seed = s.seed ∧ t.quality = s.quality ∧ t.ethresh = s.ethresh ∧ t.vsamp = s.vsamp := by
  obtain ⟨u, hframe, hends⟩ := exec_next hi h
  have hu : u.seed = s.seed ∧ u.quality = s.quality ∧ u.ethresh = s.ethresh ∧ u.vsamp = s.vsamp := by
    rw [hframe.same]; exact ⟨rfl, rfl, rfl, rfl⟩
  rcases hends with ⟨c, rfl⟩ | ⟨v, rfl⟩ <;> exact hu

/-- Settles O17: `exec` commutes with a change of the stored-only registers, and keeps those that are not changed;
`INIT` writes `VSAMP` and none of the other three. -/
theorem storedOnlyRegistersHaveNoEffect : Obligations.StoredOnlyRegistersHaveNoEffect := by
  constructor
  · intro i s t a b c h
    by_cases hi : i = .init
    · subst hi
      obtain rfl : finish 0 (initRegisters s) = t := Host.Outcome.next.inj h
      rfl
    · obtain ⟨-, -, -, hvsamp⟩ := exec_keeps_stored hi h
      have ht : withStored ⟨a, b, c, s.vsamp⟩ t = { t with seed := a, quality := b, ethresh := c } := by
        rw [← hvsamp]; rfl
      exact ht ▸ exec_next_withStored ⟨a, b, c, s.vsamp⟩ hi h
  · intro i s t a hi h
    obtain ⟨hseed, hquality, hethresh, -⟩ := exec_keeps_stored hi h
    have ht : withStored ⟨s.seed, s.quality, s.ethresh, a⟩ t = { t with vsamp := a } := by
      rw [← hseed, ← hquality, ← hethresh]; rfl
    exact ht ▸ exec_next_withStored ⟨s.seed, s.quality, s.ethresh, a⟩ hi h

end Sys2Proof.Machine

/-! ### The opcode map -/

namespace Sys2Proof

/-- The byte of a command decodes to it. -/
theorem decodeByte_opcode (i : Instr) : decodeByte (opcode i) = some i := by cases i <;> rfl

/-- A byte that decodes to a command is the command's byte: each row of the map fixes the whole byte. -/
theorem eq_opcode_of_decodeByte {byte : Byte} {i : Instr} (h : decodeByte byte = some i) : byte = opcode i := by
  unfold decodeByte at h
  split at h <;> cases h
  all_goals exact BitVec.eq_of_toNat_eq ‹_›

/-- The opcode map read from byte to command is the map read from command to byte (30_encoding.md R102). -/
theorem decodeByte_eq_some_iff {byte : Byte} {i : Instr} : decodeByte byte = some i ↔ byte = opcode i := by
  refine ⟨eq_opcode_of_decodeByte, ?_⟩
  rintro rfl
  exact decodeByte_opcode i

/-- A decode of a byte that is an opcode. -/
theorem decode_cons_of_some {byte : Byte} {i : Instr} (rest : List Byte) (h : decodeByte byte = some i) :
    decode (byte :: rest) = .ok (i, rest) := by
  simp only [decode, h]

/-- A decode of a byte that is no opcode (30_encoding.md R110). -/
theorem decode_cons_of_none {byte : Byte} (rest : List Byte) (h : decodeByte byte = none) :
    decode (byte :: rest) = .error (.illegalOpcode byte) := by
  simp only [decode, h]

/-- What a decode that succeeds says of the bytes. -/
theorem decode_cons_ok_iff {byte : Byte} {tail rest : List Byte} {i : Instr} :
    decode (byte :: tail) = .ok (i, rest) ↔ decodeByte byte = some i ∧ tail = rest := by
  cases h : decodeByte byte with
  | none => simp [decode_cons_of_none tail h]
  | some j => simp [decode_cons_of_some tail h]

end Sys2Proof

namespace Sys2Proof.Machine

/-- Settles O6: a command is the one byte that the opcode map gives it, in both directions. -/
theorem decodeAndEncodeAgree : Obligations.DecodeAndEncodeAgree := by
  intro bytes i rest
  cases bytes with
  | nil => simp [decode, encode]
  | cons byte tail => rw [decode_cons_ok_iff, decodeByte_eq_some_iff, encode, List.singleton_append, List.cons.injEq]

/-- The bytes of a command decode to it, with none left over. -/
theorem decode_encode (i : Instr) : decode (encode i) = .ok (i, []) :=
  (decodeAndEncodeAgree (encode i) i []).2 (List.append_nil _).symm

/-- Settles O7: each word is the encoding of its command. -/
theorem opcodeWordsDecode : Obligations.OpcodeWordsDecode :=
  ⟨decode_encode .init, decode_encode .selfreq, decode_encode .pack, decode_encode .fdecnl, decode_encode .cap,
    decode_encode .lenwr, decode_encode .extract⟩

end Sys2Proof.Machine

/-! ### A write to `CMD` -/

namespace Sys2Proof.Machine

/-- A step takes a write to `CMD` of a value in 0..255 off the queue and runs its command. -/
theorem step_writeCmd {s : State} {rest : List Input} {v : Nat} (h : s.pending = .write .reg 0x00 v :: rest)
    (hv : v ≤ 255) : step s = runCommand exec v { s with pending := rest } := by
  rw [step_takes h, takeInput_writeCmd hv]

/-- The command of a value that is an opcode. -/
theorem runCommand_of_ok {run : Instr → State → Host.Outcome State Fault Refusal} {v : Nat} {i : Instr}
    {rest : List Byte} (s : State) (h : decode [BitVec.ofNat 8 v] = .ok (i, rest)) :
    runCommand run v s = run i (startCommand v s) := by
  simp only [runCommand, h]

/-- The command of a value that is no opcode. -/
theorem runCommand_of_error {run : Instr → State → Host.Outcome State Fault Refusal} {v : Nat} {e : DecodeError}
    (s : State) (h : decode [BitVec.ofNat 8 v] = .error e) :
    runCommand run v s = .next (raise none .illegalOpcode (startCommand v s)) := by
  simp only [runCommand, h]

/-- An illegal opcode is an error of class 1 with code 0x16 and leaves `PHASE`, since no scan runs
(30_encoding.md R110, 60_exceptions.md R284). -/
theorem raise_illegalOpcode (s : State) : raise none .illegalOpcode s = failed 1 0x16 s := rfl

/-- Settles O8. -/
theorem stepRunsTheDecodedCommand : Obligations.StepRunsTheDecodedCommand := by
  intro s rest v i hpending hv hdecode _
  rw [step_writeCmd hpending hv, runCommand_of_ok _ hdecode]
  rfl

/-- Settles O9. -/
theorem illegalOpcodeRaises : Obligations.IllegalOpcodeRaises := by
  intro s rest v hpending hv hnone
  rw [step_writeCmd hpending hv, runCommand_of_error _ (decode_cons_of_none [] hnone), raise_illegalOpcode]
  rfl

end Sys2Proof.Machine

/-! ### What the commands leave unchanged -/

namespace Sys2Proof.Machine

/-- What `INIT` leaves. -/
theorem eq_of_exec_init {s t : State} (h : exec .init s = .next t) : t = finish 0 (initRegisters s) :=
  (Host.Outcome.next.inj h).symm

/-- The end of a command writes `RESULT`, the error registers and `PHASE`. -/
theorem Ends.same {i : Instr} {u t : State} (h : Ends i u t) :
    t = { u with
      result := t.result, err := t.err, errinfo := t.errinfo, esticky := t.esticky, phase := t.phase } := by
  rcases h with ⟨c, rfl⟩ | ⟨v, rfl⟩ <;> rfl

/-- The end of a command writes no store and no count. -/
theorem Ends.stores {i : Instr} {u t : State} (h : Ends i u t) :
    t.coef = u.coef ∧ (t.pbuf = u.pbuf ∧ t.len = u.len) ∧ (t.ebuf = u.ebuf ∧ t.elen = u.elen) ∧
      (t.freqs = u.freqs ∧ t.nfreqs = u.nfreqs) := by
  rw [h.same]
  exact ⟨rfl, ⟨rfl, rfl⟩, ⟨rfl, rfl⟩, rfl, rfl⟩

/-- Settles O14: a command writes what its frame names before it ends, and the end writes the rest. -/
theorem commandsKeepOperandsAndConfiguration : Obligations.CommandsKeepOperandsAndConfiguration := by
  intro i s t hi h
  obtain ⟨u, hframe, hends⟩ := exec_next hi h
  rw [hends.same, hframe.same]

/-- Settles O15: the frame of each command, and for `INIT` the counts that it clears. -/
theorem storesAreWrittenOnlyByTheirCommands : Obligations.StoresAreWrittenOnlyByTheirCommands := by
  intro i s t h
  by_cases hi : i = .init
  · subst hi
    obtain rfl := eq_of_exec_init h
    exact ⟨fun _ => rfl, fun _ => rfl, fun _ => rfl, fun hn => absurd (by decide) hn, fun hn => absurd (by decide) hn,
      fun _ => rfl, fun hn => absurd (by decide) hn⟩
  · obtain ⟨u, hframe, hends⟩ := exec_next hi h
    obtain ⟨hcoef, ⟨hpbuf, hlen⟩, ⟨hebuf, helen⟩, hfreqs, hnfreqs⟩ := hends.stores
    rw [hcoef, hpbuf, hlen, hebuf, helen, hfreqs, hnfreqs]
    have drop {l : List Instr} (hn : i ∉ l ++ [.init]) : i ∉ l := hn ∘ List.mem_append_left _
    exact ⟨hframe.coef, fun hn => (hframe.pbuf hn).1, fun hn => (hframe.ebuf hn).1,
      fun hn => (hframe.pbuf (drop hn)).2, fun hn => (hframe.ebuf (drop hn)).2,
      fun hn => (hframe.freqs hn).1, fun hn => (hframe.freqs (drop hn)).2⟩

/-- A read of the accessor is told by the one coefficient it reads. -/
theorem coefRead_eq (n : Nat) (p : Slot) (s : State) :
    coefRead n p s = ((s.coef[n]?).map (·.get p)).elim (.error (.noSuchCoefBlock n)) .ok := by
  unfold coefRead coefBlock
  cases s.coef[n]? <;> rfl

/-- Every command keeps the store outside the slots that it leaves selected. -/
theorem exec_coefKept {i : Instr} {s t : State} (h : exec i s = .next t) : CoefKept (slots t) s.coef t.coef := by
  by_cases hi : i = .init
  · subst hi
    obtain rfl := eq_of_exec_init h
    exact .refl ..
  · obtain ⟨u, hframe, hends⟩ := exec_next hi h
    rw [hends.same]
    exact hframe.kept

/-- Settles O16. -/
theorem coefficientsOutsideTheSlotsStay : Obligations.CoefficientsOutsideTheSlotsStay := by
  intro i s t h
  have hkept := exec_coefKept h
  refine ⟨hkept.length, fun n p hp => ?_⟩
  rw [coefRead_eq, coefRead_eq, hkept.outside n p hp]

end Sys2Proof.Machine

/-! ### The commands of the selector -/

namespace Sys2Proof.Machine

/-- The check of the table raises where the table is not loaded. -/
theorem qtCheck_of_not_tableLoaded {s : State} (h : ¬ s.tableLoaded) : qtCheck s = some .tableNotLoaded :=
  if_neg (mt (qtLoaded_iff s).1 h)

/-- The check of the table passes where the table is loaded. -/
theorem qtCheck_of_tableLoaded {s : State} (h : s.tableLoaded) : qtCheck s = none := if_pos ((qtLoaded_iff s).2 h)

/-- `QUAL` of a position answers the admissibility test, once the table is loaded. -/
theorem exec_qual_of_position {s : State} {p : Slot} (h : s.arg0.toNat = p.val) :
    exec .qual s = guarded .qual (qtCheck s) s
      (.next (finish (if admissible (qtEntry s p) s.nlevels.toNat then 1 else 0) s)) := by
  have hlt : s.arg0.toNat < 64 := h ▸ p.isLt
  have hp : (⟨s.arg0.toNat, hlt⟩ : Slot) = p := Fin.ext h
  change execQual s = _
  rw [execQual, dif_pos hlt, hp]

/-- Settles O20: the range of the position is tested before the table. -/
theorem qualTestsOnePosition : Obligations.QualTestsOnePosition := by
  refine ⟨fun s p q hp hloaded hq => ?_, fun s hout => ?_, fun s hin hloaded => ?_⟩
  · have hentry : qtEntry s p = q := by rw [qtEntry, hq, Option.getD_some]
    rw [exec_qual_of_position hp, qtCheck_of_tableLoaded hloaded, guarded_none, hentry, finish_eq]
    simp only [admissible, decide_eq_true_eq, ge_iff_le]
  · change execQual s = _
    rw [execQual, dif_neg (by omega), failed_eq _ rfl]
    rfl
  · rw [exec_qual_of_position (p := ⟨s.arg0.toNat, by omega⟩) rfl, qtCheck_of_not_tableLoaded hloaded, guarded_some,
      failed_eq _ rfl]
    rfl

/-- Settles O21: the loop of the selector is a filter cut at `POOL`, and what it keeps is stored from the first entry
of `FREQS` up. -/
theorem selfreqKeepsTheHighestAdmissible : Obligations.SelfreqKeepsTheHighestAdmissible := by
  refine ⟨fun s hloaded => ?_, fun s hloaded => ?_⟩
  · intro out
    have hout : selected s = out := select_eq ..
    rw [exec_selfreq_of_tableLoaded hloaded, hout]
    exact ⟨_, rfl, rfl, fun j => by simp [Vector.get_eq_getElem]⟩
  · change guarded .selfreq (qtCheck s) s _ = _
    rw [qtCheck_of_not_tableLoaded hloaded, guarded_some, failed_eq _ rfl]
    rfl

end Sys2Proof.Machine

/-! ### The selection of a scan -/

namespace Sys2Proof.Machine

/-- A resolved selection is used as it stands. -/
theorem ensureSelection_of_resolved {s : State} (h : s.nfreqs ≠ 0) :
    ensureSelection s = (s, if s.nfreqs.toNat < 4 then some .tooFewFrequencies else none) := by
  rcases ensureSelection_cases s with ⟨h0, -⟩ | ⟨-, hsel⟩ | ⟨h0, -⟩
  · exact absurd h0 h
  · exact hsel
  · exact absurd h0 h

/-- Where no selection is resolved, a loaded table gives one. -/
theorem ensureSelection_of_tableLoaded {s : State} (h : s.nfreqs = 0) (hloaded : s.tableLoaded) :
    ensureSelection s = (storeSelection (selected s) s,
      if (storeSelection (selected s) s).nfreqs.toNat < 4 then some .tooFewFrequencies else none) := by
  rcases ensureSelection_cases s with ⟨-, hq, -⟩ | ⟨h0, -⟩ | ⟨-, -, hsel⟩
  · exact absurd ((qtLoaded_iff s).2 hloaded) (by simp [hq])
  · exact absurd h h0
  · exact hsel

/-- Where no selection is resolved, a table that is not loaded is an error. -/
theorem ensureSelection_of_not_tableLoaded {s : State} (h : s.nfreqs = 0) (hloaded : ¬ s.tableLoaded) :
    ensureSelection s = (s, some .tableNotLoaded) := by
  rcases ensureSelection_cases s with ⟨-, -, hsel⟩ | ⟨h0, -⟩ | ⟨-, hq, -⟩
  · exact hsel
  · exact absurd h h0
  · exact absurd ((qtLoaded_iff s).1 hq) hloaded

/-- A check of `SelectFrequencies` that raises ends the scan, with the selection that the scan made. -/
theorem exec_scan_of_selectCheck_some {i : Instr} {s : State} {c : Cause} (hi : i = .embed ∨ i = .extract)
    (h : selectCheck (scanStart s) = some c) :
    exec i s = .next (scanFailed c.errClass.code c.detail (ensureSelection (scanStart s)).1) := by
  rcases hi with rfl | rfl
  · rw [← scanFailed_eq .embed rfl]
    change execEmbed s = _
    simp only [execEmbed, h, guarded_some]
  · rw [← scanFailed_eq .extract rfl]
    change execExtract s = _
    simp only [execExtract, h, guarded_some]

/-- A scan whose selection raises ends with that error. -/
theorem exec_scan_of_selection_error {i : Instr} {s v : State} {c : Cause} (hi : i = .embed ∨ i = .extract)
    (h : ensureSelection (scanStart s) = (v, some c)) :
    exec i s = .next (scanFailed c.errClass.code c.detail v) := by
  have hcheck : selectCheck (scanStart s) = some c := by rw [selectCheck, h]
  rw [exec_scan_of_selectCheck_some hi hcheck, h]

/-- Settles O25: each error is raised by `ensure_selection`, but for the block count, which is tested after it. -/
theorem scansStopWithoutFourSlots : Obligations.ScansStopWithoutFourSlots := by
  intro i s hi z
  refine ⟨fun h0 hloaded => ?_, fun h0 hfew => ?_, fun u h0 hloaded hu hfew => ?_, fun hfour hbig => ?_⟩
  · exact exec_scan_of_selection_error hi (ensureSelection_of_not_tableLoaded h0 hloaded)
  · have hsel := ensureSelection_of_resolved (s := scanStart s) h0
    exact exec_scan_of_selection_error hi (hsel.trans (congrArg (Prod.mk _) (if_pos hfew)))
  · rw [exec_selfreq_of_tableLoaded hloaded, Host.Outcome.next.injEq] at hu
    subst hu
    have hsel := ensureSelection_of_tableLoaded (s := scanStart s) h0 hloaded
    exact exec_scan_of_selection_error hi (hsel.trans (congrArg (Prod.mk _) (if_pos hfew)))
  · have hsel := ensure_resolved (s := scanStart s) hfour
    have hcheck : selectCheck (scanStart s) = some .overflow := by
      rw [selectCheck, hsel]
      exact if_pos hbig
    rw [exec_scan_of_selectCheck_some hi hcheck, hsel]
    rfl

end Sys2Proof.Machine

/-! ### What a scan does not read -/

namespace Sys2Proof.Machine

/-- Values for what a scan does not read once its slots are selected: the report of the command before it
(60_exceptions.md R285) and the table (40_frequency_selector.md R124). -/
structure Unread where
  result : Word
  err : BitVec 8
  errinfo : BitVec 8
  qt : Vector (Option Nat) 64

/-- The state with other values in what a scan does not read. -/
def withUnread (w : Unread) (s : State) : State :=
  { s with result := w.result, err := w.err, errinfo := w.errinfo, qt := w.qt }

/-- The state with another table. -/
def withTable (q : Vector (Option Nat) 64) (s : State) : State := { s with qt := q }

/-! The end of a scan writes the whole report. So each lemma on a part before the end says that it commutes with
`withUnread w`, and each on a part with the end that only the table of `w` is left. -/

section

variable {w : Unread} {s : State}

@[simp] theorem withUnread_blk : (withUnread w s).blk = s.blk := rfl
@[simp] theorem withUnread_embedLength : (withUnread w s).embedLength = s.embedLength := rfl
@[simp] theorem withUnread_eccMethod : (withUnread w s).eccMethod = s.eccMethod := rfl
@[simp] theorem withUnread_framing : (withUnread w s).framing = s.framing := rfl
@[simp] theorem blockLen_withUnread : blockLen (withUnread w s) = blockLen s := rfl
@[simp] theorem msgCap_withUnread : msgCap (withUnread w s) = msgCap s := rfl
@[simp] theorem ebufBytes_withUnread (n : Nat) : ebufBytes (withUnread w s) n = ebufBytes s n := rfl
@[simp] theorem decoder_withUnread : decoder (withUnread w s) = decoder s := rfl
@[simp] theorem unpackByte_withUnread (n : Nat) : unpackByte n (withUnread w s) = unpackByte n s := rfl

/-- A check that raises writes the whole report. -/
theorem guarded_withUnread {i : Instr} {check : Option Cause} {go go' : Host.Outcome State Fault Refusal}
    (hgo : go' = mapNext (withTable w.qt) go) :
    guarded i check (withUnread w s) go' = mapNext (withTable w.qt) (guarded i check s go) := by
  cases check with
  | none => exact hgo
  | some c => rfl

/-- Settling a computation changed at its end. -/
theorem settle_map (g : State → State) (r : Except Fault State) : settle (r.map g) = mapNext g (settle r) := by
  cases r <;> rfl

/-! #### EMBED -/

theorem embedResult_withUnread (t : Nat) (s : State) :
    embedResult t (withUnread w s) = withTable w.qt (embedResult t s) := by
  refine ite_commutes (withTable w.qt) Iff.rfl rfl ?_
  simp only [withUnread_eccMethod]
  cases s.eccMethod with
  | none => rfl
  | reedSolomon => exact ite_commutes (withTable w.qt) Iff.rfl rfl rfl

/-- The bytes packed and the old store say what the new store is. -/
theorem Packed.unique {sl : Vector Slot 4} {start : Nat} {d : List Byte} {old new new' : List CoefBlock}
    (h : Packed sl start d old new) (h' : Packed sl start d old new') : new = new' :=
  List.ext_getElem? fun j => (h.blocks j).trans (h'.blocks j).symm

/-- The scan of `EMBED`: where it stops, and what it packs where it does not, is told by what it reads. -/
theorem embedScan_withUnread {n : Nat} (d : List Byte) (hb : s.blk = 0) (hk : s.k = 0) (hn : n < 2 ^ 32) :
    embedScan n d (withUnread w s) = (embedScan n d s).map (withTable w.qt) := by
  cases h : embedScan n d s with
  | error f => exact (embedScan_error (s := withUnread w s) hb hn).2 ((embedScan_error hb hn).1 h)
  | ok t =>
    cases h' : embedScan n d (withUnread w s) with
    | error f =>
      have hstop : embedScan n d s = .error f :=
        (embedScan_error hb hn).2 ((embedScan_error (s := withUnread w s) hb hn).1 h')
      rw [hstop] at h
      cases h
    | ok t' =>
      obtain ⟨u, rfl, hu, hpack⟩ := embedScan_ok h hb hk hn
      obtain ⟨u', rfl, hu', hpack'⟩ := embedScan_ok (s := withUnread w s) h' hb hk hn
      have hcoef : u'.coef = u.coef := hpack'.unique hpack
      have hend : u' = withUnread w u := by rw [hu', hcoef, hu]; rfl
      rw [hend]
      exact congrArg Except.ok (embedResult_withUnread ..)

theorem embedRaw_withUnread (hb : s.blk = 0) (hk : s.k = 0) (hn : blockProduct s ≤ lenMax) :
    embedRaw (withUnread w s) = mapNext (withTable w.qt) (embedRaw s) := by
  have hword : blockProduct s < 2 ^ 32 := lt_of_le_of_lt hn (by decide)
  have hscan (d : List Byte) (v : State) (hvb : v.blk = 0) (hvk : v.k = 0) :
      settle (embedScan (blockProduct s) d (withUnread w v)) =
        mapNext (withTable w.qt) (settle (embedScan (blockProduct s) d v)) := by
    rw [embedScan_withUnread d hvb hvk hword, settle_map]
  simp only [embedRaw, withUnread_eccMethod]
  split
  · exact hscan _ s hb hk
  · exact guarded_withUnread (s := setPhase .eccEncode s) (hscan _
      (storeEbuf (encodedPayload s.framing (setPhase .eccEncode s)) (setPhase .eccEncode s)) hb hk)

/-! #### EXTRACT -/

theorem readPrefix_withUnread (count : Nat) (s : State) :
    readPrefix count (withUnread w s) = (readPrefix count s).map (Prod.map id (withUnread w)) := by
  induction count generalizing s with
  | zero => rfl
  | succ count ih =>
    have hnext : nextBlock (withUnread w s) = withUnread w (nextBlock s) := rfl
    simp only [readPrefix, unpackByte_withUnread, withUnread_blk, hnext, ih]
    cases unpackByte s.blk.toNat s with
    | error f => rfl
    | ok v => cases readPrefix count (nextBlock s) <;> rfl

theorem readPayload_withUnread (count : Nat) (s : State) :
    readPayload count (withUnread w s) = (readPayload count s).map (Prod.map id (withUnread w)) := by
  induction count generalizing s with
  | zero => rfl
  | succ count ih =>
    have hnext : nextByte (withUnread w s) = withUnread w (nextByte s) := rfl
    simp only [readPayload, unpackByte_withUnread, withUnread_blk, hnext, ih]
    cases unpackByte s.blk.toNat s with
    | error f => rfl
    | ok v => cases readPayload count (nextByte s) <;> rfl

theorem deliver_withUnread (i : Instr) (d : List Byte) (s : State) :
    deliver i d (withUnread w s) = withTable w.qt (deliver i d s) := by
  by_cases h : d.length ≤ s.maxlen.toNat
  · rw [deliver_fits h, deliver_fits (s := withUnread w s) h]; rfl
  · have hcut := Nat.lt_of_not_le h
    rw [deliver_cut hcut, deliver_cut (s := withUnread w s) hcut]; rfl

theorem extractDecode_withUnread (n2 : Nat) (s : State) :
    extractDecode n2 (withUnread w s) = withTable w.qt (extractDecode n2 s) := by
  have hphase : setPhase .done (withUnread w s) = withUnread w (setPhase .done s) := rfl
  simp only [extractDecode, withUnread_framing, decoder_withUnread, msgCap_withUnread, blockLen_withUnread,
    ebufBytes_withUnread, hphase, deliver_withUnread]
  split
  · split <;> rfl
  · rfl

theorem extractEnd_withUnread (r : List Byte) (s : State) :
    extractEnd r (withUnread w s) = withTable w.qt (extractEnd r s) := by
  simp only [extractEnd, withUnread_eccMethod]
  split
  · exact deliver_withUnread _ _ (setPhase .done s)
  · exact extractDecode_withUnread _ (storeRaw r (setPhase .eccDecode s))

theorem extractScan_withUnread (t : Nat) (s : State) :
    extractScan t (withUnread w s) = mapNext (withTable w.qt) (extractScan t s) := by
  refine guarded_withUnread (Eq.trans (congrArg settle ?_) (settle_map ..))
  have hread : readPayload (readableBytes t (withUnread w s)) (setPhase .scanReadPayload (withUnread w s)) =
      (readPayload (readableBytes t s) (setPhase .scanReadPayload s)).map (Prod.map id (withUnread w)) :=
    readPayload_withUnread _ (setPhase .scanReadPayload s)
  rw [hread]
  cases readPayload (readableBytes t s) (setPhase .scanReadPayload s) with
  | error f => rfl
  | ok r => exact congrArg Except.ok (extractEnd_withUnread ..)

theorem extractTarget_withUnread (s : State) :
    extractTarget (withUnread w s) = mapNext (withTable w.qt) (extractTarget s) := by
  simp only [extractTarget, withUnread_embedLength, readPrefix_withUnread]
  split
  · refine guarded_withUnread ?_
    cases readPrefix 4 s with
    | error f => rfl
    | ok r => exact extractScan_withUnread ..
  · exact guarded_withUnread (extractScan_withUnread ..)

/-! #### The whole scan -/

/-- A resolved selection needs no table, and a selection is told by the table and never by the report. -/
theorem ensureSelection_withUnread (h : s.nfreqs ≠ 0 ∨ w.qt = s.qt) :
    ensureSelection (withUnread w s) = Prod.map (withUnread w) id (ensureSelection s) := by
  by_cases h0 : s.nfreqs = 0
  · obtain ⟨result, err, errinfo, qt⟩ := w
    obtain rfl : qt = s.qt := h.resolve_left (absurd h0)
    by_cases hloaded : s.tableLoaded
    · rw [ensureSelection_of_tableLoaded h0 hloaded,
        ensureSelection_of_tableLoaded (s := withUnread ⟨result, err, errinfo, s.qt⟩ s) h0 hloaded]
      rfl
    · rw [ensureSelection_of_not_tableLoaded h0 hloaded,
        ensureSelection_of_not_tableLoaded (s := withUnread ⟨result, err, errinfo, s.qt⟩ s) h0 hloaded]
      rfl
  · rw [ensureSelection_of_resolved h0, ensureSelection_of_resolved (s := withUnread w s) h0]
    rfl

/-- The selection of a scan leaves its counters and the geometry. -/
theorem ensureSelection_scanStart (s : State) :
    (ensureSelection (scanStart s)).1.blk = 0 ∧ (ensureSelection (scanStart s)).1.k = 0 ∧
      blockProduct (ensureSelection (scanStart s)).1 = blockProduct s := by
  rcases ensureSelection_fst (scanStart s) with h | h <;> rw [h] <;> exact ⟨rfl, rfl, rfl⟩

/-- A scan does not read the report of the command before it, nor the table where a selection is resolved. -/
theorem exec_scan_withUnread {i : Instr} (hi : i = .embed ∨ i = .extract) (h : s.nfreqs ≠ 0 ∨ w.qt = s.qt) :
    exec i (withUnread w s) = mapNext (withTable w.qt) (exec i s) := by
  have hsel : ensureSelection (scanStart (withUnread w s)) =
      Prod.map (withUnread w) id (ensureSelection (scanStart s)) := ensureSelection_withUnread (s := scanStart s) h
  have hcheck : selectCheck (scanStart (withUnread w s)) = selectCheck (scanStart s) := by
    rw [selectCheck, hsel]; rfl
  rcases hi with rfl | rfl
  · change execEmbed _ = mapNext _ (execEmbed s)
    obtain ⟨hb, hk, hprod⟩ := ensureSelection_scanStart s
    simp only [execEmbed, hcheck, hsel, Prod.map_fst]
    cases hc : selectCheck (scanStart s) with
    | some c => rfl
    | none => exact embedRaw_withUnread hb hk (hprod ▸ (selectCheck_none hc).2)
  · change execExtract _ = mapNext _ (execExtract s)
    simp only [execExtract, hcheck, hsel, Prod.map_fst]
    exact guarded_withUnread (guarded_withUnread
      (extractTarget_withUnread (setPhase .determineTargetLength (ensureSelection (scanStart s)).1)))

end

/-- Settles O24. -/
theorem resolvedSelectionNeedsNoTable : Obligations.ResolvedSelectionNeedsNoTable := by
  intro i s t q hi h0 h
  have hscan := exec_scan_withUnread (w := ⟨s.result, s.err, s.errinfo, q⟩) hi (.inl h0)
  rw [h] at hscan
  exact hscan

/-- A scan does not read the report of the command before it. -/
theorem exec_scan_finish {i : Instr} (hi : i = .embed ∨ i = .extract) (v : Nat) (s : State) :
    exec i (finish v s) = exec i s :=
  (exec_scan_withUnread (w := ⟨BitVec.ofNat 32 v, 0, 0, s.qt⟩) hi (.inr rfl)).trans
    (exec_scan_withUnread (w := ⟨s.result, s.err, s.errinfo, s.qt⟩) hi (.inr rfl)).symm

/-- Storing a selection once more changes nothing. -/
theorem storeSelection_idem (out : List Slot) (s : State) :
    storeSelection out (storeSelection out s) = storeSelection out s := by
  have hfreqs : (storeSelection out (storeSelection out s)).freqs = (storeSelection out s).freqs := by
    ext j hj
    simp only [storeSelection_freqs, Vector.getElem_ofFn, Vector.get_eq_getElem]
    cases out[j]? <;> rfl
  rw [storeSelection, ← storeSelection_freqs, hfreqs]
  rfl

/-- A selection that is stored already is selected again, also where it is empty and so counts as not resolved. -/
theorem ensureSelection_storeSelection {s : State} (h0 : s.nfreqs = 0) (hloaded : s.tableLoaded) :
    ensureSelection (storeSelection (selected s) s) = ensureSelection s := by
  rw [ensureSelection_of_tableLoaded h0 hloaded]
  by_cases h : (storeSelection (selected s) s).nfreqs = 0
  · have hsame : storeSelection (selected (storeSelection (selected s) s)) (storeSelection (selected s) s) =
        storeSelection (selected s) s := storeSelection_idem (selected s) s
    rw [ensureSelection_of_tableLoaded h hloaded, hsame]
  · exact ensureSelection_of_resolved h

/-- A scan is told by the state after its selection. -/
theorem exec_scan_congr {i : Instr} {s v : State} (hi : i = .embed ∨ i = .extract)
    (h : ensureSelection (scanStart v) = ensureSelection (scanStart s)) : exec i v = exec i s := by
  rcases hi with rfl | rfl
  · change execEmbed v = execEmbed s
    simp only [execEmbed, selectCheck, h]
  · change execExtract v = execExtract s
    simp only [execExtract, selectCheck, h]

/-- Settles O23: `SELFREQ` leaves the selection that the scan would have made, and a report that the scan does not
read. -/
theorem lazySelectionIsSelfreqFirst : Obligations.LazySelectionIsSelfreqFirst := by
  intro i s u hi h0 hloaded h
  rw [exec_selfreq_of_tableLoaded hloaded, Host.Outcome.next.injEq] at h
  rw [← h, exec_scan_finish hi]
  exact exec_scan_congr hi (ensureSelection_storeSelection (s := scanStart s) h0 hloaded)

end Sys2Proof.Machine

/-! ### The commands of the packer -/

namespace Sys2Proof.Machine

/-! #### The check before the first coefficient -/

/-- `PACK`, `UNPACK`, `LENWR` and `LENRD` run `pack_ready` of their block number before anything else. -/
theorem exec_eq_guarded_packReady {i : Instr} (hi : i ∈ [.pack, .unpack, .lenwr, .lenrd]) (s : State) :
    ∃ go, exec i s = guarded i (packReady (if i = .pack ∨ i = .unpack then s.arg1.toNat else 3) s) s go := by
  simp only [List.mem_cons, List.not_mem_nil, or_false] at hi
  rcases hi with rfl | rfl | rfl | rfl <;> exact ⟨_, rfl⟩

/-- A cause that `pack_ready` gives ends the command. -/
theorem exec_of_packReady_some {i : Instr} {s : State} {c : Cause} (hi : i ∈ [.pack, .unpack, .lenwr, .lenrd])
    (h : packReady (if i = .pack ∨ i = .unpack then s.arg1.toNat else 3) s = some c) :
    exec i s = .next (failed c.errClass.code c.detail s) := by
  obtain ⟨go, hgo⟩ := exec_eq_guarded_packReady hi s
  have hscan : ∀ j ∈ [Instr.pack, .unpack, .lenwr, .lenrd], isScan (some j) = false := by decide
  rw [hgo, h, guarded_some, failed_eq i (hscan i hi)]

/-- Settles O29: the three tests of `pack_ready`, each after the ones before it have passed. -/
theorem packReadyErrorsInOrder : Obligations.PackReadyErrorsInOrder := by
  intro i s hi n
  refine ⟨fun hfew => ?_, fun hfour hbig => ?_, fun hfour hfits hout => ?_⟩
  · have hcheck : packReady n s = some .tooFewFrequencies := if_pos hfew
    exact exec_of_packReady_some hi hcheck
  · have hcheck : packReady n s = some .overflow := by
      rw [packReady, if_neg (by omega), if_pos hbig]
    exact exec_of_packReady_some hi hcheck
  · have hcheck : packReady n s = some .noSuchBlock := by
      rw [packReady, if_neg (by omega), if_neg (by omega), if_pos hout]
    exact exec_of_packReady_some hi hcheck

/-- What the check ensures where it passes. -/
theorem lt_blockProduct_of_packReady_none {n : Nat} {s : State} (h : packReady n s = none) : n < blockProduct s := by
  unfold packReady at h
  split_ifs at h
  omega

/-! #### PACK -/

/-- The byte operand as a number (41_bit_packer.md R142). -/
theorem byteOperand_toNat (s : State) : (byteOperand s).toNat = s.arg0.toNat % 256 := by
  simp [byteOperand]

/-- The block that was stored is read back. -/
theorem coefRead_storeBlock_same {n : Nat} {s : State} (h : n < s.coef.length) (blk : CoefBlock) (p : Slot) :
    coefRead n p (storeBlock n blk s) = .ok (blk.get p) :=
  coefRead_ok.2 ⟨blk, by simp [h], rfl⟩

/-- Every other block is read as before. -/
theorem coefRead_storeBlock_of_ne {n m : Nat} (h : n ≠ m) (blk : CoefBlock) (p : Slot) (s : State) :
    coefRead n p (storeBlock m blk s) = coefRead n p s := by
  simp [coefRead_eq, h.symm]

/-- `PACK` into a block that is there. -/
theorem exec_pack_of_block {s : State} {blk : CoefBlock} (hready : packReady s.arg1.toNat s = none)
    (hblk : s.coef[s.arg1.toNat]? = some blk) :
    exec .pack s =
      .next (finish 1 (storeBlock s.arg1.toNat (packBlock (slots s) (byteOperand s) blk) s)) := by
  change execPack s = _
  rw [execPack, hready, guarded_none, packByte_ok.2 ⟨blk, hblk, rfl⟩]

/-- `PACK` ends without an error only where its check passed and its block is there. -/
theorem exec_pack_of_err_eq_zero {s t : State} (h : exec .pack s = .next t) (herr : t.err = 0) :
    packReady s.arg1.toNat s = none ∧ ∃ blk, s.coef[s.arg1.toNat]? = some blk ∧
      t = finish 1 (storeBlock s.arg1.toNat (packBlock (slots s) (byteOperand s) blk) s) := by
  rcases guarded_next h with ⟨c, -, rfl⟩ | ⟨hready, hgo⟩
  · exact absurd herr c.errClass.err_ne_zero
  · cases hu : packByte (byteOperand s) s.arg1.toNat s with
    | error f => rw [hu] at hgo; cases hgo
    | ok u =>
      rw [hu, Host.Outcome.next.injEq] at hgo
      obtain ⟨blk, hblk, rfl⟩ := packByte_ok.1 hu
      exact ⟨hready, blk, hblk, hgo.symm⟩

/-- Settles O26: one block is replaced, and `packBlock` says what it holds. -/
theorem packStoresTheFourGroups : Obligations.PackStoresTheFourGroups := by
  intro s hready hn hlt v
  have hblk : s.coef[s.arg1.toNat]? = some s.coef[s.arg1.toNat] := List.getElem?_eq_getElem hlt
  refine ⟨_, exec_pack_of_block (packReady_none hready hn) hblk, rfl, List.length_set, fun n p => ?_⟩
  change coefRead n p (storeBlock ..) = _
  by_cases h : n = s.arg1.toNat
  · subst h
    have hold : coefRead s.arg1.toNat p s = .ok (s.coef[s.arg1.toNat].get p) := coefRead_ok.2 ⟨_, hblk, rfl⟩
    have hlast : v / 64 % 4 = v / 64 := by omega
    rw [coefRead_storeBlock_same hlt, packBlock_get, if_neg (not_not.2 rfl), hold]
    simp only [group_val, byteOperand_toNat, apply_ite Except.ok]
    simp [slots, v, hlast]
  · rw [if_pos h, coefRead_storeBlock_of_ne h]

/-! #### UNPACK -/

/-- The byte a block carries, by the floor modulus of its coefficients (41_bit_packer.md R144). -/
theorem unpackBlock_toNat_emod (sl : Vector Slot 4) (blk : CoefBlock) :
    (unpackBlock sl blk).toNat = (blk.get sl[0] % 4 + 4 * (blk.get sl[1] % 4) + 16 * (blk.get sl[2] % 4) +
      64 * (blk.get sl[3] % 4)).toNat := by
  rw [unpackBlock_toNat]
  unfold lo2
  omega

/-- `UNPACK` of a block that is there. -/
theorem exec_unpack_of_block {s : State} {blk : CoefBlock} (hready : packReady s.arg1.toNat s = none)
    (hblk : s.coef[s.arg1.toNat]? = some blk) :
    exec .unpack s = .next (finish (unpackBlock (slots s) blk).toNat s) := by
  change execUnpack s = _
  rw [execUnpack, hready, guarded_none, unpackByte_ok.2 ⟨blk, hblk, rfl⟩]

/-- Settles O27: the four reads are reads of one block. -/
theorem unpackReadsTheFourGroups : Obligations.UnpackReadsTheFourGroups := by
  intro s c0 c1 c2 c3 hready hn h0 h1 h2 h3
  obtain ⟨blk, hblk, rfl⟩ := coefRead_ok.1 h0
  have value {p : Slot} {c : Int} (h : coefRead s.arg1.toNat p s = .ok c) : blk.get p = c :=
    Except.ok.inj ((coefRead_ok.2 ⟨blk, hblk, rfl⟩).symm.trans h)
  rw [← value h1, ← value h2, ← value h3, exec_unpack_of_block (packReady_none hready hn) hblk,
    unpackBlock_toNat_emod, finish_eq]
  rfl

/-- Settles O28: the four coefficients that `UNPACK` reads are those of the packed block, which carries the byte. -/
theorem unpackInvertsPack : Obligations.UnpackInvertsPack := by
  intro s t u hready hdistinct hpack herr harg hnfreqs hfreqs hwb hhb hread
  obtain ⟨hcheck, old, hold, rfl⟩ := exec_pack_of_err_eq_zero hpack herr
  simp only [finish_arg1, finish_nfreqs, finish_freqs, finish_wb, finish_hb, finish_slots, storeBlock_arg1,
    storeBlock_nfreqs, storeBlock_freqs, storeBlock_wb, storeBlock_hb, storeBlock_slots]
    at harg hnfreqs hfreqs hwb hhb hread
  have hslots : slots u = slots s := by rw [slots, hfreqs, slots]
  have hproduct : blockProduct u = blockProduct s := by rw [blockProduct, hwb, hhb, blockProduct]
  have hready' : u.slotsReady := by rwa [State.slotsReady, hnfreqs, hproduct]
  have hn : u.arg1.toNat < blockProduct u := by
    rw [harg, hproduct]; exact lt_blockProduct_of_packReady_none hcheck
  have hlt : s.arg1.toNat < s.coef.length := (List.getElem?_eq_some_iff.1 hold).1
  rw [← hslots] at hread
  rw [State.distinctSlots, ← hslots] at hdistinct
  have packed (j : Fin 4) : coefRead u.arg1.toNat (slots u)[j] u =
      .ok ((packBlock (slots u) (byteOperand s) old).get (slots u)[j]) := by
    rw [harg, hread _ (by simp)]
    exact coefRead_storeBlock_same hlt ..
  rw [← byteOperand_toNat, ← unpackBlock_packBlock hdistinct (byteOperand s) old, unpackBlock_toNat_emod]
  exact unpackReadsTheFourGroups u _ _ _ _ hready' hn (packed 0) (packed 1) (packed 2) (packed 3)

end Sys2Proof.Machine

/-! ### The framing functions over any Reed-Solomon port -/

namespace Sys2Proof.Machine

/-! #### The length-carrying framing -/

/-- Blocks whose decodes are the regions of a message decode to the message. -/
theorem lcDecode_of_slices {dec : List Byte → List Byte} {b m : Nat} {p received : List Byte} (h2 : 2 ≤ m)
    (hm : m ≤ 255) (hb : 0 < b) (hlen : received.length = (p.length / (m - 1) + 1) * b)
    (h : ∀ i < p.length / (m - 1) + 1, dec (slice received (i * b) b) = lcRegion m p i) :
    lcDecode dec m (eccBlocks b received) = some p := by
  have hcount : (eccBlocks b received).length = p.length / (m - 1) + 1 := by simp [eccBlocks, hlen, hb]
  rw [lcDecode_regions h2 hm p 0 _ (by omega) (Nat.zero_le _) fun i hi => ?_]
  · simp
  · simpa [eccBlocks] using h i (hcount ▸ hi)

section

variable {enc : List Byte → List Byte} {b m : Nat} (h2 : 2 ≤ m) (hsize : ∀ r : List Byte, r.length = m → (enc r).length = b)
include h2 hsize

/-- The length of a length-carrying encoding, by a port with the right block sizes on regions alone. -/
theorem lcEncode_length_of_regions (p : List Byte) : (lcEncode enc m p).length = (p.length / (m - 1) + 1) * b := by
  rw [lcEncode_eq]
  exact (flatMap_block _ _ fun i hi => hsize _ (lcRegion_facts h2 p hi).1).1

/-- Block `i` of a length-carrying encoding. -/
theorem slice_lcEncode (p : List Byte) {i : Nat} (hi : i < p.length / (m - 1) + 1) :
    slice (lcEncode enc m p) (i * b) b = enc (lcRegion m p i) := by
  rw [lcEncode_eq]
  exact slice_block (fun i => enc (lcRegion m p i)) _ (fun i hi => hsize _ (lcRegion_facts h2 p hi).1) hi

end

/-- Settles O36: every block of the encoding decodes to its region. -/
theorem lengthCarryingRoundTrip : Obligations.LengthCarryingRoundTrip := by
  intro enc dec b m p h2 hm hb hport
  have hsize r hr := (hport r hr).1
  refine lcDecode_of_slices h2 hm hb (lcEncode_length_of_regions h2 hsize p) fun i hi => ?_
  rw [slice_lcEncode h2 hsize p hi]
  exact (hport _ (lcRegion_facts h2 p hi).1).2

/-- A block ends inside the sequence of whole blocks. -/
theorem block_end_le {i n : Nat} (hi : i < n) (b : Nat) : i * b + b ≤ n * b := by
  rw [← Nat.succ_mul]
  exact Nat.mul_le_mul_right b hi

/-- A block inside a sequence of whole blocks has all its bytes. -/
theorem slice_length_of_block {b n i : Nat} {bytes : List Byte} (hlen : bytes.length = n * b) (hi : i < n) :
    (slice bytes (i * b) b).length = b := by
  have hend := block_end_le hi b
  simp only [slice, List.length_take, List.length_drop]
  omega

/-- Settles O37: every received block is within reach of the encoding of its region. -/
theorem lengthCarryingSurvivesChangedBytes : Obligations.LengthCarryingSurvivesChangedBytes := by
  intro enc dec b m e p received h2 hm hb hsize hcorrects hlen hchanged
  rw [lcEncode_length_of_regions h2 hsize p] at hlen
  refine lcDecode_of_slices h2 hm hb hlen fun i hi => ?_
  have hfew := hchanged i (by rwa [hlen, Nat.mul_div_cancel _ hb])
  rw [slice_lcEncode h2 hsize p hi] at hfew
  exact hcorrects _ _ (lcRegion_facts h2 p hi).1 (slice_length_of_block hlen hi) hfew

/-! #### The length-omitting framing -/

/-- One block more for every `m` bytes. -/
theorem ceilDiv_eq_succ {x m : Nat} (hm : 1 ≤ m) (hx : 0 < x) : ceilDiv x m = ceilDiv (x - m) m + 1 := by
  unfold ceilDiv
  by_cases h : m ≤ x
  · rw [show x + m - 1 = x - m + m - 1 + m by omega, Nat.add_div_right _ (by omega)]
  · rw [show x + m - 1 = x - 1 + m by omega, Nat.add_div_right _ (by omega), Nat.div_eq_of_lt (by omega),
      Nat.div_eq_of_lt (by omega)]

/-- No block for no byte. -/
theorem ceilDiv_zero {m : Nat} (hm : 1 ≤ m) : ceilDiv 0 m = 0 := Nat.div_eq_of_lt (by omega)

/-- As many blocks as the bytes still missing need (42_ecc_framer.md R180). -/
theorem nlDecode_eq {dec : List Byte → List Byte} {m t : Nat} (hm : 1 ≤ m) (blocks : List (List Byte)) (out : List Byte)
    (hsize : ∀ x ∈ blocks, (dec x).length = m) :
    nlDecode dec t blocks out = out ++ (blocks.take (ceilDiv (t - out.length) m)).flatMap dec := by
  induction blocks generalizing out with
  | nil => simp [nlDecode]
  | cons x blocks ih =>
    simp only [List.forall_mem_cons] at hsize
    rw [nlDecode]
    split
    · have hlen : t - (out ++ dec x).length = t - out.length - m := by simp [hsize.1]; omega
      rw [ih _ hsize.2, hlen, ceilDiv_eq_succ (x := t - out.length) hm (by omega)]
      simp
    · rw [Nat.sub_eq_zero_of_le (by omega), ceilDiv_zero hm]
      simp

/-- Every byte of the filler is 0. -/
theorem zeros_getElem? {n k : Nat} (h : k < n) : (zeros n)[k]? = some 0 := List.getElem?_replicate_of_lt h

/-- A byte of a length-omitting region: the payload's, else the filler. -/
theorem nlRegion_getElem? {m : Nat} (p : List Byte) (i : Nat) {j : Nat} (hj : j < m) :
    (nlRegion m p i)[j]? = some (p.getD (i * m + j) 0) := by
  unfold nlRegion
  by_cases h : i * m + j < p.length
  · rw [List.getElem?_append_left (by simp [slice]; omega)]
    simp [slice, hj, h]
  · rw [List.getElem?_append_right (by simp [slice]; omega)]
    rw [zeros_getElem? (by simp [slice]; omega), List.getD_eq_default _ _ (Nat.le_of_not_lt h)]

/-- The regions in a row are the payload and its filler. -/
theorem flatMap_nlRegion {m : Nat} (hm : 1 ≤ m) (p : List Byte) :
    (List.range (ceilDiv p.length m)).flatMap (nlRegion m p) = p ++ zeros (ceilDiv p.length m * m - p.length) := by
  obtain ⟨hlen, hget⟩ := flatMap_block (nlRegion m p) (ceilDiv p.length m) fun i _ => nlRegion_length m p i
  have hle : p.length ≤ ceilDiv p.length m * m := ceil_ge m p.length hm
  refine List.ext_getElem? fun k => ?_
  by_cases hk : k < ceilDiv p.length m * m
  · have hget := hget (k / m) ((Nat.div_lt_iff_lt_mul (by omega)).2 hk) (k % m) (Nat.mod_lt _ (by omega))
    rw [nlRegion_getElem? p _ (Nat.mod_lt _ (by omega)), Nat.div_add_mod'] at hget
    rw [hget]
    by_cases hp : k < p.length
    · rw [List.getElem?_append_left hp]; simp [hp]
    · rw [List.getElem?_append_right (by omega), zeros_getElem? (by omega),
        List.getD_eq_default _ _ (Nat.le_of_not_lt hp)]
  · rw [List.getElem?_eq_none (by omega), List.getElem?_eq_none (by simp [zeros]; omega)]

/-- Settles O38: the decode needs every block, and the blocks decode to the regions. -/
theorem lengthOmittingRoundTrip : Obligations.LengthOmittingRoundTrip := by
  intro enc dec b m p hm hb hport
  have hregion i := hport (nlRegion m p i) (nlRegion_length m p i)
  have hblocks : eccBlocks b (nlEncode enc m p) =
      (List.range (ceilDiv p.length m)).map fun i => enc (nlRegion m p i) := by
    rw [nlEncode_eq, eccBlocks_flatMap hb _ _ fun i _ => (hregion i).1]
  rw [hblocks, nlDecode_eq hm _ _ (by simp [hregion, nlRegion_length]), List.take_of_length_le (by simp),
    List.nil_append, List.flatMap_map]
  simp only [hregion]
  exact flatMap_nlRegion hm p

end Sys2Proof.Machine

/-! ### The framing commands -/

namespace Sys2Proof.Machine

/-! #### The encoders -/

/-- The command that encodes in a framing variant. -/
def encodeCommand : Framing → Instr
  | .lengthCarrying => .fenc
  | .lengthOmitting => .fencnl

/-- What both encoders do (42_ecc_framer.md R170, R178). -/
theorem exec_encodeCommand (v : Framing) (s : State) :
    exec (encodeCommand v) s = guarded (encodeCommand v) (encodeCheck v s) s
      (.next (finish (encodedPayload v s).length (storeEbuf (encodedPayload v s) s))) := by
  cases v <;> rfl

/-- No encoder is a scan. -/
theorem isScan_encodeCommand (v : Framing) : isScan (some (encodeCommand v)) = false := by cases v <;> rfl

/-- `frame_ready` passes with room for a length byte and data. -/
theorem frameReady_of_two_le {s : State} (h : 2 ≤ msgCap s) (v : Framing) : frameReady v s = none := by
  cases v with
  | lengthCarrying => exact if_neg (by omega)
  | lengthOmitting => rfl

/-- `frame_ready` of the length-carrying framing fails without that room. -/
theorem frameReady_of_lt_two {s : State} (h : msgCap s < 2) :
    frameReady .lengthCarrying s = some .messageTooShort := if_pos h

/-- The checks of an encode, once `frame_ready` passes. -/
theorem encodeCheck_of_frameReady {v : Framing} {s : State} (h : frameReady v s = none) :
    encodeCheck v s = fitsEbuf (encodedLength v s) s := by rw [encodeCheck, h]

/-- `fits_ebuf` passes up to `EBUF_SIZE`, which is itself within `LEN_MAX`. -/
theorem fitsEbuf_of_le {n : Nat} {s : State} (h : n ≤ s.params.ebufSize.val) : fitsEbuf n s = none := by
  have hmax := s.params.ebufSize.isLt
  rw [fitsEbuf, if_neg (by simp only [lenMax]; omega), if_neg (by omega)]

/-- `fits_ebuf` above `LEN_MAX`. -/
theorem fitsEbuf_of_overflow {n : Nat} {s : State} (h : lenMax < n) : fitsEbuf n s = some .overflow := if_pos h

/-- `fits_ebuf` above `EBUF_SIZE`. -/
theorem fitsEbuf_of_small {n : Nat} {s : State} (h : n ≤ lenMax) (hsmall : s.params.ebufSize.val < n) :
    fitsEbuf n s = some .ebufTooSmall := by
  rw [fitsEbuf, if_neg (by omega), if_pos hsmall]

/-- An encoder whose check fails. -/
theorem exec_encodeCommand_of_error {v : Framing} {s : State} {c : Cause} (h : encodeCheck v s = some c) :
    exec (encodeCommand v) s = .next (failed c.errClass.code c.detail s) := by
  rw [exec_encodeCommand, h, guarded_some, failed_eq _ (isScan_encodeCommand v)]

/-- An encoder whose check passes. -/
theorem exec_encodeCommand_of_fits {v : Framing} {s : State} (hready : frameReady v s = none)
    (hfits : encodedLength v s ≤ s.params.ebufSize.val) :
    exec (encodeCommand v) s =
      .next (finish (encodedLength v s) (storeEbuf (encodedPayload v s) s)) := by
  rw [exec_encodeCommand, encodeCheck_of_frameReady hready, fitsEbuf_of_le hfits, guarded_none, encodedPayload_length]

/-- Below the encoded length an encoder leaves the encoded bytes in `EBUF`. -/
theorem ebufByte_encoded_of_lt {s : State} (hwf : Memory.wf s.ebuf = true) {v : Framing} {a : Nat}
    (h : a < encodedLength v s) :
    ebufByte (finish (encodedLength v s) (storeEbuf (encodedPayload v s) s)) a = (encodedPayload v s).getD a 0 :=
  (ebufByte_storeEbuf hwf (encodedPayload v s) a).trans (if_pos (by rwa [encodedPayload_length]))

/-- Above the encoded length an encoder leaves `EBUF` as it was. -/
theorem ebufByte_encoded_of_ge {s : State} (hwf : Memory.wf s.ebuf = true) {v : Framing} {a : Nat}
    (h : encodedLength v s ≤ a) :
    ebufByte (finish (encodedLength v s) (storeEbuf (encodedPayload v s) s)) a = ebufByte s a :=
  (ebufByte_storeEbuf hwf (encodedPayload v s) a).trans (if_neg (by rw [encodedPayload_length]; omega))

/-- What an encoder leaves outside `EBUF`. -/
theorem encoded_frame (v : Framing) (s : State) :
    let t := finish (encodedLength v s) (storeEbuf (encodedPayload v s) s)
    t = { succeeded (encodedLength v s) s with ebuf := t.ebuf, elen := BitVec.ofNat 32 (encodedLength v s) } := by
  rw [← encodedPayload_length]
  rfl

/-- A byte of a block stands inside the sequence of whole blocks. -/
theorem block_byte_lt {i n j b : Nat} (hi : i < n) (hj : j < b) : i * b + j < n * b := by
  have hend := block_end_le hi b
  omega

/-- A piece of the payload, byte by byte. -/
theorem slice_pbufBytes (s : State) (l a n : Nat) :
    slice (pbufBytes s l) a n = (List.range (min n (l - a))).map fun j => pbufByte s (a + j) := by
  refine List.ext_getElem (by simp [slice, pbufBytes]) fun j h1 h2 => ?_
  simp [slice, pbufBytes]

/-- The payload bytes in block `i` of the length-carrying framing are there. -/
theorem lc_chunk_le {l c i : Nat} (hi : i < l / c + 1) :
    (if i < l / c + 1 - 1 then c else l - (l / c + 1 - 1) * c) ≤ l - i * c := by
  split
  · have hend := block_end_le (n := l / c) (i := i) (by omega) c
    have hle := Nat.div_mul_le_self l c
    omega
  · rw [show i = l / c + 1 - 1 by omega]

/-- Byte `j` of block `i` of a length-omitting encoding by the port. -/
theorem nlEncode_getD {b npar m : Nat} (p : List Byte) {i j : Nat} (hi : i < ceilDiv p.length m) (hj : j < b) :
    (nlEncode (rsEnc b npar) m p).getD (i * b + j) 0 = (rsEnc b npar (nlRegion m p i)).getD j 0 := by
  rw [nlEncode_eq, List.getD_eq_getElem?_getD, List.getD_eq_getElem?_getD,
    (flatMap_block (b := b) _ _ fun _ _ => rsEnc_length ..).2 i hi j hj]

/-- Settles O30: byte by byte, `EBUF` holds the encoding of the regions. -/
theorem fencFramesThePayload : Obligations.FencFramesThePayload := by
  intro s b m l nb h2 hfits hwf
  refine ⟨_, exec_encodeCommand_of_fits (v := .lengthCarrying) (frameReady_of_two_le h2 _) hfits, encoded_frame ..,
    fun a ha => ebufByte_encoded_of_ge hwf ha, ?_⟩
  intro i hi c region j hj
  have hchunk : slice (pbufBytes s l) (i * (m - 1)) c = (List.range c).map fun j => pbufByte s (i * (m - 1) + j) := by
    rw [slice_pbufBytes, Nat.min_eq_left (lc_chunk_le hi)]
  have hregion : lcRegion m (pbufBytes s l) i = region := by
    simp only [lcRegion, pbufBytes_length]
    exact congrArg (fun x => BitVec.ofNat 8 c :: (x ++ zeros (m - 1 - c))) hchunk
  rw [ebufByte_encoded_of_lt (v := .lengthCarrying) hwf (block_byte_lt hi hj), ← hregion]
  exact lcEncode_getD _ (by rwa [pbufBytes_length]) hj

/-- Settles O31: byte by byte, `EBUF` holds the encoding of the regions. -/
theorem fencnlFramesThePayload : Obligations.FencnlFramesThePayload := by
  intro s b m l nb _ hfits hwf
  refine ⟨_, exec_encodeCommand_of_fits (v := .lengthOmitting) rfl hfits, encoded_frame ..,
    fun a ha => ebufByte_encoded_of_ge hwf ha, ?_⟩
  intro i hi c region j hj
  have hregion : nlRegion m (pbufBytes s l) i = region := by
    rw [nlRegion, slice_pbufBytes, List.length_map, List.length_range]; rfl
  rw [ebufByte_encoded_of_lt (v := .lengthOmitting) hwf (block_byte_lt hi hj), ← hregion]
  exact nlEncode_getD _ (by rwa [pbufBytes_length]) hj

/-! #### The decoders -/

/-- The length byte of a decoded block. -/
def chunkLength (dec : List Byte → List Byte) (x : List Byte) : Nat := ((dec x).headD 0).toNat

/-- The data bytes that a decoded block says it has. -/
def chunkData (dec : List Byte → List Byte) (x : List Byte) : List Byte := slice (dec x) 1 (chunkLength dec x)

/-- The length-carrying decode of one block more (42_ecc_framer.md R172). -/
theorem lcDecode_cons (dec : List Byte → List Byte) (m : Nat) (x : List Byte) (rest : List (List Byte)) :
    lcDecode dec m (x :: rest) =
      if m - 1 < chunkLength dec x then none
      else if chunkLength dec x < m - 1 then some (chunkData dec x)
      else (lcDecode dec m rest).map (chunkData dec x ++ ·) := rfl

section

variable {dec : List Byte → List Byte} {m : Nat} {full rest : List (List Byte)} {last : List Byte}
  (hfull : ∀ x ∈ full, chunkLength dec x = m - 1)
include hfull

/-- Full blocks go before what the rest decodes to. -/
theorem lcDecode_full_append (rest : List (List Byte)) :
    lcDecode dec m (full ++ rest) = (lcDecode dec m rest).map (full.flatMap (chunkData dec) ++ ·) := by
  induction full with
  | nil => simp
  | cons x full ih =>
    simp only [List.forall_mem_cons] at hfull
    rw [List.cons_append, lcDecode_cons, if_neg (by omega), if_neg (by omega), ih hfull.2, Option.map_map]
    simp [Function.comp_def]

/-- Full blocks alone are no error (42_ecc_framer.md R175). -/
theorem lcDecode_full : lcDecode dec m full = some (full.flatMap (chunkData dec)) := by
  simpa [lcDecode] using lcDecode_full_append hfull []

/-- A length byte above `M - 1` is the format error (42_ecc_framer.md R174). -/
theorem lcDecode_of_tooLarge (h : m - 1 < chunkLength dec last) : lcDecode dec m (full ++ last :: rest) = none := by
  rw [lcDecode_full_append hfull, lcDecode_cons, if_pos h, Option.map_none]

/-- A length byte below `M - 1` ends the message (42_ecc_framer.md R172). -/
theorem lcDecode_of_last (h : chunkLength dec last < m - 1) :
    lcDecode dec m (full ++ last :: rest) = some (full.flatMap (chunkData dec) ++ chunkData dec last) := by
  rw [lcDecode_full_append hfull, lcDecode_cons, if_neg (Nat.lt_asymm h), if_pos h, Option.map_some]

end

/-- `FDEC` from a buffer of whole blocks that decodes. -/
theorem exec_fdec_of_decoded {s : State} {d : List Byte} (h2 : 2 ≤ msgCap s) (hwhole : s.elen.toNat % blockLen s = 0)
    (hd : lcDecode (decoder s) (msgCap s) (eccBlocks (blockLen s) (ebufBytes s s.elen.toNat)) = some d) :
    exec .fdec s = .next (deliver .fdec d s) := by
  change execFdec s = _
  rw [execFdec, frameReady_of_two_le h2, guarded_none, if_neg (not_not.2 hwhole), hd]

/-- `FDEC` from a buffer of whole blocks that does not decode. -/
theorem exec_fdec_of_not_decoded {s : State} (h2 : 2 ≤ msgCap s) (hwhole : s.elen.toNat % blockLen s = 0)
    (hd : lcDecode (decoder s) (msgCap s) (eccBlocks (blockLen s) (ebufBytes s s.elen.toNat)) = none) :
    exec .fdec s = .next (formatError .fdec .chunkLengthTooLarge s) := by
  change execFdec s = _
  rw [execFdec, frameReady_of_two_le h2, guarded_none, if_neg (not_not.2 hwhole), hd]

/-- `FDECNL` from a buffer of whole blocks. -/
theorem exec_fdecnl_of_whole {s : State} (hwhole : s.elen.toNat % blockLen s = 0) :
    exec .fdecnl s = .next (deliver .fdecnl
      (nlDecode (decoder s) s.arg0.toNat (eccBlocks (blockLen s) (ebufBytes s s.elen.toNat)) []) s) := by
  change execFdecnl s = _
  rw [execFdecnl, frameReady, guarded_none, if_neg (not_not.2 hwhole)]

/-- What a command that delivers leaves (42_ecc_framer.md R176). -/
theorem deliver_spec {i : Instr} (hi : isScan (some i) = false) {s : State} (hwf : Memory.wf s.pbuf = true)
    (d : List Byte) :
    let t := deliver i d s
    (d.length ≤ s.maxlen.toNat →
      t = { succeeded d.length s with pbuf := t.pbuf, len := BitVec.ofNat 32 d.length }) ∧
    (s.maxlen.toNat < d.length → t = { failed 4 0x41 s with pbuf := t.pbuf, len := s.maxlen }) ∧
    ∀ a, pbufByte t a = if a < min d.length s.maxlen.toNat then d.getD a 0 else pbufByte s a := by
  intro t
  refine ⟨fun hle => ?_, fun hlt => ?_, fun a => ?_⟩
  · simp only [t, deliver_fits hle]
    rfl
  · have hlen : (d.take s.maxlen.toNat).length = s.maxlen.toNat := by simp; omega
    simp only [t, deliver_cut hlt, failed_eq i hi, storePbuf, hlen, BitVec.ofNat_toNat, BitVec.setWidth_eq]
    rfl
  · rw [deliver_pbuf, pbufByte_storePbuf hwf, List.length_take, Nat.min_comm]
    split
    · rw [List.getD_eq_getElem?_getD, List.getElem?_take_of_lt (by omega), List.getD_eq_getElem?_getD]
    · rfl

/-- Settles O32: the full blocks decode first, and the last one ends or breaks the message. -/
theorem fdecDeliversTheDecodedBytes : Obligations.FdecDeliversTheDecodedBytes := by
  constructor
  · intro dec m full rest last c data hfull
    exact ⟨lcDecode_full hfull, lcDecode_of_tooLarge hfull, lcDecode_of_last hfull⟩
  · intro s d h2 hwhole hd hwf
    exact ⟨_, exec_fdec_of_decoded h2 hwhole hd, deliver_spec rfl hwf d⟩

/-- Decoded blocks in a row. -/
theorem length_flatMap_of_size {dec : List Byte → List Byte} {m : Nat} {blocks : List (List Byte)}
    (hsize : ∀ x ∈ blocks, (dec x).length = m) : (blocks.flatMap dec).length = blocks.length * m := by
  rw [List.length_flatMap, List.map_congr_left hsize]
  simp

/-- Settles O33: the decode takes as many blocks as the target needs. -/
theorem fdecnlDeliversTheDecodedBytes : Obligations.FdecnlDeliversTheDecodedBytes := by
  constructor
  · intro dec m t blocks hm hsize
    have hdecode : nlDecode dec t blocks [] = (blocks.take (ceilDiv t m)).flatMap dec := nlDecode_eq hm blocks [] hsize
    refine ⟨hdecode, ?_⟩
    rw [hdecode, length_flatMap_of_size fun x hx => hsize x (List.mem_of_mem_take hx), List.length_take]
    rfl
  · intro s hwhole hwf d
    exact ⟨_, exec_fdecnl_of_whole hwhole, deliver_spec rfl hwf d⟩

/-! #### The errors -/

/-- A format error of a decoder, which is no scan. -/
theorem formatError_eq {i : Instr} (hi : isScan (some i) = false) (c : Cause) (s : State) :
    formatError i c s = failed c.errClass.code c.detail { s with len := 0 } := failed_eq i hi c _

/-- The commands that begin with `frame_ready` of the length-carrying framing. -/
theorem exec_of_msgCap_lt_two {i : Instr} {s : State} (hi : i ∈ [.fenc, .fdec, .ecclen]) (h : msgCap s < 2) :
    exec i s = .next (failed 1 0x18 s) := by
  have hready := frameReady_of_lt_two h
  simp only [List.mem_cons, List.not_mem_nil, or_false] at hi
  rcases hi with rfl | rfl | rfl
  · exact exec_encodeCommand_of_error (v := .lengthCarrying) (by rw [encodeCheck, hready])
  · change execFdec s = _
    rw [execFdec, hready, guarded_some, failed_eq _ rfl]; rfl
  · change execEcclen s = _
    rw [execEcclen, hready, guarded_some, failed_eq _ rfl]; rfl

/-- An encoder whose result is too long, for a length register or for `EBUF` (42_ecc_framer.md R165). -/
theorem exec_encodeCommand_of_not_fits {v : Framing} {s : State} (hready : frameReady v s = none) :
    (lenMax < encodedLength v s → exec (encodeCommand v) s = .next (failed 5 0x52 s)) ∧
    (encodedLength v s ≤ lenMax → s.params.ebufSize.val < encodedLength v s →
      exec (encodeCommand v) s = .next (failed 5 0x51 s)) := by
  have hcheck := encodeCheck_of_frameReady hready
  refine ⟨fun hbig => ?_, fun hle hsmall => ?_⟩
  · exact exec_encodeCommand_of_error (hcheck.trans (fitsEbuf_of_overflow hbig))
  · exact exec_encodeCommand_of_error (hcheck.trans (fitsEbuf_of_small hle hsmall))

/-- Settles O34: each check fails after the ones before it have passed. -/
theorem framingErrorsInOrder : Obligations.FramingErrorsInOrder := by
  refine ⟨fun i s => exec_of_msgCap_lt_two, fun s h2 => ?_, fun s _ => ?_, fun s hpart => ⟨fun h2 => ?_, ?_⟩,
    fun s h2 hwhole hd => ?_⟩
  · exact exec_encodeCommand_of_not_fits (v := .lengthCarrying) (frameReady_of_two_le h2 _)
  · exact exec_encodeCommand_of_not_fits (v := .lengthOmitting) rfl
  · change execFdec s = _
    rw [execFdec, frameReady_of_two_le h2, guarded_none, if_pos hpart, formatError_eq rfl]; rfl
  · change execFdecnl s = _
    rw [execFdecnl, frameReady, guarded_none, if_pos hpart, formatError_eq rfl]; rfl
  · rw [exec_fdec_of_not_decoded h2 hwhole hd, formatError_eq rfl]; rfl

/-! #### The port, and the round trip on the machine -/

/-- Settles O35: P1 is in the type of the port, P3 is its field, and P2 is P3 with no changed byte. -/
theorem reedSolomonPortInverts : Obligations.ReedSolomonPortInverts := by
  intro b npar x c _ hb
  exact ⟨rsEnc_length .., rsDec_length .., fun hx => ⟨rsDec_rsEnc hb hx, fun _ hfew => rsDec_corrects hb hx hfew⟩⟩

/-- A byte of the encoded buffer. -/
theorem ebufBytes_getD (s : State) {n a : Nat} (h : a < n) : (ebufBytes s n).getD a 0 = ebufByte s a := by
  simp [ebufBytes, h]

/-- A byte of the payload. -/
theorem pbufBytes_getD (s : State) {n a : Nat} (h : a < n) : (pbufBytes s n).getD a 0 = pbufByte s a := by
  simp [pbufBytes, h]

/-- Sessions with the same constants and block length decode alike. -/
theorem decoder_congr {s v : State} (hparams : v.params = s.params) (hblock : v.eccBlockLength = s.eccBlockLength) :
    blockLen v = blockLen s ∧ msgCap v = msgCap s ∧ decoder v = decoder s := by
  simp only [decoder, msgCap, blockLen, hparams, hblock, and_self]

/-- Only the first `n` bytes count. -/
theorem changedCount_congr {n : Nat} {f f' g g' : Nat → Byte} (hf : ∀ j < n, f j = f' j) (hg : ∀ j < n, g j = g' j) :
    changedCount n f g = changedCount n f' g' := by
  refine congrArg List.length (List.filter_congr fun j hj => ?_)
  rw [hf j (List.mem_range.1 hj), hg j (List.mem_range.1 hj)]

/-- An `EBUF` that holds an encoded payload, with no more changed bytes in each block than the port corrects, decodes
to that payload (42_ecc_framer.md R177). -/
theorem lcDecode_ebufBytes {s v : State} (h2 : 2 ≤ msgCap s)
    (hfew : ∀ i < s.len.toNat / (msgCap s - 1) + 1,
      changedCount (blockLen s) (fun j => ebufByte v (i * blockLen s + j))
        (fun j => (encodedPayload .lengthCarrying s).getD (i * blockLen s + j) 0) ≤ s.params.npar.val / 2) :
    lcDecode (decoder s) (msgCap s) (eccBlocks (blockLen s) (ebufBytes v (encodedLength .lengthCarrying s))) =
      some (pbufBytes s s.len.toNat) := by
  have hb : blockLen s ≤ 255 := Nat.le_of_lt_succ s.eccBlockLength.isLt
  have hlen : (ebufBytes v (encodedLength .lengthCarrying s)).length =
      ((pbufBytes s s.len.toNat).length / (msgCap s - 1) + 1) * blockLen s := by
    simp only [ebufBytes, List.length_map, List.length_range, pbufBytes_length]
    rfl
  refine lcDecode_received hb rfl h2 _ _ hlen fun i hi => ?_
  rw [pbufBytes_length] at hi
  exact (changedCount_congr (fun j hj => ebufBytes_getD v (block_byte_lt hi hj)) fun _ _ => rfl).trans_le (hfew i hi)

/-- Settles O39: what `FENC` stored decodes to the payload, and the delivery fits. -/
theorem fdecInvertsFenc : Obligations.FdecInvertsFenc := by
  intro s hs h2 nb hfits
  refine ⟨_, exec_encodeCommand_of_fits (v := .lengthCarrying) (frameReady_of_two_le h2 _) hfits, ?_⟩
  intro v hv hparams hblock helen hfew hmax
  obtain ⟨hb, hm, hdec⟩ := decoder_congr (s := s) hparams hblock
  have helen : v.elen.toNat = nb * blockLen s := by
    have hmax := s.params.ebufSize.isLt
    have hlen : (encodedPayload .lengthCarrying s).length = nb * blockLen s := encodedPayload_length ..
    rw [helen, finish_elen, storeEbuf_elen, hlen, BitVec.toNat_ofNat, Nat.mod_eq_of_lt (by omega)]
  have hdecoded : lcDecode (decoder v) (msgCap v) (eccBlocks (blockLen v) (ebufBytes v v.elen.toNat)) =
      some (pbufBytes s s.len.toNat) := by
    rw [hdec, hm, hb, helen]
    refine lcDecode_ebufBytes h2 fun i hi => le_of_eq_of_le ?_ (hfew i hi)
    exact changedCount_congr (fun _ _ => rfl) fun j hj =>
      (ebufByte_encoded_of_lt (v := .lengthCarrying) hs.ebufForm (block_byte_lt hi hj)).symm
  have hrun := exec_fdec_of_decoded (hm ▸ h2) (by rw [helen, hb, Nat.mul_mod_left]) hdecoded
  rw [deliver_fits (by rwa [pbufBytes_length])] at hrun
  refine ⟨_, hrun, rfl, ?_, ?_, fun a ha => ?_⟩
  · rw [finish_result, pbufBytes_length, BitVec.ofNat_toNat, BitVec.setWidth_eq]
  · rw [finish_len, storePbuf_len, pbufBytes_length, BitVec.ofNat_toNat, BitVec.setWidth_eq]
  · rw [← pbufBytes_getD s ha]
    exact (pbufByte_storePbuf hv.pbufForm _ a).trans (if_pos (by rwa [pbufBytes_length]))

end Sys2Proof.Machine

/-! ### The capacity arithmetic -/

namespace Sys2Proof.Machine

/-- A bounded result within `LEN_MAX`. -/
theorem finishBounded_of_le {v : Nat} (h : v ≤ lenMax) (i : Instr) (s : State) :
    finishBounded i v s = .next (succeeded v s) := by
  rw [finishBounded, if_neg (Nat.not_lt.2 h), guarded_none, finish_eq]

/-- A bounded result above `LEN_MAX` (60_exceptions.md R293). -/
theorem finishBounded_of_lt {v : Nat} (h : lenMax < v) {i : Instr} (hi : isScan (some i) = false) (s : State) :
    finishBounded i v s = .next (failed 5 0x52 s) := by
  rw [finishBounded, if_pos h, guarded_some, failed_eq i hi]
  rfl

/-- `ECCLEN` with room for a length byte and data. -/
theorem exec_ecclen_of_two_le {s : State} (h : 2 ≤ msgCap s) :
    exec .ecclen s = finishBounded .ecclen (eccLengthForMessage (blockLen s) (msgCap s) s.arg0.toNat) s := by
  change execEcclen s = _
  rw [execEcclen, frameReady_of_two_le h, guarded_none]

/-- Settles O40: each command is a bounded result. -/
theorem capacityCommandsCompute : Obligations.CapacityCommandsCompute := by
  intro s _ x b m
  refine ⟨exec_of_msgCap_lt_two (by simp), fun h2 hle => ?_, fun h2 hlt => ?_, fun hle => ?_, fun hlt => ?_,
    fun hle => ?_, fun hlt => ?_⟩
  · exact (exec_ecclen_of_two_le h2).trans (finishBounded_of_le hle ..)
  · exact (exec_ecclen_of_two_le h2).trans (finishBounded_of_lt hlt rfl s)
  · exact finishBounded_of_le hle .eccceil s
  · exact finishBounded_of_lt hlt (i := .eccceil) rfl s
  · exact finishBounded_of_le hle .capecc s
  · exact finishBounded_of_lt hlt (i := .capecc) rfl s

/-- More raw bytes hold no fewer message bytes. -/
theorem capacityAfterEcc_mono (b m : Nat) {x y : Nat} (h : x ≤ y) : capacityAfterEcc b m x ≤ capacityAfterEcc b m y :=
  Nat.mul_le_mul_right _ (Nat.div_le_div_right h)

/-- Every block costs a byte at least. -/
theorem capacityAfterEcc_lt {b m x : Nat} (hm : 1 ≤ m) (hmb : m ≤ b) (hx : 0 < x) : capacityAfterEcc b m x < x := by
  unfold capacityAfterEcc
  have hle : x / b * b ≤ x := Nat.div_mul_le_self x b
  rcases Nat.eq_zero_or_pos (x / b) with h0 | hpos
  · rwa [h0, Nat.zero_mul]
  · exact (Nat.mul_lt_mul_of_pos_left (by omega) hpos).trans_le hle

/-- What the blocks of an encoded message hold. -/
theorem capacityAfterEcc_eccLengthForMessage {b : Nat} (m : Nat) (hb : 1 ≤ b) (l : Nat) :
    capacityAfterEcc b m (eccLengthForMessage b m l) = (l / (m - 1) + 1) * (m - 1) := by
  rw [capacityAfterEcc, eccLengthForMessage, Nat.mul_div_cancel _ hb]

/-- Settles O41: an encoding is a whole number of blocks, each with room for `M - 1` bytes. -/
theorem capacityArithmeticLaws : Obligations.CapacityArithmeticLaws := by
  intro b m hm hmb
  refine ⟨fun x y => capacityAfterEcc_mono b m, fun x => capacityAfterEcc_lt hm hmb, fun l h2 => ?_⟩
  have hb : 1 ≤ b := hm.trans hmb
  refine ⟨Nat.dvd_mul_left .., ceil_mul b _ hb, capacityAfterEcc_eccLengthForMessage m hb l, ?_⟩
  rw [capacityAfterEcc_eccLengthForMessage m hb]
  exact Nat.lt_mul_of_div_lt (Nat.lt_succ_self _) (by omega)

end Sys2Proof.Machine

/-! ### The capacity of the image -/

namespace Sys2Proof.Machine

/-- The capacity with the tests of the two settings written out (43_capacity.md R203). -/
theorem capacity_eq (s : State) :
    capacity s =
      (if s.eccMethod = .reedSolomon then ((blockProduct s / blockLen s * (msgCap s - 1) : Nat) : Int)
        else (blockProduct s : Int)) - (if s.embedLength then 4 else 0) := by
  unfold capacity
  cases s.embedLength with
  | true => cases s.eccMethod <;> rfl
  | false => cases s.eccMethod <;> exact (Int.sub_zero _).symm

/-- `nblk()` passes for a number of blocks within `LEN_MAX`. -/
theorem nblkCheck_of_le {s : State} (h : blockProduct s ≤ lenMax) : nblkCheck s = none :=
  if_neg (Nat.not_lt.2 h)

/-- `RAWCAP` reports the number of blocks as a bounded result. -/
theorem exec_rawcap (s : State) : exec .rawcap s = finishBounded .rawcap (blockProduct s) s := rfl

/-- `CAP` of an image with more blocks than `LEN_MAX` (43_capacity.md R202). -/
theorem exec_cap_of_lt {s : State} (h : lenMax < blockProduct s) : exec .cap s = .next (failed 5 0x52 s) := by
  have hcheck : nblkCheck s = some .overflow := if_pos h
  change execCap s = _
  rw [execCap, hcheck, guarded_some, failed_eq .cap rfl]
  rfl

/-- `CAP` where nothing is left (43_capacity.md R202). -/
theorem exec_cap_of_nonpos {s : State} (h : blockProduct s ≤ lenMax) (hc : capacity s ≤ 0) :
    exec .cap s = .next (failed 2 0x22 s) := by
  change execCap s = _
  rw [execCap, nblkCheck_of_le h, guarded_none, if_pos hc, guarded_some, failed_eq .cap rfl]
  rfl

/-- `CAP` where a byte at least is left (43_capacity.md R202). -/
theorem exec_cap_of_pos {s : State} (h : blockProduct s ≤ lenMax) (hc : 0 < capacity s) :
    exec .cap s = .next (succeeded (capacity s).toNat s) := by
  change execCap s = _
  rw [execCap, nblkCheck_of_le h, guarded_none, if_neg (Int.not_le.2 hc), guarded_none, finish_eq]

/-- Settles O42: `RAWCAP` is a bounded result, and `CAP` tests the number of blocks before the capacity. -/
theorem capacityOfTheImage : Obligations.CapacityOfTheImage := by
  intro s n c
  have hc : capacity s = c := capacity_eq s
  refine ⟨fun hlt => ⟨?_, exec_cap_of_lt hlt⟩, fun hle => ?_, fun hle hnonpos => ?_, fun hle hpos => ?_⟩
  · exact (exec_rawcap s).trans (finishBounded_of_lt hlt rfl s)
  · exact (exec_rawcap s).trans (finishBounded_of_le hle ..)
  · exact exec_cap_of_nonpos hle (hc.trans_le hnonpos)
  · exact hc ▸ exec_cap_of_pos hle (hpos.trans_eq hc.symm)

end Sys2Proof.Machine

/-! ### The length bytes -/

namespace Sys2Proof.Machine

/-- The bytes of a length are its digits to the base 256, least significant first (20_memory.md R80). -/
theorem lengthOfBytes_eq_ofDigits (i : Nat) (bytes : List Byte) :
    lengthOfBytes i bytes = Nat.ofDigits 256 (bytes.map BitVec.toNat) <<< (8 * i) := by
  induction bytes generalizing i with
  | nil => simp [lengthOfBytes]
  | cons v rest ih =>
    have hdigit : v.toNat ||| Nat.ofDigits 256 (rest.map BitVec.toNat) <<< 8 =
        Nat.ofDigits 256 ((v :: rest).map BitVec.toNat) := by
      rw [Nat.or_comm, ← Nat.shiftLeft_add_eq_or_of_lt v.isLt, Nat.shiftLeft_eq, List.map_cons, Nat.ofDigits_cons,
        Nat.add_comm, Nat.mul_comm]
    rw [lengthOfBytes, ih, show 8 * (i + 1) = 8 + 8 * i by omega, Nat.shiftLeft_add, ← Nat.shiftLeft_or_distrib,
      hdigit]

/-- The length that blocks 0 to 3 carry, as a sum. -/
theorem carriedLength_eq (s : State) :
    carriedLength s = (carried s 0).toNat + 256 * (carried s 1).toNat + 256 ^ 2 * (carried s 2).toNat +
      256 ^ 3 * (carried s 3).toNat := by
  rw [carriedLength, lengthOfBytes_eq_ofDigits]
  simp [Nat.ofDigits_cons]
  omega

/-- Blocks that carry the bytes of a length carry the length (44_embed_extract.md R223). -/
theorem carriedLength_of_bytes {s : State} {x : Nat} (hx : x < 2 ^ 32)
    (h : ∀ n < 4, carried s n = BitVec.ofNat 8 (x / 256 ^ n)) : carriedLength s = x := by
  rw [carriedLength_eq, h 0 (by omega), h 1 (by omega), h 2 (by omega), h 3 (by omega)]
  simp only [BitVec.toNat_ofNat]
  omega

/-- The byte that a block carries once it is packed with four different slots. -/
theorem carried_of_packed {s t : State} {n : Nat} {v : Byte} (hdistinct : s.distinctSlots) (hslots : slots t = slots s)
    (hn : n < s.coef.length) (h : t.coef[n]? = (s.coef[n]?).map (packBlock (slots s) v)) : carried t n = v := by
  rw [List.getElem?_eq_getElem hn, Option.map_some] at h
  simp only [carried, h, hslots]
  exact unpackBlock_packBlock hdistinct v _

/-- Settles O43: four blocks from block 0 up are packed with the bytes of `ARG0`. -/
theorem lenwrWritesThePrefix : Obligations.LenwrWritesThePrefix := by
  intro s hready h4 hcoef
  obtain ⟨t, ht⟩ := packBytes_complete (lengthBytes s.arg0.toNat) 0 s hcoef
  obtain ⟨hframe, hpacked⟩ := packBytes_ok ht
  refine ⟨finish 4 t, ?_, ?_, fun n => ?_⟩
  · change execLenwr s = _
    rw [execLenwr, packReady_none hready (by omega), guarded_none, ht]
  · rw [hframe]; rfl
  · rw [finish_coef, hpacked.blocks n]
    simp only [lengthBytes_length, Nat.zero_le, true_and, Nat.zero_add, Nat.sub_zero]
    split
    next hn => rw [List.getD_eq_getElem?_getD, lengthBytes_get _ _ hn, Option.getD_some]
    next => rfl

/-- `LENRD` reports the length that blocks 0 to 3 carry as a bounded result. -/
theorem exec_lenrd {s : State} (hready : s.slotsReady) (h4 : 4 ≤ blockProduct s) (hcoef : 4 ≤ s.coef.length) :
    exec .lenrd s = finishBounded .lenrd (carriedLength s) s := by
  obtain ⟨bytes, hbytes⟩ := unpackBytes_complete 4 0 s hcoef
  obtain ⟨hlen, hget⟩ := unpackBytes_ok hbytes
  have hread : bytes = [carried s 0, carried s 1, carried s 2, carried s 3] := by
    rw [unpack_bytes hlen hget]; rfl
  change execLenrd s = _
  rw [execLenrd, packReady_none hready (by omega), guarded_none, hbytes, hread]
  rfl

/-- Settles O44: `LENRD` is a bounded result. -/
theorem lenrdReadsThePrefix : Obligations.LenrdReadsThePrefix := by
  intro s hready h4 hcoef v
  have hv : carriedLength s = v := carriedLength_eq s
  rw [exec_lenrd hready h4 hcoef, hv]
  exact ⟨fun hle => finishBounded_of_le hle .., fun hlt => finishBounded_of_lt hlt rfl s⟩

/-- Settles O45: the four blocks that `LENWR` packed carry the bytes of the length. -/
theorem lenrdInvertsLenwr : Obligations.LenrdInvertsLenwr := by
  intro s hready hdistinct h4 hcoef hmax
  obtain ⟨t, ht, hframe, hblocks⟩ := lenwrWritesThePrefix s hready h4 hcoef
  have hslots : slots t = slots s := by rw [hframe]; rfl
  have hready' : t.slotsReady := by rw [hframe]; exact hready
  have h4' : 4 ≤ blockProduct t := by rw [hframe]; exact h4
  have hcoef' : 4 ≤ t.coef.length := (exec_coefKept ht).length ▸ hcoef
  have hlength : carriedLength t = s.arg0.toNat := carriedLength_of_bytes s.arg0.isLt fun n hn =>
    carried_of_packed hdistinct hslots (by omega) ((hblocks n).trans (if_pos hn))
  refine ⟨t, ht, ?_⟩
  rw [exec_lenrd hready' h4' hcoef', hlength]
  exact finishBounded_of_le hmax ..

end Sys2Proof.Machine

/-! ### EMBED -/

namespace Sys2Proof.Machine

/-- `EMBED` with four slots selected goes on to its raw bytes. -/
theorem exec_embed_of_slotsReady {s : State} (hready : s.slotsReady) : exec .embed s = embedRaw (scanStart s) := by
  obtain ⟨hcheck, hsel⟩ := selectCheck_ready hready
  change execEmbed s = _
  simp only [execEmbed, hcheck, guarded_none, hsel]

/-- How many bytes of the length `EMBED` writes: as many as there are blocks (44_embed_extract.md R221). -/
def embedPrefix (s : State) : Nat := min (prefixBlocks s) (blockProduct s)

/-- How many raw bytes `EMBED` writes: as many as there are blocks after the length (44_embed_extract.md R224). -/
def embedCount (s : State) : Nat := min (rawBytes s).length (blockProduct s - embedPrefix s)

/-- The state whose image `EMBED` scans: with ECC the raw bytes stand in `EBUF` (44_embed_extract.md R227). -/
def embedSource (s : State) : State :=
  match s.eccMethod with
  | .none => s
  | .reedSolomon => storeEbuf (rawBytes s) s

/-- The state of `EMBED` after its scan, with the image that the scan left. -/
def embedAfter (s : State) (image : List CoefBlock) : State :=
  { embedSource s with
    phase := .done, blk := BitVec.ofNat 32 (embedPrefix s + embedCount s), k := BitVec.ofNat 32 (embedCount s)
    coef := image }

/-- The image that `EMBED` leaves, block by block (44_embed_extract.md R229). -/
def EmbeddedImage (s : State) (image : List CoefBlock) : Prop :=
  ∀ n, image[n]? =
    if n < embedPrefix s then
      (s.coef[n]?).map (packBlock (slots s) (BitVec.ofNat 8 ((rawBytes s).length / 256 ^ n)))
    else if n < embedPrefix s + embedCount s then
      (s.coef[n]?).map (packBlock (slots s) ((rawBytes s).getD (n - embedPrefix s) 0))
    else s.coef[n]?

/-- Without ECC no buffer is written. -/
theorem embedSource_of_none {s : State} (h : s.eccMethod = .none) : embedSource s = s := by
  rw [embedSource, h]

/-- With ECC the raw bytes go to `EBUF`. -/
theorem embedSource_of_reedSolomon {s : State} (h : s.eccMethod = .reedSolomon) :
    embedSource s = storeEbuf (rawBytes s) s := by
  rw [embedSource, h]

/-- Nothing else changes before the scan. -/
theorem embedSource_frame (s : State) :
    embedSource s = { s with ebuf := (embedSource s).ebuf, elen := (embedSource s).elen } := by
  unfold embedSource
  split <;> rfl

/-- The scan of `EMBED`, of a state that differs from the one given in the scan registers alone. -/
theorem embedRaw_run {s v : State} (hscan : v = { embedSource s with phase := v.phase, blk := 0, k := 0 })
    (hready : s.slotsReady) (hfits : s.geometryFits) :
    ∃ image, settle (embedScan (blockProduct s) (rawBytes s) v) =
        .next (embedResult (rawBytes s).length (embedAfter s image)) ∧
      EmbeddedImage s image := by
  rw [embedSource_frame] at hscan
  have hblk : v.blk = 0 := by rw [hscan]
  have hk : v.k = 0 := by rw [hscan]
  have hcoef : v.coef = s.coef := by rw [hscan]
  have hslots : slots v = slots s := by rw [hscan]; rfl
  have hpre : prefixBlocks v = prefixBlocks s := by rw [hscan]; rfl
  have hword : blockProduct s < 2 ^ 32 := lt_of_le_of_lt hready.2 (by decide)
  obtain ⟨u, hrun, hu, hpacked⟩ := embed_run (d := rawBytes s) hblk hk hword (hcoef ▸ hfits)
  have hcount : (prefixWritten v (blockProduct s) (rawBytes s).length).length = embedPrefix s := by
    rw [embedPrefix, ← hpre]; exact prefixWritten_length ..
  have hend : u = embedAfter s u.coef := by
    rw [hu, hcount, hscan, embedAfter, embedSource_frame]; rfl
  refine ⟨u.coef, hend ▸ hrun, fun n => ?_⟩
  have hblocks := packed_blocks _ hpacked n
  rw [hpre, hcoef, hslots] at hblocks
  exact hblocks

/-- `EMBED` with four slots whose checks pass and whose blocks the store has. -/
theorem exec_embed_run {s : State} (hready : s.slotsReady) (hfits : s.geometryFits) (henc : s.encodable) :
    ∃ image, exec .embed s = .next (embedResult (rawBytes s).length (embedAfter s image)) ∧
      EmbeddedImage s image := by
  rw [exec_embed_of_slotsReady hready]
  cases hm : s.eccMethod with
  | none =>
    have hraw : embedRaw (scanStart s) = settle (embedScan (blockProduct s) (rawBytes s) (scanStart s)) := by
      simp only [embedRaw, scanStart_eccMethod, hm, rawBytes]; rfl
    rw [hraw]
    exact embedRaw_run (by rw [embedSource_of_none hm]; rfl) hready hfits
  | reedSolomon =>
    have hcheck : encodeCheck s.framing (setPhase .eccEncode (scanStart s)) = none := henc hm
    have hraw : embedRaw (scanStart s) = settle (embedScan (blockProduct s) (rawBytes s)
        (storeEbuf (rawBytes s) (setPhase .eccEncode (scanStart s)))) := by
      simp only [embedRaw, scanStart_eccMethod, hm, rawBytes, scanStart_framing, hcheck, guarded_none]; rfl
    rw [hraw]
    exact embedRaw_run (by rw [embedSource_of_reedSolomon hm]; rfl) hready hfits

/-- The number that `EMBED` reports for `t` raw bytes (44_embed_extract.md R228). -/
def embedReport (t : Nat) (s : State) : Nat :=
  match s.eccMethod with
  | .none => s.k.toNat
  | .reedSolomon => if s.k.toNat = t then s.len.toNat else eccTruncCount s.len.toNat s.k.toNat (blockLen s) (msgCap s)

/-- `EMBED` reports that number where it wrote a raw byte, or had none to write. -/
theorem embedResult_of_written {t : Nat} {s : State} (h : 0 < t → 0 < s.k.toNat) :
    embedResult t s = finish (embedReport t s) s := by
  rw [embedResult, if_neg (by omega), embedReport]
  cases s.eccMethod with
  | none => rfl
  | reedSolomon => exact (apply_ite (fun v => finish v s) ..).symm

/-- Where it wrote none of its raw bytes, it fails (44_embed_extract.md R232). -/
theorem embedResult_of_unwritten {t : Nat} {s : State} (ht : 0 < t) (hk : s.k = 0) :
    embedResult t s = scanFailed 2 0x23 s := by
  rw [embedResult, if_pos ⟨ht, by rw [hk]; rfl⟩, scanFailed_eq _ rfl]
  rfl

/-- The count of raw bytes written fits `K`. -/
theorem embedAfter_k_toNat {s : State} (hready : s.slotsReady) (image : List CoefBlock) :
    (embedAfter s image).k.toNat = embedCount s := by
  have hmax : embedCount s ≤ lenMax := le_trans (by unfold embedCount; omega) hready.2
  simp only [embedAfter, BitVec.toNat_ofNat]
  exact Nat.mod_eq_of_lt (lt_of_le_of_lt hmax (by decide))

/-- What `EMBED` leaves outside the image and `EBUF`. -/
theorem embedAfter_frame (s : State) (image : List CoefBlock) :
    embedAfter s image = { s with
      phase := .done, blk := BitVec.ofNat 32 (embedPrefix s + embedCount s), k := BitVec.ofNat 32 (embedCount s)
      coef := image, ebuf := (embedAfter s image).ebuf, elen := (embedAfter s image).elen } := by
  rw [embedAfter, embedSource_frame]

/-- Without ECC `EMBED` leaves `EBUF` alone. -/
theorem embedAfter_ebuf_of_none {s : State} (h : s.eccMethod = .none) (image : List CoefBlock) :
    (embedAfter s image).ebuf = s.ebuf ∧ (embedAfter s image).elen = s.elen := by
  rw [embedAfter, embedSource_of_none h]
  exact ⟨rfl, rfl⟩

/-- With ECC `EMBED` leaves the encoded payload in `EBUF` (60_exceptions.md R287). -/
theorem embedAfter_ebuf_of_reedSolomon {s : State} (h : s.eccMethod = .reedSolomon) (hwf : Memory.wf s.ebuf = true)
    (image : List CoefBlock) :
    (embedAfter s image).elen = BitVec.ofNat 32 (rawBytes s).length ∧
    ∀ a, ebufByte (embedAfter s image) a =
      if a < (rawBytes s).length then (rawBytes s).getD a 0 else ebufByte s a := by
  rw [embedAfter, embedSource_of_reedSolomon h]
  exact ⟨rfl, ebufByte_storeEbuf hwf (rawBytes s)⟩

/-- The number reported stands in `RESULT`. -/
theorem succeeded_result (v : Nat) (s u : State) : succeeded (finish v u).result.toNat s = succeeded v s := by
  simp only [succeeded, finish_result, BitVec.ofNat_toNat, BitVec.setWidth_eq]

/-- Settles O46: the scan writes a raw byte, or has none to write, and so ends with its report. -/
theorem embedWritesPrefixThenRawBytes : Obligations.EmbedWritesPrefixThenRawBytes := by
  intro s hready hfits henc hwf d pre cnt hsome
  obtain ⟨image, hrun, hblocks⟩ := exec_embed_run hready hfits henc
  have hk : (embedAfter s image).k.toNat = cnt := embedAfter_k_toNat hready image
  have hmax : cnt ≤ lenMax := le_trans (by omega) hready.2
  rw [embedResult_of_written (by rwa [hk])] at hrun
  refine ⟨_, hrun, ?_, hblocks, fun hm => ?_, fun hm => ?_⟩
  · rw [succeeded_result]
    exact congrArg (finish _) (embedAfter_frame s image)
  · have hreport : embedReport d.length (embedAfter s image) = cnt := by
      rw [embedAfter_frame] at hk ⊢; simp only [embedReport, hm, hk]
    refine ⟨?_, embedAfter_ebuf_of_none hm image⟩
    rw [finish_result, hreport, BitVec.toNat_ofNat, Nat.mod_eq_of_lt (lt_of_le_of_lt hmax (by decide))]
  · obtain ⟨helen, hebuf⟩ := embedAfter_ebuf_of_reedSolomon hm hwf image
    have hreport : embedReport d.length (embedAfter s image) =
        if cnt = d.length then s.len.toNat else eccTruncCount s.len.toNat cnt (blockLen s) (msgCap s) := by
      rw [embedAfter_frame] at hk ⊢; simp only [embedReport, hm, hk]; rfl
    refine ⟨helen, hebuf, fun hall => ?_, fun hcut => ?_⟩
    · rw [finish_result, hreport, if_pos hall, BitVec.ofNat_toNat, BitVec.setWidth_eq]
    · rw [finish_result, hreport, if_neg (by omega)]

/-- Settles O47: no block is left after the length bytes. -/
theorem embedOfNothingFails : Obligations.EmbedOfNothingFails := by
  intro s hready hfits henc d pre hsome hfull
  obtain ⟨image, hrun, hblocks⟩ := exec_embed_run hready hfits henc
  have hpre : embedPrefix s = pre := rfl
  have hnone : embedCount s = 0 := by unfold embedCount; omega
  have hk : (embedAfter s image).k = 0 := by simp only [embedAfter, hnone]; rfl
  rw [embedResult_of_unwritten hsome hk] at hrun
  refine ⟨_, hrun, ?_, fun n => ?_, fun hm => embedAfter_ebuf_of_none hm image,
    fun hm hwf => embedAfter_ebuf_of_reedSolomon hm hwf image⟩
  · rw [embedAfter_frame, hnone]; rfl
  · refine (hblocks n).trans ?_
    rw [hnone, hpre, Nat.add_zero]
    exact ite_congr rfl (fun _ => rfl) fun hn => if_neg hn

/-- A check of the encode that fails ends `EMBED` before the image is touched. -/
theorem exec_embed_of_encodeCheck_some {s : State} {c : Cause} (hready : s.slotsReady) (hm : s.eccMethod = .reedSolomon)
    (h : encodeCheck s.framing s = some c) :
    exec .embed s = .next (scanFailed c.errClass.code c.detail { s with blk := 0, k := 0 }) := by
  have hcheck : encodeCheck s.framing (setPhase .eccEncode (scanStart s)) = some c := h
  have hraw : embedRaw (scanStart s) = .next (raise (some .embed) c (setPhase .eccEncode (scanStart s))) := by
    simp only [embedRaw, scanStart_eccMethod, hm, scanStart_framing, hcheck, guarded_some]
  rw [exec_embed_of_slotsReady hready, hraw, scanFailed_eq .embed rfl]
  rfl

/-- Settles O50: the three causes of the encode check, in its order. -/
theorem embedEncodeErrorsInOrder : Obligations.EmbedEncodeErrorsInOrder := by
  intro s hready hm z n
  have hn : encodedLength s.framing s = n := by
    simp only [n, encodedLength]; cases s.framing <;> rfl
  have hframe (h : s.framing = .lengthCarrying → 2 ≤ msgCap s) : encodeCheck s.framing s = fitsEbuf n s := by
    rw [← hn]
    refine encodeCheck_of_frameReady ?_
    cases hf : s.framing with
    | lengthCarrying => exact frameReady_of_two_le (h hf) _
    | lengthOmitting => rfl
  refine ⟨fun hf hsmall => ?_, fun h hbig => ?_, fun h hle hsmall => ?_⟩
  · refine exec_embed_of_encodeCheck_some (c := .messageTooShort) hready hm ?_
    rw [hf, encodeCheck, frameReady_of_lt_two hsmall]
  · exact exec_embed_of_encodeCheck_some hready hm ((hframe h).trans (fitsEbuf_of_overflow hbig))
  · exact exec_embed_of_encodeCheck_some hready hm ((hframe h).trans (fitsEbuf_of_small hle hsmall))

end Sys2Proof.Machine

/-! ### EXTRACT -/

namespace Sys2Proof.Machine

/-! #### The delivery, and the checks before the scan -/

/-- `EXTRACT` delivers as a decoder does, and ends in `Done`. -/
theorem deliver_extract (d : List Byte) (s : State) :
    deliver .extract d (setPhase .done s) = setPhase .done (deliver .fdec d s) := by
  by_cases h : d.length ≤ s.maxlen.toNat
  · rw [deliver_fits h, deliver_fits (s := setPhase .done s) h]; rfl
  · have hcut := Nat.lt_of_not_le h
    rw [deliver_cut hcut, deliver_cut (s := setPhase .done s) hcut]; rfl

/-- What the delivery of `EXTRACT` leaves (44_embed_extract.md R244, 42_ecc_framer.md R176). -/
theorem deliver_extract_spec {s : State} (hwf : Memory.wf s.pbuf = true) (d : List Byte) :
    let t := deliver .extract d (setPhase .done s)
    (d.length ≤ s.maxlen.toNat →
      t = { succeeded d.length s with phase := .done, pbuf := t.pbuf, len := BitVec.ofNat 32 d.length }) ∧
    (s.maxlen.toNat < d.length → t = { scanFailed 4 0x41 s with pbuf := t.pbuf, len := s.maxlen }) ∧
    ∀ a, pbufByte t a = if a < min d.length s.maxlen.toNat then d.getD a 0 else pbufByte s a := by
  obtain ⟨hwhole, hcut, hbytes⟩ := deliver_spec (i := .fdec) rfl hwf d
  rw [deliver_extract]
  exact ⟨fun hle => congrArg (setPhase .done) (hwhole hle), fun hlt => congrArg (setPhase .done) (hcut hlt), hbytes⟩

/-- Where `EXTRACT` runs `frame_ready`, as its statements say it (44_embed_extract.md R239). -/
theorem extractNeedsLengthByte_iff (s : State) : extractNeedsLengthByte s = true ↔
    s.eccMethod = .reedSolomon ∧ (s.framing = .lengthCarrying ∨ s.embedLength = false) := by
  simp [extractNeedsLengthByte]

/-- The frame check passes where there is room for the length byte, or none is needed. -/
theorem extractFrameCheck_none {s : State}
    (h : s.eccMethod = .reedSolomon ∧ (s.framing = .lengthCarrying ∨ s.embedLength = false) → 2 ≤ msgCap s) :
    extractFrameCheck (scanStart s) = none := by
  refine ite_eq_right_iff.2 fun hneeds => ?_
  exact frameReady_of_two_le (h ((extractNeedsLengthByte_iff s).1 hneeds)) .lengthCarrying

/-- The caller's target with ECC: the length of an encoding, already rounded up (44_embed_extract.md R242). -/
theorem callerTarget_of_reedSolomon {s : State} (hm : s.eccMethod = .reedSolomon) (hb : 1 ≤ blockLen s) :
    callerTarget s = (s.arg0.toNat / (msgCap s - 1) + 1) * blockLen s := by
  simp only [callerTarget, hm]
  exact ceil_mul (blockLen s) _ hb

/-- The caller's target without ECC. -/
theorem callerTarget_of_none {s : State} (hm : s.eccMethod = .none) : callerTarget s = s.arg0.toNat := by
  simp only [callerTarget, hm]

/-- Without ECC no target is too large for the check. -/
theorem callerTargetCheck_of_none {s : State} (hm : s.eccMethod = .none) : callerTargetCheck s = none := by
  simp only [callerTargetCheck, hm]

/-- With ECC the target is compared with `LEN_MAX`. -/
theorem callerTargetCheck_of_reedSolomon {s : State} (hm : s.eccMethod = .reedSolomon) :
    callerTargetCheck s = if callerTarget s > lenMax then some .overflow else none := by
  simp only [callerTargetCheck, hm]

/-- As many bytes are read as are counted. -/
theorem extractRaw_length (s : State) : (extractRaw s).length = extractCount s := by simp [extractRaw]

/-- Settles O48: without ECC the bytes read are delivered. -/
theorem extractDeliversTheCarriedBytes : Obligations.ExtractDeliversTheCarriedBytes := by
  intro s hready hfits hm hwf hpre target n
  have hgoal : extractGoal s = target := by rw [extractGoal, callerTarget_of_none hm]
  have hcount : extractCount s = n := by rw [extractCount, hgoal]
  have hlen : (extractRaw s).length = n := (extractRaw_length s).trans hcount
  have hrun := extract_run hready hfits hpre (extractFrameCheck_none (by simp [hm]))
    (fun _ => callerTargetCheck_of_none hm) (by simp [hm])
  have hend : extractEnd (extractRaw s) (extractAfter s) =
      deliver .extract (extractRaw s) (setPhase .done (extractAfter s)) := by
    simp only [extractEnd, extractAfter, hm]
  obtain ⟨hwhole, hcut, hbytes⟩ := deliver_extract_spec (s := extractAfter s) hwf (extractRaw s)
  rw [← hend, hlen] at hwhole hcut hbytes
  have hafter : extractAfter s = { s with
      phase := .scanReadPayload, blk := BitVec.ofNat 32 (prefixBlocks s + n), k := BitVec.ofNat 32 n } := by
    rw [extractAfter, hcount]
  refine ⟨_, hrun, fun hle => ?_, fun hlt => ?_, fun a => ?_⟩
  · exact (hwhole hle).trans (by rw [hafter]; rfl)
  · exact (hcut hlt).trans (by rw [hafter]; rfl)
  · refine (hbytes a).trans (ite_congr rfl (fun ha => ?_) fun _ => rfl)
    have ha' : a < extractCount s := by rw [hcount]; exact lt_of_lt_of_le ha (Nat.min_le_left ..)
    simp [extractRaw, ha']

/-! #### With ECC -/

/-- What the raw bytes, rounded up to `n2`, decode to by the framing in force; none is the format error
(44_embed_extract.md R245, R248). -/
def extractDecoded (n2 : Nat) (s : State) (raw : List Byte) : Option (List Byte) :=
  match s.framing with
  | .lengthCarrying => lcDecode (decoder s) (msgCap s) (eccBlocks (blockLen s) raw)
  | .lengthOmitting => some (nlDecode (decoder s) (decodeTarget n2 s) (eccBlocks (blockLen s) raw) [])

/-- A buffer that does not decode is a format error (44_embed_extract.md R245). -/
theorem extractDecode_of_none {n2 : Nat} {s : State} (h : extractDecoded n2 s (ebufBytes s n2) = none) :
    extractDecode n2 s = formatError .extract .chunkLengthTooLarge s := by
  simp only [extractDecoded] at h
  simp only [extractDecode]
  cases hf : s.framing with
  | lengthCarrying => simp only [hf] at h ⊢; simp only [h]
  | lengthOmitting => simp only [hf, reduceCtorEq] at h

/-- A buffer that decodes is delivered. -/
theorem extractDecode_of_some {n2 : Nat} {s : State} {d : List Byte}
    (h : extractDecoded n2 s (ebufBytes s n2) = some d) :
    extractDecode n2 s = deliver .extract d (setPhase .done s) := by
  simp only [extractDecoded] at h
  simp only [extractDecode]
  cases hf : s.framing with
  | lengthCarrying => simp only [hf] at h ⊢; simp only [h]
  | lengthOmitting => simp only [hf, Option.some.injEq] at h ⊢; simp only [h]

/-- A delivery leaves `EBUF` alone. -/
theorem deliver_ebuf (i : Instr) (d : List Byte) (s : State) : (deliver i d s).ebuf = s.ebuf := by
  rw [(deliver_ends i d s).same]; rfl

/-- The decode of `EXTRACT` leaves `EBUF` alone. -/
theorem ebufByte_extractDecode (n2 : Nat) (s : State) (a : Nat) : ebufByte (extractDecode n2 s) a = ebufByte s a := by
  cases h : extractDecoded n2 s (ebufBytes s n2) with
  | none => rw [extractDecode_of_none h]; rfl
  | some d => rw [extractDecode_of_some h, (deliver_ends ..).same]; rfl

/-- The raw bytes that `EXTRACT` read, rounded up to whole blocks with zeros (44_embed_extract.md R247). -/
def extractBuffer (s : State) : List Byte :=
  extractRaw s ++ zeros (eccBlockCeiling (blockLen s) (extractCount s) - extractCount s)

/-- They are whole blocks. -/
theorem extractBuffer_length {s : State} (hb : 1 ≤ blockLen s) :
    (extractBuffer s).length = eccBlockCeiling (blockLen s) (extractCount s) := by
  have hle := ceil_ge (blockLen s) (extractCount s) hb
  simp only [extractBuffer, List.length_append, extractRaw_length, zeros, List.length_replicate]
  omega

/-- The state of `EXTRACT` with those bytes in `EBUF`. -/
def extractStored (s : State) : State := storeEbuf (extractBuffer s) (setPhase .eccDecode (extractAfter s))

/-- With ECC the end of `EXTRACT` is the decode of the stored bytes. -/
theorem extractEnd_of_reedSolomon {s : State} (hm : s.eccMethod = .reedSolomon) :
    extractEnd (extractRaw s) (extractAfter s) =
      extractDecode (eccBlockCeiling (blockLen s) (extractCount s)) (extractStored s) := by
  have hafter : (extractAfter s).eccMethod = .reedSolomon := hm
  simp only [extractEnd, hafter, extractRaw_length, storeRaw]
  rfl

/-- The decode reads the stored bytes back. -/
theorem extractDecoded_stored {s : State} (hb : 1 ≤ blockLen s) (hwf : Memory.wf s.ebuf = true) :
    let n2 := eccBlockCeiling (blockLen s) (extractCount s)
    extractDecoded n2 (extractStored s) (ebufBytes (extractStored s) n2) = extractDecoded n2 s (extractBuffer s) := by
  intro n2
  have hstored : ebufBytes (extractStored s) (extractBuffer s).length = extractBuffer s := ebufBytes_storeEbuf hwf _
  rw [extractBuffer_length hb] at hstored
  exact congrArg (extractDecoded n2 s) hstored

/-- What the reading and the storing of the raw bytes change. -/
theorem extractStored_frame {s : State} (hb : 1 ≤ blockLen s) :
    extractStored s = { s with
      phase := .eccDecode, blk := BitVec.ofNat 32 (prefixBlocks s + extractCount s)
      k := BitVec.ofNat 32 (extractCount s), ebuf := (extractStored s).ebuf
      elen := BitVec.ofNat 32 (eccBlockCeiling (blockLen s) (extractCount s)) } := by
  rw [← extractBuffer_length hb]
  rfl

/-- `EXTRACT` with ECC whose checks pass and whose blocks the store has ends with the decode of the stored bytes. -/
theorem exec_extract_stored {s : State} (hready : s.slotsReady) (hfits : s.geometryFits)
    (hm : s.eccMethod = .reedSolomon) (hroom : s.framing = .lengthCarrying ∨ s.embedLength = false → 2 ≤ msgCap s)
    (hpre : prefixBlocks s ≤ blockProduct s) (hmax : extractGoal s ≤ lenMax)
    (hsize : eccBlockCeiling (blockLen s) (extractCount s) ≤ s.params.ebufSize.val) :
    exec .extract s = .next (extractDecode (eccBlockCeiling (blockLen s) (extractCount s)) (extractStored s)) := by
  have htarget (hel : s.embedLength = false) : callerTargetCheck s = none := by
    have hcaller : extractGoal s = callerTarget s := by rw [extractGoal, hel]; rfl
    rw [callerTargetCheck_of_reedSolomon hm, ← hcaller, if_neg (Nat.not_lt.2 hmax)]
  rw [← extractEnd_of_reedSolomon hm]
  exact extract_run hready hfits hpre (extractFrameCheck_none fun h => hroom h.2) htarget fun _ => fitsEbuf_of_le hsize

/-- Settles O49: the buffer holds the raw bytes, and the end is told by what they decode to. -/
theorem extractDecodesTheCarriedBytes : Obligations.ExtractDecodesTheCarriedBytes := by
  intro s hready hfits hm hwfp hwfe hb hroom hpre target n n2 raw decoded hmax hsize
  have hgoal : extractGoal s = target := by rw [extractGoal, callerTarget_of_reedSolomon hm hb]
  have hcount : extractCount s = n := by rw [extractCount, hgoal]
  have hceil : eccBlockCeiling (blockLen s) (extractCount s) = n2 := by rw [hcount]
  have hbuffer : extractBuffer s = raw := by rw [extractBuffer, extractRaw, hcount]
  have hrun := exec_extract_stored hready hfits hm hroom hpre (hgoal.trans_le hmax) (hceil.trans_le hsize)
  rw [hceil] at hrun
  have hdecoded : extractDecoded n2 (extractStored s) (ebufBytes (extractStored s) n2) = decoded := by
    rw [← hceil, extractDecoded_stored hb hwfe, hceil, hbuffer]; rfl
  have hframe := extractStored_frame hb
  rw [hceil, hcount] at hframe
  refine ⟨_, hrun, fun hnone => ?_, fun d hd hle => ?_, fun d hd hlt => ?_, fun d a hd => ?_, fun a => ?_⟩
  · rw [extractDecode_of_none (hdecoded.trans hnone), formatError, scanFailed_eq _ rfl]
    exact congrArg (fun w => scanFailed 3 0x32 { w with len := 0 }) hframe
  · rw [extractDecode_of_some (hdecoded.trans hd), deliver_ebuf]
    exact ((deliver_extract_spec (s := extractStored s) hwfp d).1 hle).trans
      (congrArg (fun w : State => { succeeded d.length w with
        phase := .done, pbuf := (deliver .extract d (setPhase .done (extractStored s))).pbuf
        len := BitVec.ofNat 32 d.length }) hframe)
  · rw [extractDecode_of_some (hdecoded.trans hd), deliver_ebuf]
    exact ((deliver_extract_spec (s := extractStored s) hwfp d).2.1 hlt).trans
      (congrArg (fun w : State => { scanFailed 4 0x41 w with
        pbuf := (deliver .extract d (setPhase .done (extractStored s))).pbuf, len := s.maxlen }) hframe)
  · rw [extractDecode_of_some (hdecoded.trans hd)]
    exact (deliver_extract_spec (s := extractStored s) hwfp d).2.2 a
  · rw [ebufByte_extractDecode]
    refine (ebufByte_storeEbuf (s := setPhase .eccDecode (extractAfter s)) hwfe _ a).trans ?_
    rw [extractBuffer_length hb, hceil, hbuffer]
    rfl

/-! #### The errors -/

/-- `EXTRACT` with four slots whose frame check fails. -/
theorem exec_extract_of_frameCheck_some {s : State} {c : Cause} (hready : s.slotsReady)
    (h : extractFrameCheck (scanStart s) = some c) :
    exec .extract s = .next (scanFailed c.errClass.code c.detail (scanStart s)) := by
  obtain ⟨hcheck, hsel⟩ := selectCheck_ready hready
  change execExtract s = _
  simp only [execExtract, hcheck, guarded_none, hsel, h, guarded_some, scanFailed_eq .extract rfl]

/-- `EXTRACT` of an image too small for the length bytes (44_embed_extract.md R222). -/
theorem extractTarget_of_few_blocks {s : State} (hel : s.embedLength = true) (h : blockProduct s < 4) :
    extractTarget s = .next (scanFailed 2 0x24 s) := by
  rw [extractTarget, if_pos hel, if_pos h, guarded_some, scanFailed_eq .extract rfl]
  rfl

/-- With `EMBED_LENGTH` the target is the length that the image carries, cut at `MAXLEN` (44_embed_extract.md R242). -/
theorem extractTarget_of_prefix {s : State} (hel : s.embedLength = true) (hb : s.blk = 0) (h : 4 ≤ blockProduct s)
    (hcoef : 4 ≤ s.coef.length) :
    extractTarget s = extractScan (min (carriedLength s) s.maxlen.toNat) { s with blk := 4 } := by
  rw [extractTarget, if_pos hel, if_neg (by omega), guarded_none, readPrefix_run hb hcoef]
  rfl

/-- Without `EMBED_LENGTH` the target is the caller's. -/
theorem extractTarget_of_caller {s : State} (hel : s.embedLength = false) :
    extractTarget s = guarded .extract (callerTargetCheck s) s (extractScan (callerTarget s) s) :=
  if_neg (by simp [hel])

/-- With ECC the raw bytes to read, rounded up to whole blocks, must fit `EBUF` (44_embed_extract.md R239). -/
theorem extractFitCheck_of_reedSolomon {s : State} (hm : s.eccMethod = .reedSolomon) (t : Nat) :
    extractFitCheck t s = fitsEbuf (eccBlockCeiling (blockLen s) (readableBytes t s)) s := by
  simp only [extractFitCheck, hm]

/-- `EXTRACT` whose raw bytes do not fit, for a length register or for `EBUF`. -/
theorem extractScan_of_not_fits {s : State} (hm : s.eccMethod = .reedSolomon) {t n : Nat}
    (hn : eccBlockCeiling (blockLen s) (readableBytes t s) = n) :
    (lenMax < n → extractScan t s = .next (scanFailed 5 0x52 s)) ∧
    (n ≤ lenMax → s.params.ebufSize.val < n → extractScan t s = .next (scanFailed 5 0x51 s)) := by
  have hcheck : extractFitCheck t s = fitsEbuf n s := hn ▸ extractFitCheck_of_reedSolomon hm t
  refine ⟨fun hbig => ?_, fun hle hsmall => ?_⟩
  · rw [extractScan, hcheck, fitsEbuf_of_overflow hbig, guarded_some, scanFailed_eq .extract rfl]
    rfl
  · rw [extractScan, hcheck, fitsEbuf_of_small hle hsmall, guarded_some, scanFailed_eq .extract rfl]
    rfl

/-- More bytes are no fewer blocks. -/
theorem eccBlockCeiling_mono (b : Nat) {x y : Nat} (h : x ≤ y) : eccBlockCeiling b x ≤ eccBlockCeiling b y :=
  Nat.mul_le_mul_right _ (Nat.div_le_div_right (by omega))

/-- Settles O51: each check of `EXTRACT` fails after the ones before it have passed. -/
theorem extractErrorsInOrder : Obligations.ExtractErrorsInOrder := by
  intro s hready z needs target n2 m2
  let v := setPhase .determineTargetLength (scanStart s)
  have hstart (h : needs → 2 ≤ msgCap s) : exec .extract s = extractTarget v :=
    extract_target hready (extractFrameCheck_none h)
  have hb (h2 : 2 ≤ msgCap s) : 1 ≤ blockLen s := le_trans (by omega) (h2.trans (Nat.sub_le ..))
  have hcaller (hm : s.eccMethod = .reedSolomon) (hel : s.embedLength = false) (h2 : 2 ≤ msgCap s) :
      exec .extract s =
        guarded .extract (if target > lenMax then some .overflow else none) v (extractScan target v) := by
    have htarget : callerTarget v = target := callerTarget_of_reedSolomon (s := v) hm (hb h2)
    rw [hstart fun _ => h2, extractTarget_of_caller (s := v) hel, callerTargetCheck_of_reedSolomon (s := v) hm,
      htarget]
  have hprefix (hm : s.eccMethod = .reedSolomon) (hel : s.embedLength = true)
      (hroom : s.framing = .lengthCarrying → 2 ≤ msgCap s) (h4 : 4 ≤ blockProduct s)
      (hcoef : 4 ≤ s.coef.length) :
      exec .extract s = extractScan (min (carriedLength s) s.maxlen.toNat) { v with blk := 4 } :=
    (hstart fun hneeds => hroom (hneeds.2.resolve_right (by simp [hel]))).trans
      (extractTarget_of_prefix (s := v) hel rfl h4 hcoef)
  refine ⟨fun hneeds hsmall => ?_, fun hroom hel hfew => ?_, fun hm hel h2 hbig => ?_,
    fun hm hel h2 hmax hsmall => ?_, fun hm hel hroom h4 hcoef _ hbig => ?_,
    fun hm hel hroom h4 hcoef _ hmax hsmall => ?_⟩
  · have hcheck : extractFrameCheck (scanStart s) = some .messageTooShort :=
      (if_pos ((extractNeedsLengthByte_iff s).2 hneeds)).trans (frameReady_of_lt_two hsmall)
    exact exec_extract_of_frameCheck_some hready hcheck
  · exact (hstart hroom).trans (extractTarget_of_few_blocks (s := v) hel hfew)
  · rw [hcaller hm hel h2, if_pos hbig, guarded_some, scanFailed_eq .extract rfl]
    rfl
  · have hle : n2 ≤ lenMax :=
      (eccBlockCeiling_mono (blockLen s) (Nat.min_le_left ..)).trans ((ceil_mul _ _ (hb h2)).trans_le hmax)
    rw [hcaller hm hel h2, if_neg (Nat.not_lt.2 hmax), guarded_none]
    exact (extractScan_of_not_fits (s := v) hm rfl).2 hle hsmall
  · rw [hprefix hm hel hroom h4 hcoef]
    exact (extractScan_of_not_fits (s := { v with blk := 4 }) hm rfl).1 hbig
  · rw [hprefix hm hel hroom h4 hcoef]
    exact (extractScan_of_not_fits (s := { v with blk := 4 }) hm rfl).2 hmax hsmall

end Sys2Proof.Machine

/-! ### The round trips of EMBED and EXTRACT -/

namespace Sys2Proof.Machine

/-! #### Two sessions with the same settings -/

section

variable {s t v : State}

/-- The settings of a third session. -/
theorem State.sameSettings.trans (h : s.sameSettings t) (h' : t.sameSettings v) : s.sameSettings v where
  params := h.params.trans h'.params
  nfreqs := h.nfreqs.trans h'.nfreqs
  freqs := h.freqs.trans h'.freqs
  wb := h.wb.trans h'.wb
  hb := h.hb.trans h'.hb
  embedLength := h.embedLength.trans h'.embedLength
  eccMethod := h.eccMethod.trans h'.eccMethod
  eccBlockLength := h.eccBlockLength.trans h'.eccBlockLength
  framing := h.framing.trans h'.framing

/-- The same slots are selected. -/
theorem State.sameSettings.slots_eq (h : s.sameSettings v) : slots v = slots s := by rw [slots, ← h.freqs, slots]

/-- The image has the same number of blocks. -/
theorem State.sameSettings.blockProduct_eq (h : s.sameSettings v) : blockProduct v = blockProduct s := by
  rw [blockProduct, ← h.wb, ← h.hb, blockProduct]

/-- A scan can start in the one session where it can in the other. -/
theorem State.sameSettings.slotsReady (h : s.sameSettings v) (hready : s.slotsReady) : v.slotsReady := by
  rwa [State.slotsReady, ← h.nfreqs, h.blockProduct_eq]

/-- The same slots and the same image carry the same bytes. -/
theorem State.sameChannel.carried_eq (h : t.sameChannel v) (n : Nat) : carried v n = carried t n := by
  rw [carried, h.slots_eq, ← h.coef, carried]

end

/-! #### What EMBED leaves -/

/-- `EMBED` that writes a raw byte, or has none to write, is no error and keeps the settings. -/
theorem exec_embed_of_written {s : State} (hready : s.slotsReady) (hfits : s.geometryFits) (henc : s.encodable)
    (hwf : Memory.wf s.ebuf = true) (hwritten : 0 < (rawBytes s).length → 0 < embedCount s) :
    ∃ t, exec .embed s = .next t ∧ t.err = 0 ∧ s.sameSettings t ∧ EmbeddedImage s t.coef ∧
      (s.eccMethod = .none → t.result.toNat = embedCount s) ∧
      (s.eccMethod = .reedSolomon → embedCount s = (rawBytes s).length → t.result = s.len) := by
  obtain ⟨t, ht, hframe, himage, hnone, hecc⟩ := embedWritesPrefixThenRawBytes s hready hfits henc hwf hwritten
  refine ⟨t, ht, by rw [hframe]; rfl, ?_, himage, fun hm => (hnone hm).1, fun hm => (hecc hm).2.2.1⟩
  rw [hframe]
  exact ⟨rfl, rfl, rfl, rfl, rfl, rfl, rfl, rfl, rfl⟩

/-- The length takes four blocks. -/
theorem prefixBlocks_of_embedLength {s : State} (hel : s.embedLength = true) : prefixBlocks s = 4 := if_pos hel

/-- An image that the length fits has its four bytes. -/
theorem embedPrefix_of_embedLength {s : State} (hel : s.embedLength = true) (h4 : 4 ≤ blockProduct s) :
    embedPrefix s = 4 := by
  rw [embedPrefix, prefixBlocks_of_embedLength hel, Nat.min_eq_left h4]

section

variable {s t : State} (hset : s.sameSettings t) (himage : EmbeddedImage s t.coef) (hdistinct : s.distinctSlots)
  (hfits : s.geometryFits) (hpre : embedPrefix s = 4)
include hset himage hdistinct hfits hpre

/-- Blocks 0 to 3 carry the number of raw bytes. -/
theorem carriedLength_of_embedded (h4 : 4 ≤ blockProduct s) (hmax : (rawBytes s).length < 2 ^ 32) :
    carriedLength t = (rawBytes s).length :=
  carriedLength_of_bytes hmax fun n hn =>
    carried_of_packed hdistinct hset.slots_eq (lt_of_lt_of_le (by omega) hfits) ((himage n).trans (if_pos (by omega)))

/-- The blocks after them carry the raw bytes. -/
theorem carried_of_embedded {j : Nat} (hj : j < embedCount s) : carried t (4 + j) = (rawBytes s).getD j 0 := by
  have hblock : t.coef[4 + j]? = (s.coef[4 + j]?).map (packBlock (slots s) ((rawBytes s).getD j 0)) := by
    rw [himage, if_neg (by omega), if_pos (by omega), hpre, Nat.add_sub_cancel_left]
  have hlt : 4 + j < blockProduct s := by unfold embedCount at hj; omega
  exact carried_of_packed hdistinct hset.slots_eq (lt_of_lt_of_le hlt hfits) hblock

end

/-! #### Without ECC -/

/-- Without ECC `EXTRACT` returns the bytes that the blocks after the length carry, as many as it says and the image
has. -/
theorem exec_extract_carried {v : State} (hready : v.slotsReady) (hfits : v.geometryFits) (hm : v.eccMethod = .none)
    (hel : v.embedLength = true) (h4 : 4 ≤ blockProduct v) (hwf : Memory.wf v.pbuf = true) :
    let n := min (carriedLength v) (blockProduct v - 4)
    n ≤ v.maxlen.toNat →
    ∃ u, exec .extract v = .next u ∧ u.err = 0 ∧ u.result = BitVec.ofNat 32 n ∧ u.len = BitVec.ofNat 32 n ∧
      ∀ a < n, pbufByte u a = carried v (4 + a) := by
  intro n hmax
  have hpre : prefixBlocks v = 4 := prefixBlocks_of_embedLength hel
  have hn : min (if v.embedLength then min (carriedLength v) v.maxlen.toNat else v.arg0.toNat)
      (blockProduct v - prefixBlocks v) = n := by
    rw [if_pos hel, hpre]; omega
  obtain ⟨u, hu, hwhole, -, hbytes⟩ := extractDeliversTheCarriedBytes v hready hfits hm hwf (hpre.trans_le h4)
  rw [hn] at hwhole hbytes
  have hend := hwhole hmax
  refine ⟨u, hu, by rw [hend]; rfl, by rw [hend]; rfl, by rw [hend], fun a ha => ?_⟩
  rw [hbytes, if_pos (by omega), hpre]

/-- Without ECC `EXTRACT` returns the leading bytes of the payload that `EMBED` wrote, as many as the image has
blocks for (44_embed_extract.md R249 a, c). -/
theorem extract_embed_leading {s : State} (hs : s.Legal) (hready : s.slotsReady) (hfits : s.geometryFits)
    (hdistinct : s.distinctSlots) (hm : s.eccMethod = .none) (hel : s.embedLength = true) (h4 : 4 ≤ blockProduct s)
    (hsome : 0 < s.len.toNat → 4 < blockProduct s) :
    let n := min s.len.toNat (blockProduct s - 4)
    ∃ t, exec .embed s = .next t ∧ t.err = 0 ∧ t.result.toNat = n ∧
      ∀ v : State, v.Legal → t.sameChannel v → n ≤ v.maxlen.toNat →
        ∃ u, exec .extract v = .next u ∧ u.err = 0 ∧ u.result = t.result ∧ u.len = t.result ∧
          ∀ a < n, pbufByte u a = pbufByte s a := by
  intro n
  have hpre : embedPrefix s = 4 := embedPrefix_of_embedLength hel h4
  have hraw : rawBytes s = pbufBytes s s.len.toNat := by simp only [rawBytes, hm]
  have hlen : (rawBytes s).length = s.len.toNat := by rw [hraw, pbufBytes_length]
  have hcount : embedCount s = n := by rw [embedCount, hlen, hpre]
  have henc : s.encodable := by simp [State.encodable, hm]
  obtain ⟨t, ht, herr, hset, himage, hresult, -⟩ :=
    exec_embed_of_written hready hfits henc hs.ebufForm (by rw [hlen, hcount]; omega)
  refine ⟨t, ht, herr, (hresult hm).trans hcount, fun v hv hchannel hmax => ?_⟩
  have hsv := hset.trans hchannel.tosameSettings
  have hprod := hsv.blockProduct_eq
  have hfits' : v.geometryFits := by
    rw [State.geometryFits, hprod, ← hchannel.coef, (exec_coefKept ht).length]
    exact hfits
  have hlength : carriedLength v = s.len.toNat := by
    rw [← hlen, ← carriedLength_of_embedded hset himage hdistinct hfits hpre h4 (hlen ▸ s.len.isLt)]
    simp only [carriedLength, hchannel.carried_eq]
  obtain ⟨u, hu, herr', hresult', hlen', hbytes⟩ := exec_extract_carried (hsv.slotsReady hready) hfits'
    (hsv.eccMethod ▸ hm) (hsv.embedLength ▸ hel) (hprod ▸ h4) hv.pbufForm (by rwa [hlength, hprod])
  rw [hlength, hprod] at hresult' hlen' hbytes
  have hword : BitVec.ofNat 32 n = t.result := by
    rw [← hcount, ← hresult hm, BitVec.ofNat_toNat, BitVec.setWidth_eq]
  refine ⟨u, hu, herr', hresult'.trans hword, hlen'.trans hword, fun a ha => ?_⟩
  rw [hbytes a ha, hchannel.carried_eq, carried_of_embedded hset himage hdistinct hfits hpre (hcount ▸ ha), hraw,
    pbufBytes_getD s (by omega)]

/-- Settles O52: the image has blocks for the whole payload. -/
theorem extractInvertsEmbedWithoutEcc : Obligations.ExtractInvertsEmbedWithoutEcc := by
  intro s hs hready hfits hdistinct hm hel hroom
  obtain ⟨t, ht, herr, hresult, hback⟩ :=
    extract_embed_leading hs hready hfits hdistinct hm hel (by omega) (by omega)
  have hn : min s.len.toNat (blockProduct s - 4) = s.len.toNat := by omega
  rw [hn] at hresult hback
  have hword : t.result = s.len := BitVec.eq_of_toNat_eq hresult
  rw [hword] at hback
  exact ⟨t, ht, herr, hword, hback⟩

/-- Settles O54: the image has blocks for a part of the payload alone. -/
theorem truncatedEmbedExtractsItsLeadingBytes : Obligations.TruncatedEmbedExtractsItsLeadingBytes := by
  intro s hs hready hfits hdistinct hm hel h4 hcut
  obtain ⟨t, ht, herr, hresult, hback⟩ :=
    extract_embed_leading hs hready hfits hdistinct hm hel (Nat.le_of_lt h4) fun _ => h4
  have hn : min s.len.toNat (blockProduct s - 4) = blockProduct s - 4 := by omega
  rw [hn] at hresult hback
  exact ⟨t, ht, herr, hresult, by omega, by rwa [hresult]⟩

/-! #### With length-carrying ECC -/

/-- A byte that `EXTRACT` stored is the byte that its block carries. -/
theorem extractBuffer_getD {s : State} {k : Nat} (h : k < extractCount s) :
    (extractBuffer s).getD k 0 = carried s (prefixBlocks s + k) := by
  rw [extractBuffer, List.getD_append _ _ _ _ (by rwa [extractRaw_length])]
  simp [extractRaw, h]

/-- What `EXTRACT` reports and returns where the bytes that it stored decode to a payload that fits `MAXLEN`. -/
theorem extractDecode_of_fits {s : State} {p : List Byte} (hb : 1 ≤ blockLen s) (hwfe : Memory.wf s.ebuf = true)
    (hwfp : Memory.wf s.pbuf = true) (hfit : p.length ≤ s.maxlen.toNat)
    (hdecoded : extractDecoded (eccBlockCeiling (blockLen s) (extractCount s)) s (extractBuffer s) = some p) :
    let u := extractDecode (eccBlockCeiling (blockLen s) (extractCount s)) (extractStored s)
    u.err = 0 ∧ u.result = BitVec.ofNat 32 p.length ∧ u.len = BitVec.ofNat 32 p.length ∧
      ∀ a < p.length, pbufByte u a = p.getD a 0 := by
  intro u
  obtain ⟨hwhole, -, hbytes⟩ := deliver_extract_spec (s := extractStored s) hwfp p
  have hu : u = deliver .extract p (setPhase .done (extractStored s)) :=
    extractDecode_of_some ((extractDecoded_stored hb hwfe).trans hdecoded)
  rw [← hu] at hwhole hbytes
  have hend := hwhole hfit
  refine ⟨by rw [hend]; rfl, by rw [hend]; rfl, by rw [hend], fun a ha => ?_⟩
  exact (hbytes a).trans (if_pos (ha.trans_eq (Nat.min_eq_left hfit).symm))

section

variable {s : State} (hm : s.eccMethod = .reedSolomon) (hframing : s.framing = .lengthCarrying)
include hm hframing

/-- The raw bytes are the length-carrying encoding of the payload by the port. -/
theorem rawBytes_of_lengthCarrying :
    rawBytes s = lcEncode (rsEnc (blockLen s) s.params.npar) (msgCap s) (pbufBytes s s.len.toNat) := by
  simp only [rawBytes, hm, hframing]
  rfl

/-- They are whole ECC blocks (42_ecc_framer.md R171). -/
theorem rawBytes_length_of_lengthCarrying :
    (rawBytes s).length = (s.len.toNat / (msgCap s - 1) + 1) * blockLen s := by
  rw [rawBytes_of_lengthCarrying hm hframing, lcEncode_length fun _ => rsEnc_length .., pbufBytes_length]

/-- They are no fewer than the bytes of the payload. -/
theorem len_le_rawBytes_length (h2 : 2 ≤ msgCap s) : s.len.toNat ≤ (rawBytes s).length := by
  have hpayload : s.len.toNat < (s.len.toNat / (msgCap s - 1) + 1) * (msgCap s - 1) :=
    Nat.lt_mul_of_div_lt (Nat.lt_succ_self _) (by omega)
  have hblocks : msgCap s - 1 ≤ blockLen s := (Nat.sub_le ..).trans (Nat.sub_le ..)
  rw [rawBytes_length_of_lengthCarrying hm hframing]
  exact hpayload.le.trans (Nat.mul_le_mul_left _ hblocks)

variable {v : State} (hset : s.sameSettings v) (h2 : 2 ≤ msgCap s)
  (hfew : ∀ i < s.len.toNat / (msgCap s - 1) + 1,
    changedCount (blockLen s) (fun j => carried v (prefixBlocks v + (i * blockLen s + j)))
      (fun j => (rawBytes s).getD (i * blockLen s + j) 0) ≤ s.params.npar.val / 2)
include hset h2 hfew

/-- The raw bytes that `EXTRACT` stored decode to the payload, where no more blocks of each ECC block carry another
byte than the port corrects (42_ecc_framer.md R163, R177). -/
theorem extractDecoded_received (hcount : extractCount v = (rawBytes s).length) :
    extractDecoded (rawBytes s).length v (extractBuffer v) = some (pbufBytes s s.len.toNat) ∧
      eccBlockCeiling (blockLen v) (extractCount v) = (rawBytes s).length := by
  obtain ⟨hb, hmsg, hdec⟩ := decoder_congr hset.params.symm hset.eccBlockLength.symm
  have hpos : 1 ≤ blockLen v := hb ▸ le_trans (by omega) (h2.trans (Nat.sub_le ..))
  have hlen := rawBytes_length_of_lengthCarrying hm hframing
  have hceil : eccBlockCeiling (blockLen v) (extractCount v) = (rawBytes s).length := by
    rw [hcount, hb, hlen]
    exact ceil_mul _ _ (hb ▸ hpos)
  have hbuffer : (extractBuffer v).length = (rawBytes s).length := (extractBuffer_length hpos).trans hceil
  have hmax : blockLen s ≤ 255 := Nat.le_of_lt_succ s.eccBlockLength.isLt
  refine ⟨?_, hceil⟩
  simp only [extractDecoded, ← hset.framing, hframing, hb, hmsg, hdec]
  refine lcDecode_received (m := msgCap s) hmax rfl h2 _ _ (by rw [hbuffer, hlen, pbufBytes_length]) fun i hi => ?_
  rw [pbufBytes_length] at hi
  rw [← rawBytes_of_lengthCarrying hm hframing]
  refine (changedCount_congr (fun j hj => ?_) fun _ _ => rfl).trans_le (hfew i hi)
  exact extractBuffer_getD (by rw [hcount, hlen]; exact block_byte_lt hi hj)

/-- `EXTRACT` of an image that carries the raw bytes but for such changes returns the payload. -/
theorem exec_extract_received (hv : v.Legal) (hready : v.slotsReady) (hfits : v.geometryFits)
    (hel : v.embedLength = true) (hlength : carriedLength v = (rawBytes s).length)
    (hroom : 4 + (rawBytes s).length ≤ blockProduct v) (hsize : (rawBytes s).length ≤ s.params.ebufSize.val)
    (hmaxlen : (rawBytes s).length ≤ v.maxlen.toNat) :
    ∃ u, exec .extract v = .next u ∧ u.err = 0 ∧ u.result = s.len ∧ u.len = s.len ∧
      ∀ a < s.len.toNat, pbufByte u a = pbufByte s a := by
  have hpre : prefixBlocks v = 4 := prefixBlocks_of_embedLength hel
  have hgoal : extractGoal v = (rawBytes s).length := by rw [extractGoal, if_pos hel, hlength, Nat.min_eq_left hmaxlen]
  have hcount : extractCount v = (rawBytes s).length := by rw [extractCount, hgoal, hpre]; omega
  obtain ⟨hdecoded, hceil⟩ := extractDecoded_received hm hframing hset h2 hfew hcount
  rw [← hceil] at hdecoded
  have hmsg : msgCap v = msgCap s := (decoder_congr hset.params.symm hset.eccBlockLength.symm).2.1
  have hrun := exec_extract_stored hready hfits (hset.eccMethod ▸ hm) (fun _ => hmsg ▸ h2) (by omega)
    (by have := hready.2; omega) (by rw [hceil, ← hset.params]; exact hsize)
  have hpos : 1 ≤ blockLen v := le_trans (by omega) hv.blockLength
  have hfit : (pbufBytes s s.len.toNat).length ≤ v.maxlen.toNat := by
    rw [pbufBytes_length]
    exact (len_le_rawBytes_length hm hframing h2).trans hmaxlen
  obtain ⟨herr, hresult, hlen, hbytes⟩ := extractDecode_of_fits hpos hv.ebufForm hv.pbufForm hfit hdecoded
  have hword : BitVec.ofNat 32 (pbufBytes s s.len.toNat).length = s.len := by
    rw [pbufBytes_length, BitVec.ofNat_toNat, BitVec.setWidth_eq]
  refine ⟨_, hrun, herr, hresult.trans hword, hlen.trans hword, fun a ha => ?_⟩
  rw [hbytes a (by rwa [pbufBytes_length]), pbufBytes_getD s ha]

end

/-- Settles O53: the image carries the encoded payload but for changes that the port corrects. -/
theorem extractInvertsEmbedWithEcc : Obligations.ExtractInvertsEmbedWithEcc := by
  intro s hs hready hfits hdistinct hm hframing hel h2 nb hroom hsize
  have hpre : embedPrefix s = 4 := embedPrefix_of_embedLength hel (by omega)
  have hlen : (rawBytes s).length = nb * blockLen s := rawBytes_length_of_lengthCarrying hm hframing
  have hcount : embedCount s = (rawBytes s).length := by rw [embedCount, hpre]; omega
  have henc : s.encodable := fun _ => by
    rw [hframing, encodeCheck_of_frameReady (frameReady_of_two_le h2 _)]
    exact fitsEbuf_of_le hsize
  obtain ⟨t, ht, herr, hset, himage, -, hresult⟩ :=
    exec_embed_of_written hready hfits henc hs.ebufForm (by rw [hcount]; exact id)
  refine ⟨t, ht, herr, hresult hm hcount, fun v hv hsettings hfits' hprefix hfew hmaxlen => ?_⟩
  have hsv := hset.trans hsettings
  have hel' : v.embedLength = true := hsv.embedLength ▸ hel
  have hword : (rawBytes s).length < 2 ^ 32 := by have := s.params.ebufSize.isLt; omega
  have hlength : carriedLength v = (rawBytes s).length := by
    rw [← carriedLength_of_embedded hset himage hdistinct hfits hpre (by omega) hword]
    simp only [carriedLength, hprefix 0 (by omega), hprefix 1 (by omega), hprefix 2 (by omega), hprefix 3 (by omega)]
  refine exec_extract_received hm hframing hsv h2 (fun i hi => ?_) hv (hsv.slotsReady hready) hfits' hel' hlength
    (by rw [hlen, hsv.blockProduct_eq]; exact hroom) (hlen ▸ hsize) (hlen ▸ hmaxlen)
  refine le_of_eq_of_le (changedCount_congr (fun j _ => ?_) fun j hj => ?_) (hfew i hi)
  · rw [prefixBlocks_of_embedLength hel', Nat.add_assoc]
  · have hj' : i * blockLen s + j < embedCount s := by rw [hcount, hlen]; exact block_byte_lt hi hj
    rw [Nat.add_assoc, carried_of_embedded hset himage hdistinct hfits hpre hj']

end Sys2Proof.Machine

/-! ### The two state machines -/

namespace Sys2Proof.Machine

/-! #### Runs of transitions -/

/-- Some number of transitions from `r` ends as the outcome says: in its state, or with its fault. -/
def RunsTo (next : ScanRun → Except Fault ScanRun) (r : ScanRun) : Host.Outcome State Fault Refusal → Prop
  | .next t => ∃ n r', runTransitions next n r = .ok r' ∧ r'.st = t
  | .fault f => ∃ n, runTransitions next n r = .error f
  | .refused _ => False

section

variable {next : ScanRun → Except Fault ScanRun} {r r' : ScanRun} {o : Host.Outcome State Fault Refusal}

/-- No transition. -/
theorem RunsTo.here (r : ScanRun) : RunsTo next r (.next r.st) := ⟨0, r, rfl, rfl⟩

/-- One transition, then the rest of the run. -/
theorem RunsTo.step (h : next r = .ok r') (hrest : RunsTo next r' o) : RunsTo next r o := by
  have hrun (n : Nat) : runTransitions next (n + 1) r = runTransitions next n r' := by rw [runTransitions, h]
  cases o with
  | next t =>
    obtain ⟨n, r'', hn, hst⟩ := hrest
    exact ⟨n + 1, r'', (hrun n).trans hn, hst⟩
  | fault f =>
    obtain ⟨n, hn⟩ := hrest
    exact ⟨n + 1, (hrun n).trans hn⟩
  | refused _ => exact hrest.elim

/-- One transition that ends the run. -/
theorem RunsTo.last (h : next r = .ok r') : RunsTo next r (.next r'.st) := .step h (.here r')

/-- A transition that stops. -/
theorem RunsTo.stop {f : Fault} (h : next r = .error f) : RunsTo next r (.fault f) := ⟨1, by rw [runTransitions, h]⟩

/-- What the statements on the two machines say of a run. -/
theorem RunsTo.exists_count (h : RunsTo next r o) (hphase : ∀ t, o = .next t → t.phase = .done) : ∃ n,
    (∀ t, o = .next t → ∃ r', runTransitions next n r = .ok r' ∧ r'.st = t ∧ t.phase = .done) ∧
    (∀ f, o = .fault f → runTransitions next n r = .error f) := by
  cases o with
  | next t =>
    obtain ⟨n, r', hn, hst⟩ := h
    refine ⟨n, fun u hu => ?_, fun f hf => (by cases hf)⟩
    obtain rfl := Host.Outcome.next.inj hu
    exact ⟨r', hn, hst, hphase t rfl⟩
  | fault f =>
    obtain ⟨n, hn⟩ := h
    refine ⟨n, fun u hu => (by cases hu), fun g hg => ?_⟩
    obtain rfl := Host.Outcome.fault.inj hg
    exact hn
  | refused _ => exact h.elim

end

/-- Go on with what a loop of a scan computed, unless it stopped at a missing block. -/
def afterLoop {α : Type} (x : Except Fault α) (go : α → Host.Outcome State Fault Refusal) :
    Host.Outcome State Fault Refusal :=
  match x with
  | .ok a => go a
  | .error f => .fault f

/-! #### EMBED -/

section

variable {r : ScanRun}

/-- A transition that writes a raw byte. -/
theorem embedTransition_payload (hphase : r.st.phase = .scanWritePayload)
    (h : r.st.k.toNat < r.bytes.length ∧ r.st.blk.toNat < blockProduct r.st) :
    embedTransition r = (packByte (r.bytes.getD r.st.k.toNat 0) r.st.blk.toNat r.st).map
      fun t => { r with st := nextByte t } := by
  simp only [embedTransition, hphase, if_pos h]
  cases packByte (r.bytes.getD r.st.k.toNat 0) r.st.blk.toNat r.st <;> rfl

/-- The transition that ends the scan. -/
theorem embedTransition_payload_end (hphase : r.st.phase = .scanWritePayload)
    (h : ¬ (r.st.k.toNat < r.bytes.length ∧ r.st.blk.toNat < blockProduct r.st)) :
    embedTransition r = .ok { r with st := embedResult r.bytes.length (setPhase .done r.st) } := by
  simp only [embedTransition, hphase, if_neg h]

/-- A transition that writes a byte of the length. -/
theorem embedTransition_prefix (hphase : r.st.phase = .scanWriteLength)
    (h : r.st.embedLength ∧ r.st.blk.toNat < 4 ∧ r.st.blk.toNat < blockProduct r.st) :
    embedTransition r = (packByte (lengthByte r.bytes.length r.st.blk.toNat) r.st.blk.toNat r.st).map
      fun t => { r with st := nextBlock t } := by
  simp only [embedTransition, hphase, if_pos h]
  cases packByte (lengthByte r.bytes.length r.st.blk.toNat) r.st.blk.toNat r.st <;> rfl

/-- The transition after the length bytes. -/
theorem embedTransition_prefix_end (hphase : r.st.phase = .scanWriteLength)
    (h : ¬ (r.st.embedLength ∧ r.st.blk.toNat < 4 ∧ r.st.blk.toNat < blockProduct r.st)) :
    embedTransition r = .ok (r.go .scanWritePayload r.st) := by
  simp only [embedTransition, hphase, if_neg h]

end

/-- The first of the bytes still to write, and those after it. -/
theorem drop_eq_cons {bytes rest : List Byte} {k : Nat} {v : Byte} (h : bytes.drop k = v :: rest) :
    k < bytes.length ∧ bytes.getD k 0 = v ∧ bytes.drop (k + 1) = rest := by
  have hlt : k < bytes.length := by
    by_contra hge
    rw [List.drop_eq_nil_of_le (by omega)] at h
    cases h
  rw [List.drop_eq_getElem_cons hlt, List.cons.injEq] at h
  exact ⟨hlt, (List.getD_eq_getElem _ _ hlt).trans h.1, h.2⟩

/-- The run in `ScanWritePayload`, for the raw bytes still to write. -/
theorem runsTo_writePayload (rest : List Byte) (r : ScanRun) (hphase : r.st.phase = .scanWritePayload)
    (hrest : r.bytes.drop r.st.k.toNat = rest) (hk : r.st.k.toNat ≤ r.st.blk.toNat)
    (hn : blockProduct r.st ≤ lenMax) :
    RunsTo embedTransition r (afterLoop (writePayload (blockProduct r.st) rest r.st)
      fun t => .next (embedResult r.bytes.length (setPhase .done t))) := by
  have hword : blockProduct r.st < 2 ^ 32 := lt_of_le_of_lt hn (by decide)
  induction rest generalizing r with
  | nil =>
    have hdone := List.drop_eq_nil_iff.1 hrest
    exact .last (embedTransition_payload_end hphase (by omega))
  | cons v rest ih =>
    obtain ⟨hlt, hbyte, htail⟩ := drop_eq_cons hrest
    simp only [writePayload]
    split
    next hblk =>
      have hstep := embedTransition_payload hphase ⟨hlt, hblk⟩
      rw [hbyte] at hstep
      cases hpack : packByte v r.st.blk.toNat r.st with
      | error f => exact .stop (by rw [hstep, hpack]; rfl)
      | ok t =>
        obtain ⟨blk, -, rfl⟩ := packByte_ok.1 hpack
        rw [hpack] at hstep
        have hblk' := blk_succ hblk hword
        have hk' := blk_succ (lt_of_le_of_lt hk hblk) hword
        refine .step hstep (ih _ hphase ?_ ?_ hn hword)
        · exact (congrArg r.bytes.drop hk').trans htail
        · exact (hk'.trans_le (Nat.succ_le_succ hk)).trans_eq hblk'.symm
    next hblk => exact .last (embedTransition_payload_end hphase (by omega))

/-- Byte `i` of a length. -/
theorem lengthBytes_getD (t : Nat) {i : Nat} (h : i < 4) : (lengthBytes t).getD i 0 = lengthByte t i := by
  interval_cases i <;> rfl

/-- The run in `ScanWriteLength` with `EMBED_LENGTH`, for the bytes of the length still to write. -/
theorem runsTo_writePrefix (rest : List Byte) (r : ScanRun) (go : State → Host.Outcome State Fault Refusal)
    (hphase : r.st.phase = .scanWriteLength) (hel : r.st.embedLength = true)
    (hrest : (lengthBytes r.bytes.length).drop r.st.blk.toNat = rest) (hb : r.st.blk.toNat ≤ blockProduct r.st)
    (hn : blockProduct r.st ≤ lenMax)
    (hgo : ∀ t, writePrefix (blockProduct r.st) rest r.st = .ok t →
      RunsTo embedTransition (r.go .scanWritePayload t) (go t)) :
    RunsTo embedTransition r (afterLoop (writePrefix (blockProduct r.st) rest r.st) go) := by
  induction rest generalizing r with
  | nil =>
    have hdone : 4 ≤ r.st.blk.toNat := List.drop_eq_nil_iff.1 hrest
    exact .step (embedTransition_prefix_end hphase (by omega)) (hgo _ rfl)
  | cons v rest ih =>
    obtain ⟨hlt, hbyte, htail⟩ := drop_eq_cons hrest
    rw [lengthBytes_getD _ hlt] at hbyte
    simp only [writePrefix] at hgo ⊢
    split
    next hblk =>
      rw [if_pos hblk] at hgo
      exact .step (embedTransition_prefix_end hphase (by omega)) (hgo _ rfl)
    next hblk =>
      rw [if_neg hblk] at hgo
      have hlt' : r.st.blk.toNat < blockProduct r.st := by omega
      have hstep := embedTransition_prefix hphase ⟨hel, hlt, hlt'⟩
      rw [hbyte] at hstep
      cases hpack : packByte v r.st.blk.toNat r.st with
      | error f => exact .stop (by rw [hstep, hpack]; rfl)
      | ok t =>
        obtain ⟨blk, -, rfl⟩ := packByte_ok.1 hpack
        rw [hpack] at hstep hgo
        have hblk' := blk_succ hlt' (lt_of_le_of_lt hn (by decide))
        refine .step hstep (ih _ hphase hel ?_ ?_ hn hgo)
        · exact (congrArg (lengthBytes r.bytes.length).drop hblk').trans htail
        · exact hblk'.trans_le hlt'

/-- The scan of `EMBED` as its loops. -/
theorem settle_embedScan (n : Nat) (d : List Byte) (s : State) :
    settle (embedScan n d s) =
      afterLoop (if s.embedLength then writePrefix n (lengthBytes d.length) (setPhase .scanWriteLength s)
          else .ok (setPhase .scanWriteLength s)) fun t =>
        afterLoop (writePayload n d (setPhase .scanWritePayload t)) fun u =>
          .next (embedResult d.length (setPhase .done u)) := by
  simp only [embedScan]
  cases (if s.embedLength then writePrefix n (lengthBytes d.length) (setPhase .scanWriteLength s)
      else .ok (setPhase .scanWriteLength s)) with
  | error f => rfl
  | ok t => simp only [afterLoop]; cases writePayload n d (setPhase .scanWritePayload t) <;> rfl

/-- The run from `ScanWriteLength` on. -/
theorem runsTo_embedScan (d : List Byte) (k : Nat) {s : State} (hb : s.blk = 0) (hk : s.k = 0)
    (hn : blockProduct s ≤ lenMax) :
    RunsTo embedTransition { st := setPhase .scanWriteLength s, bytes := d, target := k }
      (settle (embedScan (blockProduct s) d s)) := by
  rw [settle_embedScan]
  split
  next hel =>
    refine runsTo_writePrefix _ _ _ rfl hel (by simp [hb]) (by simp [hb]) hn fun t ht => ?_
    have hframe := (writePrefix_ok ht (by simp [hb]) (lt_of_le_of_lt hn (by decide))).1
    have hprod : blockProduct t = blockProduct s := by rw [hframe]; rfl
    have hk' : t.k = 0 := by rw [hframe]; exact hk
    have hrun := runsTo_writePayload d { st := setPhase .scanWritePayload t, bytes := d, target := k } rfl
      (by simp [hk']) (by simp [hk']) (hprod.trans_le hn)
    rwa [setPhase_blockProduct, hprod] at hrun
  next hel =>
    refine .step (embedTransition_prefix_end rfl fun h => hel h.1) ?_
    exact runsTo_writePayload d
      { st := setPhase .scanWritePayload (setPhase .scanWriteLength s), bytes := d, target := k }
      rfl (by simp [hk]) (by simp [hk]) hn

/-- The run in `EccEncode` (44_embed_extract.md R225). -/
theorem runsTo_eccEncode {s : State} (hb : s.blk = 0) (hk : s.k = 0) (hn : blockProduct s ≤ lenMax) :
    RunsTo embedTransition { st := setPhase .eccEncode s, bytes := [], target := 0 }
      (guarded .embed (encodeCheck s.framing (setPhase .eccEncode s)) (setPhase .eccEncode s)
        (settle (embedScan (blockProduct s) (encodedPayload s.framing (setPhase .eccEncode s))
          (storeEbuf (encodedPayload s.framing (setPhase .eccEncode s)) (setPhase .eccEncode s))))) := by
  cases hcheck : encodeCheck s.framing (setPhase .eccEncode s) with
  | some c =>
    refine .last (r' := ScanRun.stop .embed c (setPhase .eccEncode s) ⟨setPhase .eccEncode s, [], 0⟩) ?_
    simp only [embedTransition, setPhase_phase, setPhase_framing, hcheck]
  | none =>
    have hstep : embedTransition { st := setPhase .eccEncode s, bytes := [], target := 0 } =
        .ok { st := setPhase .scanWriteLength
                (storeEbuf (encodedPayload s.framing (setPhase .eccEncode s)) (setPhase .eccEncode s))
              bytes := encodedPayload s.framing (setPhase .eccEncode s)
              target := 0 } := by
      simp only [embedTransition, setPhase_phase, setPhase_framing, hcheck]
      rfl
    exact .step hstep (runsTo_embedScan _ _ hb hk hn)

/-- The whole run of `EMBED`. -/
theorem runsTo_execEmbed (s : State) : RunsTo embedTransition (ScanRun.start s) (execEmbed s) := by
  obtain ⟨hb, hk, hprod⟩ := ensureSelection_scanStart s
  simp only [execEmbed]
  cases hcheck : selectCheck (scanStart s) with
  | some c =>
    refine .last (r' := (ScanRun.start s).stop .embed c (ensureSelection (scanStart s)).1) ?_
    simp only [embedTransition, ScanRun.start, scanStart_phase, hcheck]
  | none =>
    have hn := hprod.trans_le (selectCheck_none hcheck).2
    rw [guarded_none, embedRaw]
    cases hm : (ensureSelection (scanStart s)).1.eccMethod with
    | none =>
      refine .step ?_ (runsTo_embedScan _ 0 hb hk hn)
      simp only [embedTransition, ScanRun.start, scanStart_phase, hcheck, hm]
      rfl
    | reedSolomon =>
      refine .step ?_ (runsTo_eccEncode hb hk hn)
      simp only [embedTransition, ScanRun.start, scanStart_phase, hcheck, hm]
      rfl

/-- Settles O55: every loop of `EMBED` is a run of its machine. -/
theorem embedRunsItsStateMachine : Obligations.EmbedRunsItsStateMachine := fun s =>
  (runsTo_execEmbed s).exists_count fun _ => execEmbed_phase

/-! #### EXTRACT -/

section

variable {r : ScanRun}

/-- A transition that reads a raw byte. -/
theorem extractTransition_payload (hphase : r.st.phase = .scanReadPayload) (h : r.st.k.toNat < r.target) :
    extractTransition r = (unpackByte r.st.blk.toNat r.st).map
      fun v => { r with st := nextByte r.st, bytes := r.bytes ++ [v] } := by
  simp only [extractTransition, hphase, if_pos h]
  cases unpackByte r.st.blk.toNat r.st <;> rfl

/-- A transition that reads a byte of the length. -/
theorem extractTransition_prefix (hphase : r.st.phase = .determineTargetLength) (hel : r.st.embedLength = true)
    (h4 : 4 ≤ blockProduct r.st) (h : r.bytes.length < 4) :
    extractTransition r = (unpackByte r.st.blk.toNat r.st).map
      fun v => { r with st := nextBlock r.st, bytes := r.bytes ++ [v] } := by
  simp only [extractTransition, hphase, hel, if_true, if_neg (Nat.not_lt.2 h4), if_pos h]
  cases unpackByte r.st.blk.toNat r.st <;> rfl

/-- The transition after the length bytes. -/
theorem extractTransition_prefix_end (hphase : r.st.phase = .determineTargetLength) (hel : r.st.embedLength = true)
    (h4 : 4 ≤ blockProduct r.st) (h : r.bytes.length = 4) :
    extractTransition r = .ok (r.toPayload (min (lengthOfBytes 0 r.bytes) r.st.maxlen.toNat) r.st) := by
  simp only [extractTransition, hphase, hel, if_true, if_neg (Nat.not_lt.2 h4), h, lt_self_iff_false, if_false]

/-- The end of the run, once the raw bytes are read. -/
theorem runsTo_extractEnd (hphase : r.st.phase = .scanReadPayload) (h : r.target ≤ r.st.k.toNat) :
    RunsTo extractTransition r (.next (extractEnd r.bytes r.st)) := by
  unfold extractEnd
  cases hm : r.st.eccMethod with
  | none =>
    refine .last (r' := { r with st := deliver .extract r.bytes (setPhase .done r.st) }) ?_
    simp only [extractTransition, hphase, if_neg (Nat.not_lt.2 h), hm]
  | reedSolomon =>
    refine .step (r' := { r with st := storeRaw r.bytes (setPhase .eccDecode r.st) }) ?_ (.last (r' := { r with
      st := extractDecode (eccBlockCeiling (blockLen r.st) r.bytes.length)
        (storeRaw r.bytes (setPhase .eccDecode r.st)) }) rfl)
    simp only [extractTransition, hphase, if_neg (Nat.not_lt.2 h), hm]

end

/-- One byte of `read_payload`, then the rest. -/
theorem afterLoop_readPayload {s : State} {v : Byte} (h : unpackByte s.blk.toNat s = .ok v) (count : Nat)
    (go : List Byte × State → Host.Outcome State Fault Refusal) :
    afterLoop (readPayload (count + 1) s) go =
      afterLoop (readPayload count (nextByte s)) fun p => go (v :: p.1, p.2) := by
  simp only [readPayload, h]
  cases readPayload count (nextByte s) <;> rfl

/-- One byte of `read_prefix`, then the rest. -/
theorem afterLoop_readPrefix {s : State} {v : Byte} (h : unpackByte s.blk.toNat s = .ok v) (count : Nat)
    (go : List Byte × State → Host.Outcome State Fault Refusal) :
    afterLoop (readPrefix (count + 1) s) go =
      afterLoop (readPrefix count (nextBlock s)) fun p => go (v :: p.1, p.2) := by
  simp only [readPrefix, h]
  cases readPrefix count (nextBlock s) <;> rfl

/-- The run in `ScanReadPayload`, for the number of raw bytes still to read. -/
theorem runsTo_readPayload (count : Nat) (r : ScanRun) (hphase : r.st.phase = .scanReadPayload)
    (hcount : r.st.k.toNat + count = r.target) (htarget : r.target < 2 ^ 32) :
    RunsTo extractTransition r (afterLoop (readPayload count r.st)
      fun p => .next (extractEnd (r.bytes ++ p.1) p.2)) := by
  induction count generalizing r with
  | zero =>
    have hrun := runsTo_extractEnd hphase (by omega)
    rwa [← List.append_nil r.bytes] at hrun
  | succ count ih =>
    have hstep := extractTransition_payload hphase (by omega)
    cases hread : unpackByte r.st.blk.toNat r.st with
    | error f =>
      simp only [readPayload, hread]
      exact .stop (by rw [hstep, hread]; rfl)
    | ok v =>
      rw [hread] at hstep
      have hk' : (r.st.k + 1).toNat = r.st.k.toNat + 1 := blk_succ (n := r.target) (by omega) htarget
      have hrest := ih { r with st := nextByte r.st, bytes := r.bytes ++ [v] } hphase
        (by simp only [nextByte_k, hk']; omega) htarget
      simp only [List.append_assoc, List.singleton_append] at hrest
      rw [afterLoop_readPayload hread]
      exact .step hstep hrest

/-- The run in `DetermineTargetLength` with `EMBED_LENGTH`, for the number of length bytes still to read. -/
theorem runsTo_readPrefix (count : Nat) (r : ScanRun) (go : List Byte × State → Host.Outcome State Fault Refusal)
    (hphase : r.st.phase = .determineTargetLength) (hel : r.st.embedLength = true) (h4 : 4 ≤ blockProduct r.st)
    (hcount : r.bytes.length + count = 4)
    (hgo : ∀ p, readPrefix count r.st = .ok p →
      RunsTo extractTransition { r with st := p.2, bytes := r.bytes ++ p.1 } (go p)) :
    RunsTo extractTransition r (afterLoop (readPrefix count r.st) go) := by
  induction count generalizing r go with
  | zero =>
    have hrun := hgo ([], r.st) rfl
    rwa [List.append_nil] at hrun
  | succ count ih =>
    have hstep := extractTransition_prefix hphase hel h4 (by omega)
    cases hread : unpackByte r.st.blk.toNat r.st with
    | error f =>
      simp only [readPrefix, hread]
      exact .stop (by rw [hstep, hread]; rfl)
    | ok v =>
      rw [hread] at hstep
      rw [afterLoop_readPrefix hread]
      refine .step hstep (ih _ _ hphase hel h4 (by simp; omega) fun p hp => ?_)
      have hrest := hgo (v :: p.1, p.2) (by simp only [readPrefix, hread]; rw [hp])
      simpa only [List.append_assoc, List.singleton_append] using hrest

/-- The run from a known target on. -/
theorem runsTo_extractScan (t : Nat) (r : ScanRun) {s : State} (hk : s.k = 0) (hn : blockProduct s ≤ lenMax) :
    RunsTo extractTransition (r.toPayload t s) (extractScan t s) := by
  rw [extractScan, ScanRun.toPayload]
  cases hfit : extractFitCheck t s with
  | some c => exact .here _
  | none =>
    have hmax : readableBytes t s ≤ lenMax := le_trans (by unfold readableBytes; omega) hn
    have hrun := runsTo_readPayload (readableBytes t s)
      { st := setPhase .scanReadPayload s, bytes := [], target := readableBytes t s } rfl (by simp [hk])
      (lt_of_le_of_lt hmax (by decide))
    simp only [List.nil_append] at hrun
    rw [guarded_none]
    cases hloop : readPayload (readableBytes t s) (setPhase .scanReadPayload s) with
    | error f => rwa [hloop] at hrun
    | ok p => rwa [hloop] at hrun

/-- The run in `DetermineTargetLength` with `EMBED_LENGTH`, where the image has blocks for the length. -/
theorem runsTo_prefixTarget {s : State} (hphase : s.phase = .determineTargetLength) (hel : s.embedLength = true)
    (hb : s.blk = 0) (hk : s.k = 0) (h4 : 4 ≤ blockProduct s) (hn : blockProduct s ≤ lenMax) :
    RunsTo extractTransition { st := s, bytes := [], target := 0 } (afterLoop (readPrefix 4 s)
      fun p => extractScan (min (lengthOfBytes 0 p.1) s.maxlen.toNat) p.2) := by
  refine runsTo_readPrefix 4 _ _ hphase hel h4 rfl fun ⟨bytes, t⟩ hp => ?_
  obtain ⟨hframe, hlen, -⟩ := readPrefix_ok hp (by simp [hb])
  subst hframe
  exact .step (extractTransition_prefix_end hphase hel h4 hlen) (runsTo_extractScan _ _ hk hn)

/-- The run in `DetermineTargetLength`. -/
theorem runsTo_extractTarget {s : State} (hphase : s.phase = .determineTargetLength) (hb : s.blk = 0) (hk : s.k = 0)
    (hn : blockProduct s ≤ lenMax) :
    RunsTo extractTransition { st := s, bytes := [], target := 0 } (extractTarget s) := by
  cases hel : s.embedLength with
  | true =>
    rw [extractTarget, if_pos hel]
    split
    next hfew =>
      refine .last (r' := ScanRun.stop .extract .noSuchBlock s ⟨s, [], 0⟩) ?_
      simp only [extractTransition, hphase, hel, if_true, if_pos hfew]
    next h4 =>
      have hrun := runsTo_prefixTarget hphase hel hb hk (Nat.not_lt.1 h4) hn
      rw [guarded_none]
      cases hloop : readPrefix 4 s with
      | error f => rwa [hloop] at hrun
      | ok p => rwa [hloop] at hrun
  | false =>
    rw [extractTarget_of_caller hel]
    cases hcheck : callerTargetCheck s with
    | some c =>
      refine .last (r' := ScanRun.stop .extract c s ⟨s, [], 0⟩) ?_
      simp only [extractTransition, hphase, hel, Bool.false_eq_true, if_false, hcheck]
    | none =>
      refine .step ?_ (runsTo_extractScan (callerTarget s) ⟨s, [], 0⟩ hk hn)
      simp only [extractTransition, hphase, hel, Bool.false_eq_true, if_false, hcheck]

/-- The whole run of `EXTRACT`. -/
theorem runsTo_execExtract (s : State) : RunsTo extractTransition (ScanRun.start s) (execExtract s) := by
  obtain ⟨hb, hk, hprod⟩ := ensureSelection_scanStart s
  simp only [execExtract]
  cases hcheck : selectCheck (scanStart s) with
  | some c =>
    refine .last (r' := (ScanRun.start s).stop .extract c (ensureSelection (scanStart s)).1) ?_
    simp only [extractTransition, ScanRun.start, scanStart_phase, hcheck]
  | none =>
    have hn := hprod.trans_le (selectCheck_none hcheck).2
    rw [guarded_none]
    cases hframe : extractFrameCheck (ensureSelection (scanStart s)).1 with
    | some c =>
      refine .last (r' := (ScanRun.start s).stop .extract c (ensureSelection (scanStart s)).1) ?_
      simp only [extractTransition, ScanRun.start, scanStart_phase, hcheck, hframe]
    | none =>
      refine .step ?_ (runsTo_extractTarget (s := setPhase .determineTargetLength _) rfl hb hk hn)
      simp only [extractTransition, ScanRun.start, scanStart_phase, hcheck, hframe]
      rfl

/-- Settles O56: every loop of `EXTRACT` is a run of its machine. -/
theorem extractRunsItsStateMachine : Obligations.ExtractRunsItsStateMachine := fun s =>
  (runsTo_execExtract s).exists_count fun _ => execExtract_phase

end Sys2Proof.Machine

/-! ### INIT and the outside reset -/

namespace Sys2Proof.Machine

/-- A step takes the outside reset off the queue and applies it. -/
theorem step_reset {s : State} {rest : List Input} (h : s.pending = .reset :: rest) :
    step s = .next (applyReset { s with pending := rest }) := step_takes h

/-- Settles O4: `INIT` is its register writes, then `done(0)`. -/
theorem initStartsASession : Obligations.InitStartsASession := fun _ => rfl

/-- Settles O5: both states are records of the same reset values, and the table of the reset one is empty. -/
theorem initDiffersFromResetInWhatItKeeps : Obligations.InitDiffersFromResetInWhatItKeeps :=
  fun s _ h => ⟨finish 0 (initRegisters s), _, rfl, step_reset h, rfl, rfl, powerOn_qt s.params, rfl, rfl⟩

end Sys2Proof.Machine

/-! ### The host accesses -/

namespace Sys2Proof.Machine

/-! #### The checks -/

/-- The check of an input: an access that it gives a cause is refused (45_config_access.md R260, R261). -/
def inputCheck (x : Input) (s : State) : Option Cause :=
  match x with
  | .read space addr => addressCheck space addr s
  | .write space addr v => writeCheck space addr v s
  | .reset | .image _ => none

/-- An input that its check refuses does no more than `reject`. -/
theorem takeInput_of_inputCheck_some {run : Instr → State → Host.Outcome State Fault Refusal} {x : Input}
    {s : State} {c : Cause} (h : inputCheck x s = some c) : takeInput run x s = .next (reject c s) := by
  cases x with
  | read space addr => simp only [inputCheck] at h; simp only [takeInput, hostRead, h]
  | write space addr v => simp only [inputCheck] at h; simp only [takeInput, hostWrite, h]
  | reset | image => cases h

/-- A read whose address exists answers the element. -/
theorem takeInput_read {run : Instr → State → Host.Outcome State Fault Refusal} {space : Space} {a : Nat}
    {s : State} (h : addressCheck space a s = none) : takeInput run (.read space a) s = .next (readElement space a s) := by
  simp only [takeInput, hostRead, h]

/-- A position is the one that its address names. -/
@[simp] theorem slotOfAddr_val (p : Slot) : slotOfAddr p.val = p := Fin.ofNat_val_eq_self p

/-- Every position of `FREQS` is an address. -/
@[simp] theorem addressCheck_freq (j : Slot) (s : State) : addressCheck .freq j.val s = none :=
  if_neg (by omega)

/-- Every position of `QT` is an address. -/
@[simp] theorem addressCheck_qt (p : Slot) (s : State) : addressCheck .qt p.val s = none :=
  if_neg (by omega)

/-- The addresses of `PBUF` are those below its size. -/
theorem addressCheck_pbuf {a : Nat} {s : State} (h : a < s.params.pbufSize.val) : addressCheck .pbuf a s = none :=
  if_neg (by omega)

/-- The addresses of `EBUF` are those below its size. -/
theorem addressCheck_ebuf {a : Nat} {s : State} (h : a < s.params.ebufSize.val) : addressCheck .ebuf a s = none :=
  if_neg (by omega)

/-- An address that does not exist refuses both accesses. -/
theorem inputCheck_of_addressCheck {space : Space} {a : Nat} {x : Input} {s : State} {c : Cause}
    (hx : Accesses space a x) (h : addressCheck space a s = some c) : inputCheck x s = some c := by
  cases hx with
  | read => exact h
  | write v => simp only [inputCheck, writeCheck, h]

/-- A write to an element that is no register has only the check of its value left. -/
theorem writeCheck_element {space : Space} {a v : Nat} {s : State} (hspace : space ≠ .reg)
    (h : addressCheck space a s = none) : writeCheck space a v s = elementCheck space v s := by
  simp only [writeCheck, h]
  cases space with
  | reg => exact absurd rfl hspace
  | freq | qt | pbuf | ebuf => rfl

/-- A read-only register refuses every write. -/
theorem inputCheck_readOnly {r : RegName} {v : Nat} {s : State} (h : regReadOnly r = true) :
    inputCheck (.write .reg r.number v) s = some .readOnlyRegister :=
  (writeCheck_number r v s).trans (if_pos h)

/-- A writable register refuses a value that is not legal, and `ECC_BLOCK_LENGTH` has a cause of its own. -/
theorem inputCheck_illegal (r : RegName) {v : Nat} {s : State} (hr : regReadOnly r = false)
    (hv : ¬ regLegal r v s.params = true) :
    inputCheck (.write .reg r.number v) s =
      some (if r = .eccBlockLength then .illegalBlockLength else .illegalValue) := by
  refine (writeCheck_number r v s).trans ?_
  rw [regWriteCheck, hr, if_neg Bool.false_ne_true, if_neg hv, apply_ite some]

/-- The check of every refused access gives a cause with the code of its row. -/
theorem Refused.exists_cause {s : State} {x : Input} {d : BitVec 8} (h : Refused s.params x d) :
    ∃ c, inputCheck x s = some c ∧ c.detail = d := by
  cases h with
  | unmapped a _ ha hx => exact ⟨_, inputCheck_of_addressCheck hx (by simp only [addressCheck, ha]; rfl), rfl⟩
  | freqAddress a _ ha hx | qtAddress a _ ha hx | pbufAddress a _ ha hx | ebufAddress a _ ha hx =>
    exact ⟨_, inputCheck_of_addressCheck hx (if_pos ha), rfl⟩
  | readOnly r v hr =>
    have hread : regReadOnly r = true := by
      simp only [List.mem_cons, List.not_mem_nil, or_false] at hr
      rcases hr with rfl | rfl | rfl | rfl | rfl | rfl | rfl | rfl <;> rfl
    exact ⟨_, inputCheck_readOnly hread, rfl⟩
  | blockLength v hv =>
    exact ⟨_, inputCheck_illegal .eccBlockLength rfl (by simp [regLegal]; omega), rfl⟩
  | cmd v hv => exact ⟨_, inputCheck_illegal .cmd rfl (by simp [regLegal]; omega), rfl⟩
  | bitsPerFreq v hv => exact ⟨_, inputCheck_illegal .bitsPerFreq rfl (by simp [regLegal]; omega), rfl⟩
  | bytesPerMcu v hv => exact ⟨_, inputCheck_illegal .bytesPerMcu rfl (by simp [regLegal]; omega), rfl⟩
  | comp v hv => exact ⟨_, inputCheck_illegal .comp rfl (by simp [regLegal]; omega), rfl⟩
  | nlevels v hv => exact ⟨_, inputCheck_illegal .nlevels rfl (by simp [regLegal]; omega), rfl⟩
  | encodedLength v hv => exact ⟨_, inputCheck_illegal .elen rfl (by simp [regLegal]; omega), rfl⟩
  | noSampling => exact ⟨_, inputCheck_illegal .vsamp rfl (by simp [regLegal]), rfl⟩
  | word r v hr hv | flag r v hr hv | count r v hr hv | payloadLength r v hr hv =>
    simp only [List.mem_cons, List.not_mem_nil, or_false] at hr
    rcases hr with rfl | rfl | rfl | rfl | rfl | rfl | rfl | rfl <;>
      exact ⟨_, inputCheck_illegal _ rfl (by simp [regLegal]; omega), rfl⟩
  | zeroEntry q => exact ⟨_, writeCheck_element (by decide) (addressCheck_qt q s), rfl⟩
  | wideEntry q v hv =>
    have hpos : v ≠ 0 := by have := Nat.two_pow_pos s.params.qw; omega
    refine ⟨.illegalValue, (writeCheck_element (by decide) (addressCheck_qt q s)).trans ?_, rfl⟩
    simp only [elementCheck, hpos, if_false, not_lt.2 hv]
  | slotIndex j v hv =>
    exact ⟨_, (writeCheck_element (by decide) (addressCheck_freq j s)).trans (if_neg (by omega)), rfl⟩
  | payloadByte a v ha hv =>
    exact ⟨_, (writeCheck_element (by decide) (addressCheck_pbuf ha)).trans (if_neg (by omega)), rfl⟩
  | encodedByte a v ha hv =>
    exact ⟨_, (writeCheck_element (by decide) (addressCheck_ebuf ha)).trans (if_neg (by omega)), rfl⟩

/-- Settles O58: the check of a refused access gives its cause, and `reject` writes that cause only. -/
theorem refusedAccessesOnlyRecordTheirCause : Obligations.RefusedAccessesOnlyRecordTheirCause := by
  intro s rest x d hpending hrefused
  obtain ⟨c, hcheck, rfl⟩ := Refused.exists_cause (s := { s with pending := rest }) hrefused
  rw [step_takes hpending, takeInput_of_inputCheck_some hcheck]
  rfl

/-! #### Reads -/

/-- A step takes a read of an existing address and leaves what answering the element leaves. -/
theorem step_read {s t : State} {rest : List Input} {space : Space} {a : Nat}
    (h : s.pending = .read space a :: rest) (ha : addressCheck space a { s with pending := rest } = none)
    (ht : readElement space a { s with pending := rest } = t) : step s = .next t := by
  rw [step_takes h, takeInput_read ha, ht]

/-- A read of a register answers its value. -/
theorem readElement_reg (r : RegName) (s : State) : readElement .reg r.number s = replyValue (regValue r s) s := by
  simp only [readElement, ofNumber_number]

/-- A valid entry of `FREQS` reads as it stands. -/
theorem readElement_freq_of_lt {j : Slot} {s : State} (h : j.val < s.nfreqs.toNat) :
    readElement .freq j.val s = replyValue (s.freqs.get j).val s := by
  simp only [readElement, h, if_true, slotOfAddr_val]

/-- An entry of `FREQS` at or above `NFREQS` reads as some position (93_implementation_defined.md U6). -/
theorem readElement_freq_of_ge {j : Slot} {s : State} (h : s.nfreqs.toNat ≤ j.val) :
    readElement .freq j.val s = replyAnyValue 64 s := if_neg (not_lt.2 h)

/-- A written entry of `QT` reads as it stands. -/
theorem readElement_qt_of_some {p : Slot} {q : Nat} {s : State} (h : s.qt.get p = some q) :
    readElement .qt p.val s = replyValue q s := by
  simp only [readElement, slotOfAddr_val, h]

/-- An entry of `QT` never written reads as some value of its width (93_implementation_defined.md U6). -/
theorem readElement_qt_of_none {p : Slot} {s : State} (h : s.qt.get p = none) :
    readElement .qt p.val s = replyAnyValue (2 ^ s.params.qw) s := by
  simp only [readElement, slotOfAddr_val, h]

/-- No register reads the queue. -/
theorem regValue_withPending (r : RegName) (s : State) (l : List Input) :
    regValue r { s with pending := l } = regValue r s := by cases r <;> rfl

/-- No register reads the reply. -/
theorem regValue_withReply (r : RegName) (s : State) (a : Reply) :
    regValue r { s with reply := a } = regValue r s := by cases r <;> rfl

/-- Settles O57: each clause is the read of one space. -/
theorem hostReadAnswersTheElement : Obligations.HostReadAnswersTheElement := by
  intro s rest answer anyAnswer
  refine ⟨fun r h => ?_, fun j hj h => ?_, fun p q hq h => ?_, fun j hj h => ?_, fun p hp h => ?_,
    fun a ha h => ?_, fun a ha h => ?_⟩
  · rw [← regValue_withPending r s rest]
    exact step_read h (addressCheck_number r _) (readElement_reg r _)
  · exact step_read h (addressCheck_freq j _) (readElement_freq_of_lt hj)
  · exact step_read h (addressCheck_qt p _) (readElement_qt_of_some hq)
  · exact ⟨Config.anyValue s.draws % 64, Nat.le_of_lt_succ (Nat.mod_lt _ (by decide)),
      step_read h (addressCheck_freq j _) (readElement_freq_of_ge hj)⟩
  · exact ⟨Config.anyValue s.draws % 2 ^ s.params.qw, Nat.mod_lt _ (Nat.two_pow_pos _),
      step_read h (addressCheck_qt p _) (readElement_qt_of_none hp)⟩
  · exact step_read h (addressCheck_pbuf ha) rfl
  · exact step_read h (addressCheck_ebuf ha) rfl

/-! #### Writes to the registers -/

/-- A write to a register keeps the constants. -/
@[simp] theorem setReg_params (r : RegName) (v : Nat) (s : State) : (setReg r v s).params = s.params := by
  cases r <;> rfl
/-- A write to a register keeps `FREQS`. -/
@[simp] theorem setReg_freqs (r : RegName) (v : Nat) (s : State) : (setReg r v s).freqs = s.freqs := by
  cases r <;> rfl
/-- A write to a register keeps `QT`. -/
@[simp] theorem setReg_qt (r : RegName) (v : Nat) (s : State) : (setReg r v s).qt = s.qt := by
  cases r <;> rfl
/-- A write to a register keeps `PBUF`. -/
@[simp] theorem setReg_pbuf (r : RegName) (v : Nat) (s : State) : (setReg r v s).pbuf = s.pbuf := by
  cases r <;> rfl
/-- A write to a register keeps `EBUF`. -/
@[simp] theorem setReg_ebuf (r : RegName) (v : Nat) (s : State) : (setReg r v s).ebuf = s.ebuf := by
  cases r <;> rfl
/-- A write to a register keeps the coefficient store. -/
@[simp] theorem setReg_coef (r : RegName) (v : Nat) (s : State) : (setReg r v s).coef = s.coef := by
  cases r <;> rfl
/-- A write to a register keeps the queue. -/
@[simp] theorem setReg_pending (r : RegName) (v : Nat) (s : State) : (setReg r v s).pending = s.pending := by
  cases r <;> rfl
/-- A write to a register keeps the count of resets. -/
@[simp] theorem setReg_resets (r : RegName) (v : Nat) (s : State) : (setReg r v s).resets = s.resets := by
  cases r <;> rfl
/-- A write to a register keeps the count of unspecified reads. -/
@[simp] theorem setReg_draws (r : RegName) (v : Nat) (s : State) : (setReg r v s).draws = s.draws := by
  cases r <;> rfl

/-- Settles O59: the write is `setReg`, which the register reads and the frame of `setReg` describe. -/
theorem registerWriteIsReadBack : Obligations.RegisterWriteIsReadBack := by
  intro s rest r v hlegal hpending
  obtain ⟨hwritable, hvalue, hcmd⟩ := legalWrite_iff.1 hlegal
  let u := setReg r v { s with pending := rest }
  have hread : regValue r u = v := regValue_setReg hwritable hvalue
  have hothers : ∀ r', r' ≠ r → regValue r' u = regValue r' s := fun r' hne =>
    (regValue_setReg_ne hne).trans (regValue_withPending r' s rest)
  exact ⟨{ u with reply := .written }, (step_takes hpending).trans (takeInput_writeReg hwritable hvalue hcmd),
    setReg_pending .., rfl, (regValue_withReply ..).trans hread,
    fun r' hne => (regValue_withReply ..).trans (hothers r' hne),
    setReg_freqs .., setReg_qt .., setReg_pbuf .., setReg_ebuf .., setReg_coef .., setReg_params ..,
    setReg_resets .., setReg_draws ..⟩

/-! #### Writes to the elements of the other spaces -/

/-- A step takes a write to an element that is no register and that passes its checks. -/
theorem step_writeElement {s : State} {rest : List Input} {space : Space} {a v : Nat} (hspace : space ≠ .reg)
    (h : s.pending = .write space a v :: rest) (ha : addressCheck space a { s with pending := rest } = none)
    (hv : elementCheck space v { s with pending := rest } = none) :
    step s = .next { setElement space a v { s with pending := rest } with reply := .written } := by
  rw [step_takes h, takeInput, hostWrite, writeCheck_element hspace ha, hv]
  cases space with
  | reg => exact absurd rfl hspace
  | freq | qt | pbuf | ebuf => rfl

/-- A byte of `PBUF` after a write of one byte there. -/
theorem pbufByte_setElement {s : State} (h : Memory.wf s.pbuf = true) (a : Nat) (v : Byte) (x : Nat) :
    pbufByte (setElement .pbuf a v.toNat s) x = if x = a then v else pbufByte s x := by
  simp only [pbufByte, setElement, BitVec.ofNat_toNat, BitVec.setWidth_eq, Memory.read_write h]
  split <;> rfl

/-- A byte of `EBUF` after a write of one byte there. -/
theorem ebufByte_setElement {s : State} (h : Memory.wf s.ebuf = true) (a : Nat) (v : Byte) (x : Nat) :
    ebufByte (setElement .ebuf a v.toNat s) x = if x = a then v else ebufByte s x := by
  simp only [ebufByte, setElement, BitVec.ofNat_toNat, BitVec.setWidth_eq, Memory.read_write h]
  split <;> rfl

/-- Settles O60: each clause is the write to one space. -/
theorem elementWritesTakeEffect : Obligations.ElementWritesTakeEffect := by
  intro s rest
  refine ⟨fun p v h0 hv h => ?_, fun j f h => ?_, fun a v ha hwf h => ?_, fun a v ha hwf h => ?_⟩
  · have hcheck : elementCheck .qt v { s with pending := rest } = none := by
      simp only [elementCheck, h0.ne', if_false, hv, if_true]
    rw [step_writeElement (by decide) h (addressCheck_qt p _) hcheck]
    simp only [setElement, slotOfAddr_val]
  · rw [step_writeElement (by decide) h (addressCheck_freq j _) (if_pos (by omega))]
    simp only [setElement, slotOfAddr_val]
  · exact ⟨_, step_writeElement (by decide) h (addressCheck_pbuf ha) (if_pos (by omega)), rfl,
      pbufByte_setElement hwf a v⟩
  · exact ⟨_, step_writeElement (by decide) h (addressCheck_ebuf ha) (if_pos (by omega)), rfl,
      ebufByte_setElement hwf a v⟩

end Sys2Proof.Machine

/-! ### The error mechanism -/

namespace Sys2Proof.Machine

/-- Settles O10: the two scans end as `scanFailed` says, every other command and a value that is no opcode as
`failed` says. -/
theorem raiseWritesTheErrorRegisters : Obligations.RaiseWritesTheErrorRegisters := by
  intro i c s
  by_cases hi : i = some .embed ∨ i = some .extract
  · rw [if_pos hi]
    rcases hi with rfl | rfl <;> exact scanFailed_eq _ rfl c s
  · rw [if_neg hi]
    cases i with
    | none => exact failed_eq .init rfl c s
    | some i => exact failed_eq i (by simpa [isScan] using hi) c s

/-! #### What an end shows -/

/-- `RESULT` of a class is minus its number (60_exceptions.md R283). -/
theorem ErrClass.result_toInt (c : ErrClass) : c.result.toInt = -(c.code : Int) := by cases c <;> rfl

/-- The class numbers (60_exceptions.md R281). -/
theorem ErrClass.code_range (c : ErrClass) : 1 ≤ c.code ∧ c.code ≤ 5 := by cases c <;> decide

/-- A state whose error registers say success has a value within `LEN_MAX` in `RESULT` (60_exceptions.md R285). -/
def ReportInRange (t : State) : Prop := t.err = 0 → t.result.toNat ≤ lenMax

/-- An error reports no value. -/
theorem raise_reportInRange {i : Option Instr} {c : Cause} {s : State} : ReportInRange (raise i c s) :=
  fun h => absurd h (ErrClass.err_ne_zero _)

/-- `done` of a value within `LEN_MAX`. -/
theorem finish_reportInRange {v : Nat} (hv : v ≤ lenMax) (s : State) : ReportInRange (finish v s) :=
  fun _ => (BitVec.toNat_ofNat v 32).trans_le ((Nat.mod_le ..).trans hv)

/-- Every command ends with `raise` or `done`. -/
theorem exec_ends {i : Instr} {s t : State} (h : exec i s = .next t) : ∃ u, Ends i u t := by
  by_cases hi : i = .init
  · subst hi
    obtain rfl : finish 0 (initRegisters s) = t := Host.Outcome.next.inj h
    exact ⟨_, .finish 0⟩
  · obtain ⟨u, -, hends⟩ := exec_next hi h
    exact ⟨u, hends⟩

/-- What `RESULT`, `ERR` and `ERRINFO` show of an end whose value is within `LEN_MAX` (60_exceptions.md R283). -/
theorem shown_of_ends {i : Instr} {u t : State} (h : Ends i u t) (hrange : ReportInRange t) :
    (t.result.toInt < 0 ↔ t.err ≠ 0) ∧
    (t.err ≠ 0 → t.result.toInt = -(t.err.toNat : Int) ∧ 1 ≤ t.err.toNat ∧ t.err.toNat ≤ 5) ∧
    (t.err = 0 → 0 ≤ t.result.toInt ∧ t.result.toInt ≤ lenMax ∧ t.errinfo = 0) := by
  rcases h with ⟨c, rfl⟩ | ⟨v, rfl⟩
  · have herr : (raise (some i) c u).err ≠ 0 := ErrClass.err_ne_zero _
    have hresult : (raise (some i) c u).result.toInt = -((raise (some i) c u).err.toNat : Int) := by
      rw [raise_result, raise_err, ErrClass.result_toInt, ErrClass.err_toNat]
    have hcode : 1 ≤ (raise (some i) c u).err.toNat ∧ (raise (some i) c u).err.toNat ≤ 5 := by
      rw [raise_err, ErrClass.err_toNat]
      exact ErrClass.code_range _
    exact ⟨⟨fun _ => herr, fun _ => by omega⟩, fun _ => ⟨hresult, hcode⟩, fun h => absurd h herr⟩
  · have herr : (finish v u).err = 0 := rfl
    have hmax := hrange herr
    have hint := BitVec.toInt_eq_toNat_of_lt (x := (finish v u).result) (by simp only [lenMax] at hmax; omega)
    rw [hint]
    exact ⟨⟨fun h => by omega, fun h => absurd herr h⟩, fun h => absurd herr h, fun _ => ⟨by omega, by omega, rfl⟩⟩

/-! #### The value of a success is within `LEN_MAX` -/

/-- A guarded command reports in range where its body does. -/
theorem guarded_reportInRange {i : Instr} {check : Option Cause} {s t : State}
    {go : Host.Outcome State Fault Refusal} (h : guarded i check s go = .next t)
    (hgo : check = none → go = .next t → ReportInRange t) : ReportInRange t := by
  rcases guarded_next h with ⟨c, -, rfl⟩ | ⟨hcheck, h⟩
  · exact raise_reportInRange
  · exact hgo hcheck h

/-- A bounded result is in range. -/
theorem finishBounded_reportInRange {i : Instr} {v : Nat} {s t : State} (h : finishBounded i v s = .next t) :
    ReportInRange t := by
  rcases finishBounded_next h with ⟨-, rfl⟩ | ⟨hv, rfl⟩
  · exact raise_reportInRange
  · exact finish_reportInRange hv s

/-- A value within `LEN_MAX` that a command answers with. -/
theorem reportInRange_of_finish {v : Nat} {s t : State} (hv : v ≤ lenMax)
    (h : (.next (finish v s) : Host.Outcome State Fault Refusal) = .next t) : ReportInRange t :=
  Host.Outcome.next.inj h ▸ finish_reportInRange hv s

/-- A delivery reports at most `MAXLEN` bytes. -/
theorem deliver_reportInRange {i : Instr} {d : List Byte} {s : State} (hmax : (deliver i d s).maxlen.toNat ≤ lenMax) :
    ReportInRange (deliver i d s) := by
  by_cases h : d.length ≤ s.maxlen.toNat
  · rw [deliver_fits h] at hmax ⊢
    exact finish_reportInRange (h.trans hmax) _
  · rw [deliver_cut (by omega)]
    exact raise_reportInRange

/-- `QUAL` reports 0 or 1. -/
theorem execQual_reportInRange {s t : State} (h : execQual s = .next t) : ReportInRange t := by
  unfold execQual at h
  split at h
  · exact guarded_reportInRange h fun _ => reportInRange_of_finish (by split <;> decide)
  · exact Host.Outcome.next.inj h ▸ raise_reportInRange

/-- `SELFREQ` reports at most 64 positions. -/
theorem execSelfreq_reportInRange {s t : State} (h : execSelfreq s = .next t) : ReportInRange t :=
  guarded_reportInRange h fun _ => reportInRange_of_finish ((selected_length_le s).trans (by decide))

/-- `PACK` reports 1. -/
theorem execPack_reportInRange {s t : State} (h : execPack s = .next t) : ReportInRange t := by
  refine guarded_reportInRange h fun _ h => ?_
  split at h
  · exact reportInRange_of_finish (by decide) h
  · cases h

/-- `UNPACK` reports a byte. -/
theorem execUnpack_reportInRange {s t : State} (h : execUnpack s = .next t) : ReportInRange t := by
  refine guarded_reportInRange h fun _ h => ?_
  split at h
  · rename_i v _
    exact reportInRange_of_finish (v.isLt.le.trans (by decide)) h
  · cases h

/-- `LENWR` reports 4. -/
theorem execLenwr_reportInRange {s t : State} (h : execLenwr s = .next t) : ReportInRange t := by
  refine guarded_reportInRange h fun _ h => ?_
  split at h
  · exact reportInRange_of_finish (by decide) h
  · cases h

/-- `LENRD` reports a bounded result. -/
theorem execLenrd_reportInRange {s t : State} (h : execLenrd s = .next t) : ReportInRange t := by
  refine guarded_reportInRange h fun _ h => ?_
  split at h
  · exact finishBounded_reportInRange h
  · cases h

/-- The encoders report an encoded length that passed `fits_ebuf` (42_ecc_framer.md R165). -/
theorem exec_encodeCommand_reportInRange {v : Framing} {s t : State} (h : exec (encodeCommand v) s = .next t) :
    ReportInRange t := by
  rw [exec_encodeCommand, encodedPayload_length] at h
  exact guarded_reportInRange h fun hcheck => reportInRange_of_finish (encodeCheck_none hcheck).1

/-- `FDEC` reports a delivery, or a format error. -/
theorem execFdec_reportInRange {s t : State} (h : execFdec s = .next t) (hmax : t.maxlen.toNat ≤ lenMax) :
    ReportInRange t := by
  refine guarded_reportInRange h fun _ h => ?_
  obtain rfl := Host.Outcome.next.inj h
  revert hmax
  split
  · exact fun _ => raise_reportInRange
  · split
    · exact fun _ => raise_reportInRange
    · exact deliver_reportInRange

/-- `FDECNL` reports a delivery, or a format error. -/
theorem execFdecnl_reportInRange {s t : State} (h : execFdecnl s = .next t) (hmax : t.maxlen.toNat ≤ lenMax) :
    ReportInRange t := by
  refine guarded_reportInRange h fun _ h => ?_
  obtain rfl := Host.Outcome.next.inj h
  revert hmax
  split
  · exact fun _ => raise_reportInRange
  · exact deliver_reportInRange

/-- The capacity of an image is at most its number of blocks (43_capacity.md R203). -/
theorem capacity_le (s : State) : capacity s ≤ blockProduct s := by
  have hecc : blockProduct s / blockLen s * (msgCap s - 1) ≤ blockProduct s :=
    (Nat.mul_le_mul_left _ (by unfold msgCap; omega)).trans (Nat.div_mul_le_self _ (blockLen s))
  rw [capacity_eq]
  split <;> split <;> omega

/-- `CAP` reports at most the number of blocks. -/
theorem execCap_reportInRange {s t : State} (h : execCap s = .next t) : ReportInRange t := by
  refine guarded_reportInRange h fun hcheck h => guarded_reportInRange h fun _ => reportInRange_of_finish ?_
  have hblocks : blockProduct s ≤ lenMax := by simpa [nblkCheck] using hcheck
  have hcap := capacity_le s
  omega

/-- The count of a truncated embed is within `LEN` (44_embed_extract.md R228). -/
theorem eccTruncCount_le (l k b m : Nat) : eccTruncCount l k b m ≤ l := by
  have hlt : eccTruncCount l k b m < max l 1 := Nat.mod_lt _ (by omega)
  omega

/-- `EMBED` reports `K`, or at most `LEN`. -/
theorem embedResult_reportInRange {n : Nat} {s : State} : (embedResult n s).k.toNat ≤ lenMax →
    (embedResult n s).len.toNat ≤ lenMax → ReportInRange (embedResult n s) := by
  unfold embedResult
  split
  · exact fun _ _ => raise_reportInRange
  · split
    · exact fun hk _ => finish_reportInRange hk s
    · split
      · exact fun _ hlen => finish_reportInRange hlen s
      · exact fun _ hlen => finish_reportInRange ((eccTruncCount_le ..).trans hlen) s

/-- The scan of `EMBED` ends with its report. -/
theorem embedScan_reportInRange {n : Nat} {d : List Byte} {s t : State} (h : embedScan n d s = .ok t)
    (hk : t.k.toNat ≤ lenMax) (hlen : t.len.toNat ≤ lenMax) : ReportInRange t := by
  simp only [embedScan] at h
  split at h
  · cases h
  · split at h
    · cases h
    · obtain rfl := Except.ok.inj h
      exact embedResult_reportInRange hk hlen

/-- `EMBED` reports a value in range. -/
theorem execEmbed_reportInRange {s t : State} (h : execEmbed s = .next t) (hk : t.k.toNat ≤ lenMax)
    (hlen : t.len.toNat ≤ lenMax) : ReportInRange t := by
  refine guarded_reportInRange h fun _ h => ?_
  unfold embedRaw at h
  split at h
  · exact embedScan_reportInRange ((settle_next _ _).1 h) hk hlen
  · exact guarded_reportInRange h fun _ h => embedScan_reportInRange ((settle_next _ _).1 h) hk hlen

/-- The decode of `EXTRACT` reports a delivery, or a format error. -/
theorem extractDecode_reportInRange {n2 : Nat} {s : State} :
    (extractDecode n2 s).maxlen.toNat ≤ lenMax → ReportInRange (extractDecode n2 s) := by
  simp only [extractDecode]
  split
  · split
    · exact fun _ => raise_reportInRange
    · exact deliver_reportInRange
  · exact deliver_reportInRange

/-- The end of `EXTRACT` reports a delivery, or a format error. -/
theorem extractEnd_reportInRange {r : List Byte} {s : State} :
    (extractEnd r s).maxlen.toNat ≤ lenMax → ReportInRange (extractEnd r s) := by
  unfold extractEnd
  split
  · exact deliver_reportInRange
  · exact extractDecode_reportInRange

/-- `EXTRACT` reports a value in range once its target is known. -/
theorem extractScan_reportInRange {n : Nat} {s t : State} (h : extractScan n s = .next t)
    (hmax : t.maxlen.toNat ≤ lenMax) : ReportInRange t := by
  refine guarded_reportInRange h fun _ h => ?_
  rw [settle_next] at h
  split at h
  · cases h
  · obtain rfl := Except.ok.inj h
    exact extractEnd_reportInRange hmax

/-- `EXTRACT` reports a value in range. -/
theorem execExtract_reportInRange {s t : State} (h : execExtract s = .next t) (hmax : t.maxlen.toNat ≤ lenMax) :
    ReportInRange t := by
  refine guarded_reportInRange h fun _ h => guarded_reportInRange h fun _ h => ?_
  unfold extractTarget at h
  split at h
  · refine guarded_reportInRange h fun _ h => ?_
    split at h
    · cases h
    · exact extractScan_reportInRange h hmax
  · exact guarded_reportInRange h fun _ h => extractScan_reportInRange h hmax

/-- No scan of `EMBED` counts above `LEN_MAX`. -/
theorem execEmbed_k_le {s t : State} (h : execEmbed s = .next t) : t.k.toNat ≤ lenMax := by
  obtain ⟨u, hframe, hends⟩ := execEmbed_next h
  have hk : t.k = u.k := by rcases hends with ⟨c, rfl⟩ | ⟨v, rfl⟩ <;> rfl
  exact hk ▸ hframe.counters.1.trans hframe.counters.2

/-- Every command from a legal state reports a value in range: `LEN` and `MAXLEN` are within `PBUF_SIZE`, which is
itself within `LEN_MAX` (10_state.md R45, R46). -/
theorem exec_reportInRange {i : Instr} {s t : State} (hs : s.Legal) (h : exec i s = .next t) : ReportInRange t := by
  have hsize : s.params.pbufSize.val ≤ lenMax := Nat.le_sub_one_of_lt s.params.pbufSize.isLt
  have hmax (hi : i ≠ .init) : t.maxlen.toNat ≤ lenMax := by
    rw [commandsKeepOperandsAndConfiguration i s t hi h]
    exact hs.maxlen.trans hsize
  cases i with
  | init => exact reportInRange_of_finish (Nat.zero_le _) h
  | qual => exact execQual_reportInRange h
  | selfreq => exact execSelfreq_reportInRange h
  | pack => exact execPack_reportInRange h
  | unpack => exact execUnpack_reportInRange h
  | fenc => exact exec_encodeCommand_reportInRange (v := .lengthCarrying) h
  | fdec => exact execFdec_reportInRange h (hmax (by decide))
  | fencnl => exact exec_encodeCommand_reportInRange (v := .lengthOmitting) h
  | fdecnl => exact execFdecnl_reportInRange h (hmax (by decide))
  | ecclen => exact guarded_reportInRange h fun _ => finishBounded_reportInRange
  | eccceil | capecc | rawcap => exact finishBounded_reportInRange h
  | cap => exact execCap_reportInRange h
  | lenwr => exact execLenwr_reportInRange h
  | lenrd => exact execLenrd_reportInRange h
  | embed =>
    obtain ⟨-, -, -, hlen, -⟩ := storesAreWrittenOnlyByTheirCommands .embed s t h
    exact execEmbed_reportInRange h (execEmbed_k_le h) (hlen (by decide) ▸ hs.len.trans hsize)
  | extract => exact execExtract_reportInRange h (hmax (by decide))

/-- Settles O11: a command ends with `raise` or with `done` of a value within `LEN_MAX`. -/
theorem resultIsNegativeExactlyOnFailure : Obligations.ResultIsNegativeExactlyOnFailure := by
  intro i s t hs h
  obtain ⟨u, hends⟩ := exec_ends h
  exact shown_of_ends hends (exec_reportInRange hs h)

end Sys2Proof.Machine

/-! ### Stops at missing blocks -/

namespace Sys2Proof.Machine

/-! #### Every command answers -/

/-- What a command can answer with `held` blocks in the store and `blocks` blocks in the geometry: a next state, or a
stop at a block that the geometry names and the store lacks (70_reset_and_hazards.md R328). -/
inductive AnswersWithin (held blocks : Nat) : Host.Outcome State Fault Refusal → Prop where
  | next (t : State) : AnswersWithin held blocks (.next t)
  | stop {n : Nat} (hlacks : held ≤ n) (hnamed : n < blocks) : AnswersWithin held blocks (.fault (.noSuchCoefBlock n))

section

variable {held blocks : Nat} {i : Instr} {s : State} {o : Host.Outcome State Fault Refusal}

/-- A check that raises answers a next state. -/
theorem AnswersWithin.guarded {check : Option Cause} (h : check = none → AnswersWithin held blocks o) :
    AnswersWithin held blocks (guarded i check s o) := by
  cases check with
  | none => exact h rfl
  | some c => exact .next _

/-- A bounded result is a next state. -/
theorem AnswersWithin.finishBounded (v : Nat) : AnswersWithin held blocks (finishBounded i v s) :=
  .guarded fun _ => .next _

/-- Where the geometry names no block that the store lacks, the answer is a next state. -/
theorem AnswersWithin.exists_next (h : AnswersWithin held blocks o) (hfits : blocks ≤ held) : ∃ t, o = .next t := by
  cases h with
  | next t => exact ⟨t, rfl⟩
  | stop hlacks hnamed => omega

/-- No answer is a refusal. -/
theorem AnswersWithin.ne_refused (h : AnswersWithin held blocks o) (r : Refusal) : o ≠ .refused r := by
  rintro rfl
  cases h

/-- An answer that is a fault names its block. -/
theorem AnswersWithin.of_fault {f : Fault} (h : AnswersWithin held blocks (.fault f)) :
    ∃ n, f = .noSuchCoefBlock n ∧ held ≤ n ∧ n < blocks := by
  cases h with
  | stop hlacks hnamed => exact ⟨_, rfl, hlacks, hnamed⟩

end

/-- `QUAL` answers a next state. -/
theorem execQual_answers (held blocks : Nat) (s : State) : AnswersWithin held blocks (execQual s) := by
  unfold execQual
  split
  · exact .guarded fun _ => .next _
  · exact .next _

/-- `PACK` stops at its block only. -/
theorem execPack_answers (s : State) : AnswersWithin s.coef.length (blockProduct s) (execPack s) := by
  refine .guarded fun hready => ?_
  split
  next => exact .next _
  next f hf =>
    obtain ⟨hlacks, rfl⟩ := packByte_error.1 hf
    exact .stop hlacks (lt_blockProduct_of_packReady_none hready)

/-- `UNPACK` stops at its block only. -/
theorem execUnpack_answers (s : State) : AnswersWithin s.coef.length (blockProduct s) (execUnpack s) := by
  refine .guarded fun hready => ?_
  split
  next => exact .next _
  next f hf =>
    obtain ⟨hlacks, rfl⟩ := unpackByte_error.1 hf
    exact .stop hlacks (lt_blockProduct_of_packReady_none hready)

/-- `LENWR` stops at the first block that the store lacks, one of the four that its check allows. -/
theorem execLenwr_answers (s : State) : AnswersWithin s.coef.length (blockProduct s) (execLenwr s) := by
  refine .guarded fun hready => ?_
  have h4 := lt_blockProduct_of_packReady_none hready
  split
  next => exact .next _
  next f hf =>
    obtain ⟨hlt, rfl⟩ := (packBytes_error (Nat.zero_le _)).1 hf
    rw [lengthBytes_length] at hlt
    exact .stop le_rfl (by omega)

/-- `LENRD` stops at the first block that the store lacks, one of the four that its check allows. -/
theorem execLenrd_answers (s : State) : AnswersWithin s.coef.length (blockProduct s) (execLenrd s) := by
  refine .guarded fun hready => ?_
  have h4 := lt_blockProduct_of_packReady_none hready
  split
  next => exact .finishBounded _
  next f hf =>
    obtain ⟨hlt, rfl⟩ := (unpackBytes_error (Nat.zero_le _)).1 hf
    exact .stop le_rfl (by omega)

/-- A block count within `LEN_MAX` is a word. -/
theorem lt_word_of_le_lenMax {n : Nat} (h : n ≤ lenMax) : n < 2 ^ 32 := lt_of_le_of_lt h (by decide)

/-- The selection of a scan leaves the image. -/
theorem ensureSelection_scanStart_coef (s : State) : (ensureSelection (scanStart s)).1.coef = s.coef := by
  rcases ensureSelection_fst (scanStart s) with h | h <;> rw [h] <;> rfl

/-- The scan of `EMBED` stops below its block count. -/
theorem embedScan_answers {n : Nat} {d : List Byte} {s : State} (hb : s.blk = 0) (hn : n ≤ lenMax) :
    AnswersWithin s.coef.length n (settle (embedScan n d s)) := by
  cases h : embedScan n d s with
  | ok t => exact .next t
  | error f =>
    obtain ⟨⟨hnamed, -⟩, rfl⟩ := (embedScan_error hb (lt_word_of_le_lenMax hn)).1 h
    exact .stop le_rfl hnamed

/-- `EMBED` stops in its scan only. -/
theorem execEmbed_answers (s : State) : AnswersWithin s.coef.length (blockProduct s) (execEmbed s) := by
  obtain ⟨hb, -, hprod⟩ := ensureSelection_scanStart s
  refine .guarded fun hcheck => ?_
  have hn := hprod.trans_le (selectCheck_none hcheck).2
  rw [← hprod, ← ensureSelection_scanStart_coef s, embedRaw]
  split
  · exact embedScan_answers hb hn
  · exact .guarded fun _ => embedScan_answers (s := storeEbuf _ (setPhase .eccEncode _)) hb hn

/-- Where the read of the payload stops: at the first block that the store lacks. `BLK` does not wrap on the way
(10_state.md R58). -/
theorem readPayload_readableBytes_error {t : Nat} {s : State} {f : Fault} (hb : s.blk.toNat ≤ s.coef.length)
    (hn : blockProduct s ≤ lenMax) :
    readPayload (readableBytes t s) (setPhase .scanReadPayload s) = .error f ↔
      s.coef.length < s.blk.toNat + readableBytes t s ∧ f = .noSuchCoefBlock s.coef.length := by
  have hword : s.blk.toNat + readableBytes t s < 2 ^ 32 := by
    have hblk := s.blk.isLt
    have hprod := lt_word_of_le_lenMax hn
    unfold readableBytes
    omega
  exact readPayload_error (s := setPhase .scanReadPayload s) hb hword

/-- The payload of `EXTRACT` is read below the block count. -/
theorem extractScan_answers {t : Nat} {s : State} (hb : s.blk.toNat ≤ s.coef.length) (hn : blockProduct s ≤ lenMax) :
    AnswersWithin s.coef.length (blockProduct s) (extractScan t s) := by
  refine .guarded fun _ => ?_
  cases h : readPayload (readableBytes t s) (setPhase .scanReadPayload s) with
  | ok p => exact .next _
  | error f =>
    obtain ⟨hlt, rfl⟩ := (readPayload_readableBytes_error hb hn).1 h
    rw [readableBytes] at hlt
    exact .stop le_rfl (by omega)

/-- `EXTRACT` stops in the length bytes where the store lacks one of their blocks. -/
theorem extractTarget_of_missing {s : State} (hel : s.embedLength = true) (hb : s.blk = 0) (h4 : 4 ≤ blockProduct s)
    (hmissing : s.coef.length < 4) : extractTarget s = .fault (.noSuchCoefBlock s.coef.length) := by
  have hstop : readPrefix 4 s = .error (.noSuchCoefBlock s.coef.length) :=
    (readPrefix_error (by simp [hb]) (by simp [hb])).2 ⟨by simpa [hb] using hmissing, rfl⟩
  rw [extractTarget, if_pos hel, if_neg (by omega), guarded_none, hstop]

/-- `EXTRACT` stops in the length bytes or in the payload. -/
theorem extractTarget_answers {s : State} (hb : s.blk = 0) (hn : blockProduct s ≤ lenMax) :
    AnswersWithin s.coef.length (blockProduct s) (extractTarget s) := by
  cases hel : s.embedLength with
  | false =>
    rw [extractTarget_of_caller hel]
    exact .guarded fun _ => extractScan_answers (by simp [hb]) hn
  | true =>
    by_cases hfew : blockProduct s < 4
    · rw [extractTarget_of_few_blocks hel hfew]
      exact .next _
    · have h4 := Nat.not_lt.1 hfew
      by_cases hmissing : s.coef.length < 4
      · rw [extractTarget_of_missing hel hb h4 hmissing]
        exact .stop le_rfl (by omega)
      · have hcoef := Nat.not_lt.1 hmissing
        rw [extractTarget_of_prefix hel hb h4 hcoef]
        exact extractScan_answers (s := { s with blk := 4 }) hcoef hn

/-- `EXTRACT` stops once its target is to be determined. -/
theorem execExtract_answers (s : State) : AnswersWithin s.coef.length (blockProduct s) (execExtract s) := by
  obtain ⟨hb, -, hprod⟩ := ensureSelection_scanStart s
  refine .guarded fun hcheck => .guarded fun _ => ?_
  have hn := hprod.trans_le (selectCheck_none hcheck).2
  rw [← hprod, ← ensureSelection_scanStart_coef s]
  exact extractTarget_answers (s := setPhase .determineTargetLength _) hb hn

/-- Every command answers a next state, or stops at a block that the geometry names and the store lacks. -/
theorem exec_answers (i : Instr) (s : State) : AnswersWithin s.coef.length (blockProduct s) (exec i s) := by
  cases i with
  | init | fdecnl => exact .next _
  | qual => exact execQual_answers _ _ s
  | pack => exact execPack_answers s
  | unpack => exact execUnpack_answers s
  | lenwr => exact execLenwr_answers s
  | lenrd => exact execLenrd_answers s
  | embed => exact execEmbed_answers s
  | extract => exact execExtract_answers s
  | selfreq | fenc | fdec | fencnl => exact .guarded fun _ => .next _
  | ecclen => exact .guarded fun _ => .finishBounded _
  | eccceil | capecc | rawcap => exact .finishBounded _
  | cap => exact .guarded fun _ => .guarded fun _ => .next _

/-- Settles O18: the one kind of stop needs a block that the geometry names and the store lacks. -/
theorem commandsStopOnlyAtMissingBlocks : Obligations.CommandsStopOnlyAtMissingBlocks := by
  intro i s
  have hanswers := exec_answers i s
  exact ⟨hanswers.exists_next, hanswers.ne_refused, fun f hf => (hf ▸ hanswers).of_fault⟩

/-! #### Where a command stops -/

/-- `PACK` and `UNPACK` of a block that the store lacks. -/
theorem exec_packer_of_missing {s : State} (hready : s.slotsReady) (hn : s.arg1.toNat < blockProduct s)
    (hmissing : s.coef.length ≤ s.arg1.toNat) :
    exec .pack s = .fault (.noSuchCoefBlock s.arg1.toNat) ∧
      exec .unpack s = .fault (.noSuchCoefBlock s.arg1.toNat) := by
  constructor
  · change execPack s = _
    rw [execPack, packReady_none hready hn, guarded_none, packByte_error.2 ⟨hmissing, rfl⟩]
  · change execUnpack s = _
    rw [execUnpack, packReady_none hready hn, guarded_none, unpackByte_error.2 ⟨hmissing, rfl⟩]

/-- `LENWR` and `LENRD` where the store lacks a block of the length. -/
theorem exec_lengths_of_missing {s : State} (hready : s.slotsReady) (h4 : 4 ≤ blockProduct s)
    (hmissing : s.coef.length < 4) :
    exec .lenwr s = .fault (.noSuchCoefBlock s.coef.length) ∧
      exec .lenrd s = .fault (.noSuchCoefBlock s.coef.length) := by
  have hcheck : packReady 3 s = none := packReady_none hready h4
  have hreach : s.coef.length < 0 + 4 := by omega
  constructor
  · have hstop := (packBytes_error (d := lengthBytes s.arg0.toNat) (Nat.zero_le s.coef.length)).2 ⟨hreach, rfl⟩
    change execLenwr s = _
    rw [execLenwr, hcheck, guarded_none, hstop]
  · have hstop := (unpackBytes_error (count := 4) (Nat.zero_le s.coef.length)).2 ⟨hreach, rfl⟩
    change execLenrd s = _
    rw [execLenrd, hcheck, guarded_none, hstop]

/-- `EMBED` with four slots whose checks pass is the scan of its raw bytes. -/
theorem exec_embed_eq_scan {s : State} (hready : s.slotsReady) (henc : s.encodable) :
    ∃ v, exec .embed s = settle (embedScan (blockProduct s) (rawBytes s) v) ∧
      v.blk = 0 ∧ v.coef = s.coef ∧ v.embedLength = s.embedLength := by
  rw [exec_embed_of_slotsReady hready]
  cases hm : s.eccMethod with
  | none =>
    refine ⟨scanStart s, ?_, rfl, rfl, rfl⟩
    simp only [embedRaw, scanStart_eccMethod, hm, rawBytes]
    rfl
  | reedSolomon =>
    have hcheck : encodeCheck s.framing (setPhase .eccEncode (scanStart s)) = none := henc hm
    refine ⟨storeEbuf (rawBytes s) (setPhase .eccEncode (scanStart s)), ?_, rfl, rfl, rfl⟩
    simp only [embedRaw, scanStart_eccMethod, hm, rawBytes, scanStart_framing, hcheck, guarded_none]
    rfl

/-- `EMBED` that reaches a block that the store lacks. -/
theorem exec_embed_of_missing {s : State} (hready : s.slotsReady) (henc : s.encodable)
    (hnamed : s.coef.length < blockProduct s) (hreach : s.coef.length < prefixBlocks s + (rawBytes s).length) :
    exec .embed s = .fault (.noSuchCoefBlock s.coef.length) := by
  obtain ⟨v, hscan, hb, hcoef, hel⟩ := exec_embed_eq_scan hready henc
  rw [hscan, settle_fault, embedScan_error hb (lt_word_of_le_lenMax hready.2), hcoef, hel]
  exact ⟨⟨hnamed, hreach⟩, rfl⟩

/-- `EXTRACT` whose raw bytes fit reads them, and stops where they reach a block that the store lacks. -/
theorem extractScan_of_missing {s : State} {t : Nat} (hn : blockProduct s ≤ lenMax)
    (hfit : s.eccMethod = .reedSolomon →
      eccBlockCeiling (blockLen s) (readableBytes t s) ≤ s.params.ebufSize.val)
    (hb : s.blk.toNat ≤ s.coef.length) (hnamed : s.coef.length < blockProduct s)
    (hreach : s.coef.length < s.blk.toNat + t) :
    extractScan t s = .fault (.noSuchCoefBlock s.coef.length) := by
  have hcheck : extractFitCheck t s = none := by
    cases hm : s.eccMethod with
    | none => simp only [extractFitCheck, hm]
    | reedSolomon => rw [extractFitCheck_of_reedSolomon hm, fitsEbuf_of_le (hfit hm)]
  have hlt : s.coef.length < s.blk.toNat + readableBytes t s := by unfold readableBytes; omega
  rw [extractScan, hcheck, guarded_none, (readPayload_readableBytes_error hb hn).2 ⟨hlt, rfl⟩]
  rfl

section

variable {s : State} (hready : s.slotsReady)
include hready

/-- `EXTRACT` with the length in the image, where the frame check passes. -/
theorem exec_extract_of_embedLength (hel : s.embedLength = true)
    (hroom : s.eccMethod = .reedSolomon → s.framing = .lengthCarrying → 2 ≤ msgCap s) :
    exec .extract s = extractTarget (setPhase .determineTargetLength (scanStart s)) :=
  extract_target hready (extractFrameCheck_none fun h => hroom h.1 (h.2.resolve_right (by simp [hel])))

/-- `EXTRACT` stops in the length. -/
theorem exec_extract_of_missing_prefix (hel : s.embedLength = true)
    (hroom : s.eccMethod = .reedSolomon → s.framing = .lengthCarrying → 2 ≤ msgCap s)
    (h4 : 4 ≤ blockProduct s) (hmissing : s.coef.length < 4) :
    exec .extract s = .fault (.noSuchCoefBlock s.coef.length) :=
  (exec_extract_of_embedLength hready hel hroom).trans
    (extractTarget_of_missing (s := setPhase .determineTargetLength (scanStart s)) hel rfl h4 hmissing)

/-- `EXTRACT` stops in the payload behind the length. -/
theorem exec_extract_of_missing_payload (hel : s.embedLength = true)
    (hroom : s.eccMethod = .reedSolomon → s.framing = .lengthCarrying → 2 ≤ msgCap s)
    (hfit : s.eccMethod = .reedSolomon → eccBlockCeiling (blockLen s)
      (min (min (carriedLength s) s.maxlen.toNat) (blockProduct s - 4)) ≤ s.params.ebufSize.val)
    (hcoef : 4 ≤ s.coef.length) (hnamed : s.coef.length < blockProduct s)
    (hreach : s.coef.length < 4 + min (carriedLength s) s.maxlen.toNat) :
    exec .extract s = .fault (.noSuchCoefBlock s.coef.length) := by
  let v := setPhase .determineTargetLength (scanStart s)
  have hprefix : extractTarget v = extractScan (min (carriedLength s) s.maxlen.toNat) { v with blk := 4 } :=
    extractTarget_of_prefix (s := v) hel rfl (hcoef.trans hnamed.le) hcoef
  rw [exec_extract_of_embedLength hready hel hroom, hprefix]
  exact extractScan_of_missing (s := { v with blk := 4 }) hready.2 hfit hcoef hnamed hreach

/-- `EXTRACT` stops in the payload that the caller's length asks for. -/
theorem exec_extract_of_missing_caller (hel : s.embedLength = false)
    (hroom : s.eccMethod = .reedSolomon → 2 ≤ msgCap s) (hcheck : callerTargetCheck s = none)
    (hfit : s.eccMethod = .reedSolomon →
      eccBlockCeiling (blockLen s) (min (callerTarget s) (blockProduct s)) ≤ s.params.ebufSize.val)
    (hnamed : s.coef.length < blockProduct s) (hreach : s.coef.length < callerTarget s) :
    exec .extract s = .fault (.noSuchCoefBlock s.coef.length) := by
  let v := setPhase .determineTargetLength (scanStart s)
  have htarget : exec .extract s = extractTarget v :=
    extract_target hready (extractFrameCheck_none fun h => hroom h.1)
  have hcheck' : callerTargetCheck v = none := hcheck
  rw [htarget, extractTarget_of_caller (s := v) hel, hcheck', guarded_none]
  exact extractScan_of_missing (s := v) (t := callerTarget v) hready.2 hfit (Nat.zero_le _) hnamed
    (hreach.trans_eq (Nat.zero_add _).symm)

end

/-- Settles O19: each clause is a command that reaches the first block the store lacks, all its checks passed. -/
theorem missingBlocksStopTheCommand : Obligations.MissingBlocksStopTheCommand := by
  intro s hready held stop ecc fromPrefix fromCaller fits
  refine ⟨exec_packer_of_missing hready, exec_lengths_of_missing hready, exec_embed_of_missing hready,
    exec_extract_of_missing_prefix hready, exec_extract_of_missing_payload hready,
    fun hel hm hnamed hreach => ?_, fun hel hm h2 hmax hfit hnamed hreach => ?_⟩
  · exact exec_extract_of_missing_caller hready hel (by simp [hm]) (callerTargetCheck_of_none hm) (by simp [hm]) hnamed
      (by rwa [callerTarget_of_none hm])
  · have htarget : callerTarget s = fromCaller :=
      callerTarget_of_reedSolomon hm (le_trans (by omega) (h2.trans (Nat.sub_le ..)))
    have hcheck : callerTargetCheck s = none := by
      rw [callerTargetCheck_of_reedSolomon hm, htarget, if_neg (Nat.not_lt.2 hmax)]
    exact exec_extract_of_missing_caller hready hel (fun _ => h2) hcheck (fun _ => by rw [htarget]; exact hfit) hnamed
      (by rwa [htarget])

end Sys2Proof.Machine

/-! ### Every step keeps the state legal -/

namespace Sys2Proof.Machine

/-! #### The buffers -/

/-- A byte store of `size` bytes and the count register that goes with it, as a legal state has them
(10_state.md R45, R47, 20_memory.md R74, R75). -/
structure BufferFits (size : Nat) (count : Word) (m : Memory) : Prop where
  count : count.toNat ≤ size
  form : Memory.wf m = true
  range : ∀ c ∈ m, c.1 < size

/-- Bytes stored from address 0 up that fit. -/
theorem BufferFits.writeBytes {size : Nat} {n : Word} {m : Memory} {d : List Byte} (h : BufferFits size n m)
    (hd : d.length ≤ size) : BufferFits size (BitVec.ofNat 32 d.length) (Memory.writeBytes m 0 d) where
  count := by
    rw [BitVec.toNat_ofNat]
    exact (Nat.mod_le ..).trans hd
  form := Memory.wf_writeBytes h.form 0 d
  range c hc := by
    rcases Memory.mem_writeBytes hc with hnew | hold
    · omega
    · exact h.range c hold

/-- One byte written at an address that exists. -/
theorem BufferFits.write {size : Nat} {n : Word} {m : Memory} {a : Nat} (h : BufferFits size n m) (ha : a < size)
    (v : Byte) : BufferFits size n (Memory.write m a v) where
  count := h.count
  form := Memory.wf_write h.form a v
  range c hc := by
    rcases Memory.mem_write hc with rfl | hold
    · exact ha
    · exact h.range c hold

/-- The count set to 0. -/
theorem BufferFits.zero {size : Nat} {n : Word} {m : Memory} (h : BufferFits size n m) : BufferFits size 0 m :=
  { h with count := Nat.zero_le _ }

/-- `PBUF` and `EBUF` fit, and so does what a delivery may write, which `MAXLEN` bounds (10_state.md R46). -/
def BuffersFit (s : State) : Prop :=
  BufferFits s.params.pbufSize.val s.len s.pbuf ∧ BufferFits s.params.ebufSize.val s.elen s.ebuf ∧
    s.maxlen.toNat ≤ s.params.pbufSize.val

/-- The buffers of a legal state. -/
theorem State.Legal.buffersFit {s : State} (hs : s.Legal) : BuffersFit s :=
  ⟨⟨hs.len, hs.pbufForm, hs.pbufRange⟩, ⟨hs.elen, hs.ebufForm, hs.ebufRange⟩, hs.maxlen⟩

/-- Storing an encoded buffer that fits. -/
theorem BuffersFit.storeEbuf {s : State} {d : List Byte} (h : BuffersFit s) (hd : d.length ≤ s.params.ebufSize.val) :
    BuffersFit (storeEbuf d s) := by
  obtain ⟨hpbuf, hebuf, hmax⟩ := h
  exact ⟨hpbuf, hebuf.writeBytes hd, hmax⟩

/-- The end of a command writes no buffer. -/
theorem Ends.buffersFit {i : Instr} {u t : State} (h : Ends i u t) (hu : BuffersFit u) : BuffersFit t := by
  rcases h with ⟨c, rfl⟩ | ⟨v, rfl⟩ <;> exact hu

/-- A delivery writes at most `MAXLEN` bytes, and these fit. -/
theorem BuffersFit.deliver {s : State} (h : BuffersFit s) (i : Instr) (d : List Byte) : BuffersFit (deliver i d s) := by
  obtain ⟨hpbuf, hebuf, hmax⟩ := h
  have htake : (d.take s.maxlen.toNat).length ≤ s.params.pbufSize.val := (List.length_take_le ..).trans hmax
  exact (deliver_ends i d s).buffersFit ⟨hpbuf.writeBytes htake, hebuf, hmax⟩

/-- A format error clears `LEN`. -/
theorem BuffersFit.formatError {s : State} (h : BuffersFit s) (i : Instr) (c : Cause) :
    BuffersFit (formatError i c s) := by
  obtain ⟨hpbuf, hebuf, hmax⟩ := h
  exact ⟨hpbuf.zero, hebuf, hmax⟩

/-- A guarded command keeps the buffers where its body does. -/
theorem guarded_buffersFit {i : Instr} {check : Option Cause} {s t : State}
    {go : Host.Outcome State Fault Refusal} (h : guarded i check s go = .next t) (hs : BuffersFit s)
    (hgo : check = none → go = .next t → BuffersFit t) : BuffersFit t := by
  rcases guarded_next h with ⟨c, -, rfl⟩ | ⟨hcheck, h⟩
  · exact hs
  · exact hgo hcheck h

/-- The encoders store what passed `fits_ebuf` (42_ecc_framer.md R165). -/
theorem exec_encodeCommand_buffersFit {v : Framing} {s t : State} (hs : BuffersFit s)
    (h : exec (encodeCommand v) s = .next t) : BuffersFit t := by
  rw [exec_encodeCommand] at h
  refine guarded_buffersFit h hs fun hcheck h => ?_
  have hfits := (encodedPayload_length v s).trans_le (encodeCheck_none hcheck).2
  obtain rfl := Host.Outcome.next.inj h
  exact hs.storeEbuf hfits

/-- `FDEC` keeps the buffers. -/
theorem execFdec_buffersFit {s t : State} (hs : BuffersFit s) (h : execFdec s = .next t) : BuffersFit t := by
  refine guarded_buffersFit h hs fun _ h => ?_
  obtain rfl := Host.Outcome.next.inj h
  split
  · exact hs.formatError ..
  · split
    · exact hs.formatError ..
    · exact hs.deliver ..

/-- `FDECNL` keeps the buffers. -/
theorem execFdecnl_buffersFit {s t : State} (hs : BuffersFit s) (h : execFdecnl s = .next t) : BuffersFit t := by
  refine guarded_buffersFit h hs fun _ h => ?_
  obtain rfl := Host.Outcome.next.inj h
  split
  · exact hs.formatError ..
  · exact hs.deliver ..

/-- The selection of a scan keeps the buffers. -/
theorem BuffersFit.ensureSelection_scanStart {s : State} (h : BuffersFit s) :
    BuffersFit (ensureSelection (scanStart s)).1 := by
  rcases ensureSelection_fst (scanStart s) with heq | heq <;> rw [heq] <;> exact h

/-- The scan of `EMBED` keeps the buffers. -/
theorem embedScan_buffersFit {n : Nat} {d : List Byte} {s t : State} (hs : BuffersFit s) (hb : s.blk = 0)
    (hk : s.k = 0) (hn : n ≤ lenMax) (h : settle (embedScan n d s) = .next t) : BuffersFit t := by
  obtain ⟨u, rfl, hu, -⟩ := embedScan_ok ((settle_next _ _).1 h) hb hk (lt_word_of_le_lenMax hn)
  refine (embedResult_ends d.length u).buffersFit ?_
  rw [hu]
  exact hs

/-- `EMBED` stores in `EBUF` what passed the checks of the encode. -/
theorem execEmbed_buffersFit {s t : State} (hs : BuffersFit s) (h : execEmbed s = .next t) : BuffersFit t := by
  obtain ⟨hb, hk, hprod⟩ := ensureSelection_scanStart s
  have hv := hs.ensureSelection_scanStart
  refine guarded_buffersFit h hv fun hcheck h => ?_
  have hn := hprod.trans_le (selectCheck_none hcheck).2
  generalize (ensureSelection (scanStart s)).1 = v at *
  unfold embedRaw at h
  split at h
  · exact embedScan_buffersFit hv hb hk hn h
  · refine guarded_buffersFit h hv fun hencode h => ?_
    have hfits := (encodedPayload_length v.framing (setPhase .eccEncode v)).trans_le (encodeCheck_none hencode).2
    have hstored : BuffersFit (storeEbuf (encodedPayload v.framing (setPhase .eccEncode v)) (setPhase .eccEncode v)) :=
      BuffersFit.storeEbuf (s := setPhase .eccEncode v) hv hfits
    exact embedScan_buffersFit hstored hb hk hn h

/-- What `fits_ebuf` ensures where it passes (42_ecc_framer.md R165). -/
theorem le_of_fitsEbuf_none {n : Nat} {s : State} (h : fitsEbuf n s = none) : n ≤ s.params.ebufSize.val := by
  unfold fitsEbuf at h
  split at h
  · cases h
  · split at h
    · cases h
    · omega

/-- The decode of `EXTRACT` keeps the buffers. -/
theorem extractDecode_buffersFit {s : State} (hs : BuffersFit s) (n2 : Nat) : BuffersFit (extractDecode n2 s) := by
  have hdone : BuffersFit (setPhase .done s) := hs
  simp only [extractDecode]
  split
  · split
    · exact hs.formatError ..
    · exact hdone.deliver ..
  · exact hdone.deliver ..

/-- Raw bytes padded to whole blocks that fit `EBUF` (44_embed_extract.md R247). -/
theorem storeRaw_buffersFit {r : List Byte} {s : State} (hs : BuffersFit s) (hb : 1 ≤ blockLen s)
    (hfit : eccBlockCeiling (blockLen s) r.length ≤ s.params.ebufSize.val) : BuffersFit (storeRaw r s) := by
  have hceil := ceil_ge (blockLen s) r.length hb
  refine hs.storeEbuf ?_
  simp only [List.length_append, zeros, List.length_replicate]
  omega

/-- The end of `EXTRACT` keeps the buffers. -/
theorem extractEnd_buffersFit {r : List Byte} {s : State} (hs : BuffersFit s) (hb : 1 ≤ blockLen s)
    (hfit : s.eccMethod = .reedSolomon → eccBlockCeiling (blockLen s) r.length ≤ s.params.ebufSize.val) :
    BuffersFit (extractEnd r s) := by
  unfold extractEnd
  split
  · exact BuffersFit.deliver (s := setPhase .done s) hs ..
  · rename_i hm
    exact extractDecode_buffersFit (storeRaw_buffersFit (s := setPhase .eccDecode s) hs hb (hfit hm)) _

/-- `EXTRACT` keeps the buffers once its target is known. -/
theorem extractScan_buffersFit {n : Nat} {s t : State} (hs : BuffersFit s) (hb : 1 ≤ blockLen s)
    (hn : blockProduct s ≤ lenMax) (h : extractScan n s = .next t) : BuffersFit t := by
  refine guarded_buffersFit h hs fun hcheck h => ?_
  rw [settle_next] at h
  split at h
  · cases h
  · rename_i r u hread
    obtain rfl := Except.ok.inj h
    have hword : s.blk.toNat + readableBytes n s < 2 ^ 32 := by
      have hblk := s.blk.isLt
      have hprod := lt_word_of_le_lenMax hn
      unfold readableBytes
      omega
    obtain ⟨hu, hr, -⟩ := readPayload_ok hread hword
    rw [hu]
    refine extractEnd_buffersFit hs hb fun hm => ?_
    have hm : s.eccMethod = .reedSolomon := hm
    rw [extractFitCheck_of_reedSolomon hm, ← hr] at hcheck
    exact le_of_fitsEbuf_none hcheck

/-- `EXTRACT` keeps the buffers from `DetermineTargetLength` on. -/
theorem extractTarget_buffersFit {s t : State} (hs : BuffersFit s) (hb : 1 ≤ blockLen s)
    (hn : blockProduct s ≤ lenMax) (hblk : s.blk = 0) (h : extractTarget s = .next t) : BuffersFit t := by
  unfold extractTarget at h
  split at h
  · refine guarded_buffersFit h hs fun _ h => ?_
    split at h
    · cases h
    · rename_i bytes u hread
      obtain ⟨hu, -, -⟩ := readPrefix_ok hread (by simp [hblk])
      rw [hu] at h
      exact extractScan_buffersFit (s := { s with blk := BitVec.ofNat 32 (s.blk.toNat + 4) }) hs hb hn h
  · exact guarded_buffersFit h hs fun _ => extractScan_buffersFit hs hb hn

/-- `EXTRACT` keeps the buffers. -/
theorem execExtract_buffersFit {s t : State} (hs : BuffersFit s) (hb : 1 ≤ blockLen s)
    (h : execExtract s = .next t) : BuffersFit t := by
  obtain ⟨hblk, -, hprod⟩ := ensureSelection_scanStart s
  have hv := hs.ensureSelection_scanStart
  have hlen : blockLen (ensureSelection (scanStart s)).1 = blockLen s := by
    rcases ensureSelection_fst (scanStart s) with heq | heq <;> rw [heq] <;> rfl
  refine guarded_buffersFit h hv fun hcheck h => guarded_buffersFit h hv fun _ h => ?_
  have hn := hprod.trans_le (selectCheck_none hcheck).2
  exact extractTarget_buffersFit (s := setPhase .determineTargetLength _) hv (hb.trans_eq hlen.symm) hn hblk h

/-- `INIT` clears the counts and `MAXLEN`. -/
theorem initRegisters_buffersFit {s : State} (hs : BuffersFit s) : BuffersFit (initRegisters s) := by
  obtain ⟨hpbuf, hebuf, -⟩ := hs
  exact ⟨hpbuf.zero, hebuf.zero, Nat.zero_le _⟩

/-- Every command keeps the buffers within their sizes. -/
theorem exec_buffersFit {i : Instr} {s t : State} (hs : BuffersFit s) (hb : 1 ≤ blockLen s) (h : exec i s = .next t) :
    BuffersFit t := by
  cases i with
  | init =>
    obtain rfl := eq_of_exec_init h
    exact initRegisters_buffersFit (s := s) hs
  | fenc => exact exec_encodeCommand_buffersFit (v := .lengthCarrying) hs h
  | fencnl => exact exec_encodeCommand_buffersFit (v := .lengthOmitting) hs h
  | fdec => exact execFdec_buffersFit hs h
  | fdecnl => exact execFdecnl_buffersFit hs h
  | embed => exact execEmbed_buffersFit hs h
  | extract => exact execExtract_buffersFit hs hb h
  | qual | selfreq | pack | unpack | ecclen | eccceil | capecc | rawcap | cap | lenwr | lenrd =>
    obtain ⟨-, hpbuf, hebuf, hlen, helen, -⟩ := storesAreWrittenOnlyByTheirCommands _ s t h
    rw [commandsKeepOperandsAndConfiguration _ s t (by decide) h]
    simp only [BuffersFit, hpbuf (by decide), hebuf (by decide), hlen (by decide), helen (by decide)]
    exact hs

/-! #### The status -/

/-- The error registers and `RESULT` of a legal state (10_state.md R25 to R27, 60_exceptions.md R283). -/
structure StatusLegal (s : State) : Prop where
  err : s.err.toNat ≤ 5
  errinfo : s.err = 0 ↔ s.errinfo = 0
  esticky : s.esticky &&& 0xC1 = 0
  result : -5 ≤ s.result.toInt

/-- No detail code is 0 (60_exceptions.md R282). -/
theorem Cause.detail_ne_zero (c : Cause) : c.detail ≠ 0 := by cases c <;> decide

/-- The bit that an error of a class sets is one of bits 1 to 5 (10_state.md R27). -/
theorem stickyAfter_legal {e : BitVec 8} (h : e &&& 0xC1 = 0) (c : ErrClass) : stickyAfter e c &&& 0xC1 = 0 := by
  have hbit : (1#8 <<< c.code) &&& 0xC1 = 0 := by cases c <;> decide
  rw [stickyAfter, BitVec.and_or_distrib_right, h, hbit]
  rfl

/-- An error leaves a legal status. -/
theorem raise_statusLegal (i : Option Instr) (c : Cause) {s : State} (h : s.esticky &&& 0xC1 = 0) :
    StatusLegal (raise i c s) where
  err := by
    rw [raise_err, ErrClass.err_toNat]
    exact (ErrClass.code_range _).2
  errinfo := iff_of_false (ErrClass.err_ne_zero _) (Cause.detail_ne_zero c)
  esticky := stickyAfter_legal h _
  result := by
    have hcode := (ErrClass.code_range c.errClass).2
    rw [raise_result, ErrClass.result_toInt]
    omega

/-- A refused access leaves a legal status. -/
theorem reject_statusLegal (c : Cause) {s : State} (h : StatusLegal s) : StatusLegal (reject c s) where
  err := by rw [reject_err]; decide
  errinfo := iff_of_false (by rw [reject_err]; decide) (Cause.detail_ne_zero c)
  esticky := stickyAfter_legal h.esticky .config
  result := h.result

/-- The end of a command leaves a legal status, where it reports in range. -/
theorem Ends.statusLegal {i : Instr} {u t : State} (h : Ends i u t) (hrange : ReportInRange t)
    (hu : u.esticky &&& 0xC1 = 0) : StatusLegal t := by
  rcases h with ⟨c, rfl⟩ | ⟨v, rfl⟩
  · exact raise_statusLegal _ c hu
  · obtain ⟨-, -, hshown⟩ := shown_of_ends (.finish (i := i) v) hrange
    exact ⟨Nat.zero_le _, Iff.rfl, hu, le_trans (by decide) (hshown rfl).1⟩

/-! #### The commands -/

/-- `NFREQS` counts at most the 64 positions (10_state.md R40). -/
theorem exec_nfreqs_le {i : Instr} {s t : State} (hs : s.nfreqs.toNat ≤ 64) (h : exec i s = .next t) :
    t.nfreqs.toNat ≤ 64 := by
  have hstored : (storeSelection (selected s) s).nfreqs.toNat ≤ 64 :=
    (storeSelection_nfreqs_toNat s s).trans_le (selected_length_le s)
  have hend {u : State} (hends : Ends i u t) (hu : u.nfreqs = s.nfreqs ∨
      u.nfreqs = (storeSelection (selected s) s).nfreqs) : t.nfreqs.toNat ≤ 64 := by
    obtain ⟨-, -, -, -, heq⟩ := hends.stores
    rw [heq]
    rcases hu with hu | hu <;> rw [hu] <;> assumption
  cases i with
  | init =>
    obtain rfl := eq_of_exec_init h
    exact Nat.zero_le _
  | selfreq =>
    obtain ⟨u, hu, hends⟩ := execSelfreq_next h
    exact hend hends (hu.imp (congrArg State.nfreqs) (congrArg State.nfreqs))
  | embed =>
    obtain ⟨u, hframe, hends⟩ := execEmbed_next h
    exact hend hends (hframe.selection.imp And.right And.right)
  | extract =>
    obtain ⟨u, hframe, hends⟩ := execExtract_next h
    exact hend hends (hframe.selection.imp And.right And.right)
  | qual | pack | unpack | fenc | fdec | fencnl | fdecnl | ecclen | eccceil | capecc | rawcap | cap | lenwr | lenrd =>
    obtain ⟨-, -, -, -, -, -, hnfreqs⟩ := storesAreWrittenOnlyByTheirCommands _ s t h
    rw [hnfreqs (by decide)]
    exact hs

/-- `PHASE` and the scan counters of a legal state (10_state.md R28, R58). -/
def ScanLegal (s : State) : Prop :=
  (s.phase = .idle ∨ s.phase = .done) ∧ s.k.toNat ≤ s.blk.toNat ∧ s.blk.toNat ≤ lenMax

/-- Every command leaves the scan registers legal. -/
theorem exec_scanLegal {i : Instr} {s t : State} (hs : ScanLegal s) (h : exec i s = .next t) : ScanLegal t := by
  by_cases hinit : i = .init
  · subst hinit
    obtain rfl := eq_of_exec_init h
    exact ⟨.inl rfl, Nat.le_refl 0, Nat.zero_le _⟩
  by_cases hembed : i = .embed
  · subst hembed
    obtain ⟨u, hframe, hends⟩ := execEmbed_next h
    refine ⟨.inr (execEmbed_phase h), ?_⟩
    rw [hends.same]
    exact hframe.counters
  by_cases hextract : i = .extract
  · subst hextract
    obtain ⟨u, hframe, hends⟩ := execExtract_next h
    refine ⟨.inr (execExtract_phase h), ?_⟩
    rw [hends.same]
    exact hframe.counters
  obtain ⟨hphase, hblk, hk⟩ := onlyScansAndInitMoveTheScanState.1 i s t hembed hextract hinit h
  rw [ScanLegal, hphase, hblk, hk]
  exact hs

/-- Every command leaves a legal status. -/
theorem exec_statusLegal {i : Instr} {s t : State} (hs : s.Legal) (h : exec i s = .next t) : StatusLegal t := by
  have hrange := exec_reportInRange hs h
  by_cases hi : i = .init
  · subst hi
    obtain rfl := eq_of_exec_init h
    exact (Ends.finish (i := .init) (u := initRegisters s) 0).statusLegal hrange (by rw [initRegisters_esticky]; decide)
  · obtain ⟨u, hframe, hends⟩ := exec_next hi h
    refine hends.statusLegal hrange ?_
    rw [hframe.same]
    exact hs.esticky

/-- `INIT` leaves a legal configuration (45_config_access.md R263). -/
theorem init_legal {s t : State} (hs : s.Legal) (h : exec .init s = .next t) : t.Legal := by
  have hpower := powerOn_legal s.params
  obtain rfl := eq_of_exec_init h
  exact { hpower with
    qt := hs.qt, coef := hs.coef
    pbufForm := hs.pbufForm, pbufRange := hs.pbufRange, ebufForm := hs.ebufForm, ebufRange := hs.ebufRange }

/-- Every command keeps the state legal. -/
theorem exec_legal {i : Instr} {s t : State} (hs : s.Legal) (h : exec i s = .next t) : t.Legal := by
  by_cases hi : i = .init
  · subst hi
    exact init_legal hs h
  · have hblock : 1 ≤ blockLen s := Nat.one_le_of_lt hs.blockLength
    obtain ⟨hpbuf, hebuf, hmax⟩ := exec_buffersFit hs.buffersFit hblock h
    obtain ⟨hphase, hcounters⟩ := exec_scanLegal ⟨hs.phase, hs.counters⟩ h
    have hstatus := exec_statusLegal hs h
    have hnfreqs := exec_nfreqs_le hs.nfreqs h
    have hcoef := (exec_coefKept h).inRange (Nat.le_add_left 3 _) hs.coef
    have hsame := commandsKeepOperandsAndConfiguration i s t hi h
    have hparams : t.params = s.params := by rw [hsame]
    rw [hparams] at hpbuf hebuf
    rw [hsame]
    exact { hs with
      nfreqs := hnfreqs, coef := hcoef, phase := hphase, counters := hcounters
      len := hpbuf.count, pbufForm := hpbuf.form, pbufRange := hpbuf.range
      elen := hebuf.count, ebufForm := hebuf.form, ebufRange := hebuf.range
      err := hstatus.err, errinfo := hstatus.errinfo, esticky := hstatus.esticky, result := hstatus.result }

/-! #### The host's side -/


/-- A state that differs from a legal one in its status and its reply only, and whose status is legal. -/
theorem State.Legal.withStatus {s t : State} (hs : s.Legal) (hstatus : StatusLegal t)
    (hsame : t = { s with
      result := t.result, err := t.err, errinfo := t.errinfo, esticky := t.esticky, reply := t.reply }) :
    t.Legal := by
  rw [hsame]
  exact { hs with
    err := hstatus.err, errinfo := hstatus.errinfo, esticky := hstatus.esticky, result := hstatus.result }

/-- The status of a legal state. -/
theorem State.Legal.status {s : State} (hs : s.Legal) : StatusLegal s := ⟨hs.err, hs.errinfo, hs.esticky, hs.result⟩

/-- A refused access keeps the state legal (45_config_access.md R262). -/
theorem reject_legal {s : State} (hs : s.Legal) (c : Cause) : (reject c s).Legal :=
  hs.withStatus (reject_statusLegal c hs.status) rfl

/-- Answering a read keeps the state legal. -/
theorem readElement_legal {s : State} (hs : s.Legal) (space : Space) (a : Nat) : (readElement space a s).Legal := by
  have hvalue (v : Int) : (replyValue v s).Legal := { hs with }
  have hany (bound : Nat) : (replyAnyValue bound s).Legal := { hs with }
  cases space with
  | reg =>
    simp only [readElement]
    split
    · exact hvalue _
    · exact hs
  | freq =>
    simp only [readElement]
    split
    · exact hvalue _
    · exact hany _
  | qt =>
    simp only [readElement]
    split
    · exact hvalue _
    · exact hany _
  | pbuf | ebuf => exact hvalue _

/-- A read keeps the state legal, answered or refused. -/
theorem hostRead_legal {s : State} (hs : s.Legal) (space : Space) (a : Nat) : (hostRead space a s).Legal := by
  unfold hostRead
  split
  · exact reject_legal hs _
  · exact readElement_legal hs space a

/-- A legal value written to a register keeps the state legal (45_config_access.md R261). -/
theorem setReg_legal {r : RegName} {v : Nat} {s : State} (hs : s.Legal) (h : regLegal r v s.params = true) :
    (setReg r v s).Legal := by
  cases r <;> simp only [regLegal, Bool.and_eq_true, decide_eq_true_eq, beq_iff_eq, Bool.false_eq_true] at h
  case cmd | arg0 | arg1 | seed | quality | ethresh | wb | hb | embedLength | eccMethod | framing | nlevels =>
    exact { hs with }
  case eccBlockLength =>
    exact { hs with blockLength := h.1.trans_eq (Nat.mod_eq_of_lt (Nat.lt_succ_of_le h.2)).symm }
  case bitsPerFreq => exact { hs with bitsPerFreq := h ▸ rfl }
  case bytesPerMcu => exact { hs with bytesPerMcu := h ▸ rfl }
  case comp => exact { hs with comp := h ▸ rfl }
  case pool => exact { hs with pool := (Nat.mod_le v _).trans h }
  case nfreqs => exact { hs with nfreqs := (Nat.mod_le v _).trans h }
  case len => exact { hs with len := (Nat.mod_le v _).trans (h.trans (Nat.min_le_right ..)) }
  case maxlen => exact { hs with maxlen := (Nat.mod_le v _).trans (h.trans (Nat.min_le_right ..)) }
  case elen => exact { hs with elen := (Nat.mod_le v _).trans (h.trans (Nat.min_le_right ..)) }
  case vsamp => exact { hs with vsamp := h.1.trans_eq (Nat.mod_eq_of_lt h.2).symm }

/-- The table after a write of one entry that is positive and fits `QW` bits. -/
theorem qt_set_legal {qw v : Nat} {qt : Vector (Option Nat) 64} (q : Slot) (hv : 0 < v ∧ v < 2 ^ qw)
    (h : ∀ (p : Slot) (w : Nat), qt.get p = some w → 0 < w ∧ w < 2 ^ qw) (p : Slot) (w : Nat)
    (hw : (qt.set q (some v)).get p = some w) : 0 < w ∧ w < 2 ^ qw := by
  rw [Vector.get_eq_getElem, Vector.getElem_set] at hw
  split at hw
  · obtain rfl := Option.some.inj hw
    exact hv
  · exact h p w hw

/-- A legal value written to an element of another space keeps the state legal (45_config_access.md R261). -/
theorem setElement_legal {space : Space} {a v : Nat} {s : State} (hs : s.Legal)
    (ha : addressCheck space a s = none) (hv : elementCheck space v s = none) : (setElement space a v s).Legal := by
  obtain ⟨hpbuf, hebuf, -⟩ := hs.buffersFit
  cases space with
  | reg => exact hs
  | freq => exact { hs with }
  | qt =>
    have hentry : 0 < v ∧ v < 2 ^ s.params.qw := by
      simp only [elementCheck] at hv
      split at hv
      · cases hv
      · split at hv
        · omega
        · cases hv
    exact { hs with qt := qt_set_legal _ hentry hs.qt, nfreqs := Nat.zero_le _ }
  | pbuf =>
    have hlt : a < s.params.pbufSize.val := by simpa [addressCheck] using ha
    have hfits := hpbuf.write hlt (BitVec.ofNat 8 v)
    exact { hs with pbufForm := hfits.form, pbufRange := hfits.range }
  | ebuf =>
    have hlt : a < s.params.ebufSize.val := by simpa [addressCheck] using ha
    have hfits := hebuf.write hlt (BitVec.ofNat 8 v)
    exact { hs with ebufForm := hfits.form, ebufRange := hfits.range }

/-- A command that the host starts keeps the state legal, also where the value is no opcode. -/
theorem runCommand_legal {v : Nat} {s t : State} (hs : s.Legal) (h : runCommand exec v s = .next t) : t.Legal := by
  have hstart : (startCommand v s).Legal := { hs with }
  unfold runCommand at h
  split at h
  · exact exec_legal hstart h
  · obtain rfl := Host.Outcome.next.inj h
    exact hstart.withStatus (raise_statusLegal none .illegalOpcode hstart.esticky) rfl

/-- An address that a write passes exists. -/
theorem addressCheck_of_writeCheck {space : Space} {a v : Nat} {s : State} (h : writeCheck space a v s = none) :
    addressCheck space a s = none := by
  cases ha : addressCheck space a s with
  | none => rfl
  | some c => simp [writeCheck, ha] at h

/-- What a write to `REG` that passes names: a register, and a legal value of it. -/
theorem register_of_writeCheck {a v : Nat} {s : State} (h : writeCheck .reg a v s = none) :
    ∃ r, RegName.ofNumber a = some r ∧ regLegal r v s.params = true := by
  have ha := addressCheck_of_writeCheck h
  cases hr : RegName.ofNumber a with
  | none => simp [addressCheck, hr] at ha
  | some r =>
    simp only [writeCheck, ha, hr, regWriteCheck] at h
    refine ⟨r, rfl, ?_⟩
    split at h
    · cases h
    · split at h
      · assumption
      · split at h <;> cases h

/-- The effect of a write to an element that is no register. -/
theorem writeEffect_element {run : Instr → State → Host.Outcome State Fault Refusal} {space : Space} {a v : Nat}
    {s : State} (h : space ≠ .reg) :
    writeEffect run space a v s = .next { setElement space a v s with reply := .written } := by
  cases space with
  | reg => exact absurd rfl h
  | freq | qt | pbuf | ebuf => rfl

/-- A write that passes its checks keeps the state legal. -/
theorem writeEffect_legal {space : Space} {a v : Nat} {s t : State} (hs : s.Legal)
    (hcheck : writeCheck space a v s = none) (h : writeEffect exec space a v s = .next t) : t.Legal := by
  by_cases hspace : space = .reg
  · subst hspace
    obtain ⟨r, hr, hv⟩ := register_of_writeCheck hcheck
    by_cases hcmd : r = .cmd
    · subst hcmd
      simp only [writeEffect, hr] at h
      exact runCommand_legal hs h
    · have hset := setReg_legal hs hv
      simp only [writeEffect, hr, Host.Outcome.next.injEq] at h
      exact h ▸ { hset with }
  · have haddr := addressCheck_of_writeCheck hcheck
    rw [writeCheck_element hspace haddr] at hcheck
    have hset := setElement_legal hs haddr hcheck
    rw [writeEffect_element hspace] at h
    exact Host.Outcome.next.inj h ▸ { hset with }

/-- A write keeps the state legal, taken or refused. -/
theorem hostWrite_legal {space : Space} {a v : Nat} {s t : State} (hs : s.Legal)
    (h : hostWrite exec space a v s = .next t) : t.Legal := by
  unfold hostWrite at h
  split at h
  · obtain rfl := Host.Outcome.next.inj h
    exact reject_legal hs _
  · rename_i hcheck
    exact writeEffect_legal hs hcheck h

/-! #### The reset and the image -/

/-- The outside reset keeps the image and gives every register its reset value (70_reset_and_hazards.md R321). -/
theorem applyReset_legal {s : State} (hs : s.Legal) : (applyReset s).Legal :=
  { powerOn_legal s.params with coef := hs.coef }

/-- A coefficient brought into `CW` bits is in range (10_state.md R53). -/
theorem wrapCoef_range (p : Params) (c : Int) :
    -(2 ^ (p.cw - 1) : Int) ≤ wrapCoef p.cw c ∧ wrapCoef p.cw c < (2 ^ (p.cw - 1) : Int) := by
  have hpos : 0 < 2 ^ p.cw := Nat.two_pow_pos _
  have hhalf : (2 : Int) ^ p.cw = 2 * 2 ^ (p.cw - 1) := (mul_pow_sub_one (by unfold Params.cw; omega) 2).symm
  have hlow := Int.le_bmod (x := c) hpos
  have hhigh := Int.bmod_lt (x := c) hpos
  unfold wrapCoef
  push_cast [hhalf] at hlow hhigh
  omega

/-- An attached image is in range. -/
theorem attachImage_legal {s : State} (hs : s.Legal) (blocks : List CoefBlock) : (attachImage blocks s).Legal := by
  refine { hs with coef := fun blk hblk p => ?_ }
  obtain ⟨old, -, rfl⟩ := List.mem_map.1 hblk
  rw [Vector.get_eq_getElem, Vector.getElem_map]
  exact wrapCoef_range s.params _

/-! #### The step -/

/-- Every outside input keeps the state legal. -/
theorem takeInput_legal {x : Input} {s t : State} (hs : s.Legal) (h : takeInput exec x s = .next t) : t.Legal := by
  cases x with
  | read space a => exact Host.Outcome.next.inj h ▸ hostRead_legal hs space a
  | write space a v => exact hostWrite_legal hs h
  | reset => exact Host.Outcome.next.inj h ▸ applyReset_legal hs
  | image blocks => exact Host.Outcome.next.inj h ▸ attachImage_legal hs blocks

/-- Settles O3: a step with nothing waiting changes nothing, and each kind of input keeps the state legal. -/
theorem stepKeepsTheStateLegal : Obligations.StepKeepsTheStateLegal := by
  intro s t hs h
  cases hpending : s.pending with
  | nil =>
    rw [step_idle hpending] at h
    exact Host.Outcome.next.inj h ▸ hs
  | cons x rest =>
    have hrest : { s with pending := rest }.Legal := { hs with }
    rw [step_takes hpending] at h
    exact takeInput_legal hrest h

end Sys2Proof.Machine
